-- ==== Sys2Proof/Word.lean ====
section
/-! DEFINITION. The words of BME: bytes, 16-bit header fields, 32-bit registers, 16-byte blocks (00_scope R17). -/

namespace Sys2Proof

/-- A byte (R17): bit 7 is the most significant, bit 0 the least. -/
abbrev Byte := BitVec 8

/-- A 16-bit field of an 802.11 header (R211). -/
abbrev Half := BitVec 16

/-- A 32-bit register or command word (R20, R90); bit 31 is the most significant. -/
abbrev Word := BitVec 32

/-- A block (R17): a byte string of length 16, byte 0 first in buffer order. -/
abbrev Block := Vector Byte 16

end Sys2Proof
end

