-- ==== Sys2Proof/Syntax.lean ====
section
/-! DEFINITION. The instruction set of BME: its twelve command words (00_scope R3, 30_encoding R93), one constructor
per row of spec/opcode_table.json. All other operands come from the operand registers (R92). -/

namespace Sys2Proof

/-- A command (R93) with the fields its format carries in the command word (R91, R92). -/
inductive Instr where
  /-- `NOP` (R135). -/
  | nop
  /-- `CBC_ENC` (R152), with the padding-type selector `PAD`: 0 `NoPadding`, 1 `PadLen`, 2 and 3 unknown. -/
  | cbcEnc (pad : Nat)
  /-- `CBC_DEC` (R156), with the padding-type selector `PAD`. -/
  | cbcDec (pad : Nat)
  /-- `CTR_CRYPT` (R171). -/
  | ctrCrypt
  /-- `CCM_MAC` (R190). -/
  | ccmMac
  /-- `CCM_ENC` (R192). -/
  | ccmEnc
  /-- `CCM_DEC` (R195). -/
  | ccmDec
  /-- `CCMP_DERIVE` (R220), with the `LEGACY` flag and the nonce first byte `NFB`. -/
  | ccmpDerive (legacy : Bool) (nfb : Byte)
  /-- `CCMP_ENC` (R224), with the `LEGACY` flag and the nonce first byte `NFB`. -/
  | ccmpEnc (legacy : Bool) (nfb : Byte)
  /-- `CCMP_DEC` (R228), with the `LEGACY` flag and the nonce first byte `NFB`. -/
  | ccmpDec (legacy : Bool) (nfb : Byte)
  /-- `CMAC_SUBKEYS` (R242). -/
  | cmacSubkeys
  /-- `CMAC` (R245). -/
  | cmac
  deriving DecidableEq, Repr

/-- The mnemonic of R93, letter for letter. -/
def Instr.mnemonic : Instr → String
  | .nop => "NOP"
  | .cbcEnc _ => "CBC_ENC"
  | .cbcDec _ => "CBC_DEC"
  | .ctrCrypt => "CTR_CRYPT"
  | .ccmMac => "CCM_MAC"
  | .ccmEnc => "CCM_ENC"
  | .ccmDec => "CCM_DEC"
  | .ccmpDerive _ _ => "CCMP_DERIVE"
  | .ccmpEnc _ _ => "CCMP_ENC"
  | .ccmpDec _ _ => "CCMP_DEC"
  | .cmacSubkeys => "CMAC_SUBKEYS"
  | .cmac => "CMAC"

end Sys2Proof
end

