-- ==== Sys2Proof/WellFormed.lean ====
section
/-! DEFINITION. Which instruction terms a command word can carry: `PAD` is a 2-bit field (30_encoding R92). The other
fields cannot be out of range, by their types. -/

namespace Sys2Proof

/-- The padding-type selector fits the two bits 9:8 of format P (R91, R92). -/
def padInRange (pad : Nat) : Bool := decide (pad < 4)

/-- A well-formed instruction: one that some command word encodes. -/
def Instr.wf : Instr → Bool
  | .nop => true
  | .cbcEnc pad => padInRange pad
  | .cbcDec pad => padInRange pad
  | .ctrCrypt => true
  | .ccmMac => true
  | .ccmEnc => true
  | .ccmDec => true
  | .ccmpDerive _ _ => true
  | .ccmpEnc _ _ => true
  | .ccmpDec _ _ => true
  | .cmacSubkeys => true
  | .cmac => true

end Sys2Proof
end

