-- ==== Sys2Proof/Decode.lean ====
section
/-! DEFINITION. Decoding and encoding of command words (30_encoding R90 to R97), total on every 32-bit word and
refusing by name; then the encoder, from the same rows. -/

namespace Sys2Proof

/-- Why a word is illegal (R97). -/
inductive DecodeError where
  /-- `OPC` is in 0x0C to 0xFF (R97). -/
  | unknownOpcode (opc : Byte)
  /-- `OPC` is defined, but a "zero" field of its format is not zero (R91, R97). -/
  | reservedFieldNotZero (opc : Byte)
  deriving DecidableEq, Repr

/-- The field `OPC`, bits 7:0 (R92). -/
def fieldOpc (w : Word) : Byte := w.extractLsb' 0 8

/-- The field `PAD`, bits 9:8 of format P (R91, R92). -/
def fieldPad (w : Word) : Nat := (w.extractLsb' 8 2).toNat

/-- The field `LEGACY`, bit 8 of format W (R91, R92). -/
def fieldLegacy (w : Word) : Bool := w.getLsbD 8

/-- The field `NFB`, bits 23:16 of format W (R91, R92). -/
def fieldNfb (w : Word) : Byte := w.extractLsb' 16 8

/-- One row of the opcode map (R93): a word is the row's command iff `w AND mask = pattern`. -/
structure OpRow where
  mnemonic : String
  mask : Word
  pattern : Word
  build : Word → Instr

/-- Format N (R91): every bit above `OPC` is zero. -/
def maskN : Word := 0xFFFFFFFF

/-- Format P (R91): bits 9:8 are `PAD`. -/
def maskP : Word := 0xFFFFFCFF

/-- Format W (R91): bits 23:16 are `NFB`, bit 8 is `LEGACY`. -/
def maskW : Word := 0xFF00FEFF

/-- The opcode map (R93). -/
def opTable : List OpRow :=
  [ { mnemonic := "NOP", mask := maskN, pattern := 0x00, build := fun _ => .nop },
    { mnemonic := "CBC_ENC", mask := maskP, pattern := 0x01, build := fun w => .cbcEnc (fieldPad w) },
    { mnemonic := "CBC_DEC", mask := maskP, pattern := 0x02, build := fun w => .cbcDec (fieldPad w) },
    { mnemonic := "CTR_CRYPT", mask := maskN, pattern := 0x03, build := fun _ => .ctrCrypt },
    { mnemonic := "CCM_MAC", mask := maskN, pattern := 0x04, build := fun _ => .ccmMac },
    { mnemonic := "CCM_ENC", mask := maskN, pattern := 0x05, build := fun _ => .ccmEnc },
    { mnemonic := "CCM_DEC", mask := maskN, pattern := 0x06, build := fun _ => .ccmDec },
    { mnemonic := "CCMP_DERIVE", mask := maskW, pattern := 0x07,
      build := fun w => .ccmpDerive (fieldLegacy w) (fieldNfb w) },
    { mnemonic := "CCMP_ENC", mask := maskW, pattern := 0x08,
      build := fun w => .ccmpEnc (fieldLegacy w) (fieldNfb w) },
    { mnemonic := "CCMP_DEC", mask := maskW, pattern := 0x09,
      build := fun w => .ccmpDec (fieldLegacy w) (fieldNfb w) },
    { mnemonic := "CMAC_SUBKEYS", mask := maskN, pattern := 0x0A, build := fun _ => .cmacSubkeys },
    { mnemonic := "CMAC", mask := maskN, pattern := 0x0B, build := fun _ => .cmac } ]

/-- Whether the word matches the row (R93). -/
def OpRow.accepts (r : OpRow) (w : Word) : Bool := w &&& r.mask == r.pattern

/-- Decoding (R94): the command of the row the word matches, or the reason it is illegal (R97). -/
def decode (w : Word) : Except DecodeError Instr :=
  match opTable.find? (fun r => r.accepts w) with
  | some r => .ok (r.build w)
  | none =>
    if decide (fieldOpc w ≤ 0x0B) then .error (.reservedFieldNotZero (fieldOpc w))
    else .error (.unknownOpcode (fieldOpc w))

/-- A word of format N (R91). -/
def encodeN (opc : Word) : Word := opc

/-- A word of format P (R91, R100). -/
def encodeP (opc : Word) (pad : Nat) : Word := opc ||| (BitVec.ofNat 2 pad).setWidth 32 <<< 8

/-- A word of format W (R91, R100). -/
def encodeW (opc : Word) (legacy : Bool) (nfb : Byte) : Word :=
  opc ||| (BitVec.ofBool legacy).setWidth 32 <<< 8 ||| nfb.setWidth 32 <<< 16

/-- The command word of a well-formed instruction (R91, R93, R100). -/
def encode : Instr → Word
  | .nop => encodeN 0x00
  | .cbcEnc pad => encodeP 0x01 pad
  | .cbcDec pad => encodeP 0x02 pad
  | .ctrCrypt => encodeN 0x03
  | .ccmMac => encodeN 0x04
  | .ccmEnc => encodeN 0x05
  | .ccmDec => encodeN 0x06
  | .ccmpDerive legacy nfb => encodeW 0x07 legacy nfb
  | .ccmpEnc legacy nfb => encodeW 0x08 legacy nfb
  | .ccmpDec legacy nfb => encodeW 0x09 legacy nfb
  | .cmacSubkeys => encodeN 0x0A
  | .cmac => encodeN 0x0B

/-- The instruction read from a command word whose `nbits` low bits are those of `w` and whose other bits are zero
(every command word has 32 bits: R90). -/
def decodeTableWord (nbits w : Nat) : Option Instr :=
  match decode (BitVec.ofNat 32 (w % 2 ^ nbits)) with
  | .ok i => some i
  | .error _ => none

end Sys2Proof
end

