-- ==== Sys2Proof/Config.lean ====
section
/-! DEFINITION. What an implementation of BME fixes (00_scope R8 to R16) and the values the spec leaves open. The
hardware's own instance, at the spec's defaults, is `Sys2Proof.Machine.hw` (Machine/Params.lean). -/

namespace Sys2Proof

/-- The parameters of the model (00_scope section 3). The two AES functions are the AES port of R16 and R120. -/
structure Config where
  /-- `AESENC(k, b)` (R16, R120). -/
  aesEnc : List Byte → Block → Block
  /-- `AESDEC(k, b)` (R16, R120). -/
  aesDec : List Byte → Block → Block
  /-- `CCM_AUTH_LEN`, written `M` (R10). -/
  ccmAuthLen : Nat
  /-- `CCM_AAD_MAX_LEN` (R11). -/
  ccmAadMaxLen : Nat
  /-- `CMAC_AUTH_LEN` (R13). -/
  cmacAuthLen : Nat
  /-- `BUF_BYTES` (R15). -/
  bufBytes : Nat
  /-- `ID_VALUE` (R15, R22). -/
  idValue : Word
  /-- `CCMP_FC_MASK` (R14). -/
  fcMask : Half
  /-- `CCMP_FC_SUBTYPE_LOW` (R14). -/
  fcSubtypeLow : Half
  /-- `CCMP_SEQ_MASK` (R14). -/
  seqMask : Half
  /-- `CCMP_QOS_MASK` (R14). -/
  qosMask : Half
  /-- `CCMP_LEGACY_FC_MASK` (R14). -/
  legacyFcMask : Half
  /-- `CCMP_LEGACY_SEQ_MASK` (R14). -/
  legacySeqMask : Half
  /-- `CCMP_LEGACY_QOS_MASK` (R14). -/
  legacyQosMask : Half
  /-- `CCMP_NF_MGMT` (R14): a bit of the nonce first byte. -/
  nfMgmt : Byte

/-- The legal values of the parameters: `M` even and 4 to 16 (R10), `CCM_AAD_MAX_LEN` 30 to 65279 (R11),
`CMAC_AUTH_LEN` 1 to 16 (R13), `BUF_BYTES` 1 to 2^32 (R15). -/
abbrev Config.Legal (cfg : Config) : Prop :=
  (cfg.ccmAuthLen % 2 = 0 ∧ 4 ≤ cfg.ccmAuthLen ∧ cfg.ccmAuthLen ≤ 16) ∧
  (30 ≤ cfg.ccmAadMaxLen ∧ cfg.ccmAadMaxLen ≤ 65279) ∧
  (1 ≤ cfg.cmacAuthLen ∧ cfg.cmacAuthLen ≤ 16) ∧
  (1 ≤ cfg.bufBytes ∧ cfg.bufBytes ≤ 2 ^ 32)

/-- R121(b), the one property BME assumes of the AES port, as a named hypothesis: for every key of legal length the
two functions are inverse to each other. -/
def Config.AesInverse (cfg : Config) : Prop :=
  ∀ (k : List Byte) (b : Block), k.length = 16 ∨ k.length = 24 ∨ k.length = 32 →
    cfg.aesDec k (cfg.aesEnc k b) = b ∧ cfg.aesEnc k (cfg.aesDec k b) = b

/-- DESIGN CHOICE (log 5): this hardware's `AESENC`, an uninterpreted function of key and block (R16, R121(a), U13). -/
opaque Config.aesEncPort : List Byte → Block → Block

/-- DESIGN CHOICE (log 5): this hardware's `AESDEC`, an uninterpreted function of key and block (R16, R121(a), U13). -/
opaque Config.aesDecPort : List Byte → Block → Block

/-- DESIGN CHOICE (log 3): the unspecified, stable value that byte `addr` of `BUF` holds after hard reset number
`epoch` until something writes it (R61, U1, U16). -/
opaque Config.bufPowerOn : (epoch addr : Nat) → Byte

/-- DESIGN CHOICE (log 4): the value of the `k`-th read whose result the spec leaves unspecified (R67, R68, U2, U3). -/
opaque Config.unspecifiedRead : (k : Nat) → Word

end Sys2Proof
end

