-- ==== Sys2Proof/Machine/Params.lean ====
section
/-! DEFINITION. The constants the source fixes (00_scope R8, R12) and this hardware's configuration: the spec's
defaults (R10 to R15), with the AES port uninterpreted (R16, R121). -/

namespace Sys2Proof.Machine

/-- `CTR_MAX_LEN` = 16 × 65536 bytes (R8, R173). -/
def ctrMaxLen : Nat := 1048576

/-- `CCM_MSG_MAX_LEN` (R12). -/
def ccmMsgMaxLen : Nat := 65535

/-- This hardware: every parameter at the spec's default (R10, R11, R13 to R15; log 6), AES as the black box of R121
(log 5). -/
def hw : Config where
  aesEnc := Config.aesEncPort
  aesDec := Config.aesDecPort
  ccmAuthLen := 8
  ccmAadMaxLen := 65279
  cmacAuthLen := 16
  bufBytes := 2097152
  idValue := 0x424D4501
  fcMask := 0xC78F
  fcSubtypeLow := 0x0070
  seqMask := 0x000F
  qosMask := 0x000F
  legacyFcMask := 0xF7FF
  legacySeqMask := 0x0000
  legacyQosMask := 0xFFFF
  nfMgmt := 0x10

end Sys2Proof.Machine
end

