-- ==== Sys2Proof/Machine/State.lean ====
section
/-! DEFINITION. The state of BME as plain data (10_state R20 to R53, 20_memory R60), the machine after reset, and the
reasons a step could stop. -/

namespace Sys2Proof.Machine

/-- The error codes of R260, by name. Codes 9 to 15 are never produced (R260), so they have no constructor (log 17). -/
inductive ErrCode where
  /-- 0 `NONE`: the command completed without error. -/
  | none
  /-- 1 `INVALID_LENGTH`. -/
  | invalidLength
  /-- 2 `TOO_LONG`. -/
  | tooLong
  /-- 3 `AUTH_FAILED` (R196). -/
  | authFailed
  /-- 4 `MIC_FAILURE` (R230). -/
  | micFailure
  /-- 5 `UNSUPPORTED_PADDING` (R151). -/
  | unsupportedPadding
  /-- 6 `BAD_COMMAND` (R263). -/
  | badCommand
  /-- 7 `BUF_RANGE` (R266). -/
  | bufRange
  /-- 8 `BAD_KEYLEN` (R265). -/
  | badKeylen
  deriving DecidableEq, Repr

/-- The bytes of `BUF` written since the last hard reset, as (address, byte) pairs in one canonical form
(`Memory.wf`, Machine/Ops.lean). What an unlisted address holds is `Memory.read`'s answer there: no written value. -/
abbrev Memory := List Host.Cell

/-- One access of the host (R63): of `REG` at a byte offset (R64) or of `BUF` at a byte address (R68), with its width
in bytes. Every width, offset and address can be asked for; which are legal the rules decide. -/
inductive HostAccess where
  /-- A read of `REG`. -/
  | regRead (width offset : Nat)
  /-- A write of `REG`. -/
  | regWrite (width offset : Nat) (value : Word)
  /-- A read of `BUF` through the buffer port. -/
  | bufRead (width addr : Nat)
  /-- A write of `BUF` through the buffer port; the bytes are the low `width` bytes of `value`. -/
  | bufWrite (width addr : Nat) (value : Word)
  deriving DecidableEq, Repr

/-- What comes to the machine from outside, in the order in which it takes effect (R63, R76, R274; log 1). -/
inductive Input where
  /-- The host's next access. -/
  | access (a : HostAccess)
  /-- The engine's completion step is ordered here (R274). -/
  | engineTurn
  /-- The platform asserts and releases the reset input (R290). -/
  | hardReset
  deriving DecidableEq, Repr

/-- The state of BME. The last four fields are the model's own (INVENTORY.md, State). -/
structure State where
  /-- `CTRL.IE` (R23). -/
  ie : Bool
  /-- `STATUS.BUSY` (R24): a command is in flight. -/
  busy : Bool
  /-- `STATUS.DONE` (R24). -/
  done : Bool
  /-- `STATUS.ERR` (R24). -/
  err : Bool
  /-- `STATUS.ACCERR` (R24, R271), sticky. -/
  accErr : Bool
  /-- `ERRCODE[3:0]` (R25). -/
  errcode : ErrCode
  /-- `CMD` (R26): the last accepted command word. -/
  cmd : Word
  /-- `KEYCTL.KEYSEL` (R27). -/
  keysel : BitVec 2
  /-- `SRC` (R28). -/
  src : Word
  /-- `DST` (R29). -/
  dst : Word
  /-- `LEN` (R30). -/
  len : Word
  /-- `AADPTR` (R31). -/
  aadPtr : Word
  /-- `AADLEN` (R32). -/
  aadLen : Word
  /-- `OUTLEN` (R33). -/
  outLen : Word
  /-- `DHDRLEN` (R34). -/
  dHdrLen : Word
  /-- `DAADLEN` (R35). -/
  dAadLen : Word
  /-- `KEY[0..31]` (R36). -/
  key : Vector Byte 32
  /-- `IVCTR[0..15]` (R37). -/
  ivctr : Block
  /-- `NONCE[0..12]` (R38). -/
  nonce : Vector Byte 13
  /-- `TAG[0..15]` (R39). -/
  tag : Block
  /-- `K1[0..15]` (R40). -/
  k1 : Block
  /-- `K2[0..15]` (R41). -/
  k2 : Block
  /-- `DNONCE[0..12]` (R42). -/
  dnonce : Vector Byte 13
  /-- `DAAD[0..29]` (R43). -/
  daad : Vector Byte 30
  /-- `BUF` (R60, R61). -/
  buf : Memory
  /-- Model's own (log 3): how many hard resets have happened; selects the unspecified contents of `BUF`. -/
  bufEpoch : Nat
  /-- Model's own (log 4): how many unspecified reads have been answered; selects the next free value. -/
  draws : Nat
  /-- Model's own (log 1): what is still to come from outside, in order. -/
  inputs : List Input
  /-- Model's own (log 2): the values answered to the host's reads so far, newest first. -/
  responses : List Word
  deriving DecidableEq, Repr

/-- Why the machine would stop with a fault. There is no constructor: nothing in BME is stuck (R130, and the last line
of part 1 of 93_implementation_defined.md), every accepted command completes and every host access is answered (log 16). -/
inductive Fault where
  deriving DecidableEq, Repr

/-- Why a step would be refused. -/
inductive Refusal where
  /-- Raised by `exec` for an instruction that has no meaning yet; none is left, so nothing raises it. Safe. -/
  | notModelled (mnemonic : String)
  deriving DecidableEq, Repr

/-- The machine right after hard reset (R53, R290): every register zero, no command in flight, nothing written in
`BUF`. The last four fields start as log 14 says (DESIGN CHOICE). -/
def State.reset : State where
  ie := false
  busy := false
  done := false
  err := false
  accErr := false
  errcode := .none
  cmd := 0
  keysel := 0
  src := 0
  dst := 0
  len := 0
  aadPtr := 0
  aadLen := 0
  outLen := 0
  dHdrLen := 0
  dAadLen := 0
  key := Vector.replicate 32 0
  ivctr := Vector.replicate 16 0
  nonce := Vector.replicate 13 0
  tag := Vector.replicate 16 0
  k1 := Vector.replicate 16 0
  k2 := Vector.replicate 16 0
  dnonce := Vector.replicate 13 0
  daad := Vector.replicate 30 0
  buf := []
  bufEpoch := 0
  draws := 0
  inputs := []
  responses := []

end Sys2Proof.Machine
end

