-- ==== Sys2Proof/Machine/Ops.lean ====
section
/-! DEFINITION. The named operations over `BUF` (20_memory R61, R62), the acceptance of a command (40 R131), its
completion without and with an error (60 R267, R268), and the two resets (70 R290, R291). -/

namespace Sys2Proof.Machine

/-! ### Memory -/

/-- The value written to `a` since the last hard reset, if any. -/
def Memory.read : Memory → Nat → Option Byte
  | [], _ => none
  | (b, v) :: rest, a => if b = a then some v else Memory.read rest a

/-- Write `v` at `a`, keeping the addresses strictly rising. -/
def Memory.write : Memory → Nat → Byte → Memory
  | [], a, v => [(a, v)]
  | (b, w) :: rest, a, v =>
    if a < b then (a, v) :: (b, w) :: rest
    else if a = b then (a, v) :: rest
    else (b, w) :: Memory.write rest a v

/-- Write the bytes `vs` at `a`, `a + 1`, … (R62). -/
def Memory.writeBytes : Memory → Nat → List Byte → Memory
  | m, _, [] => m
  | m, a, v :: vs => Memory.writeBytes (Memory.write m a v) (a + 1) vs

/-- Every address of `m` is above `lo`, and they rise strictly. -/
def Memory.risingFrom : Nat → Memory → Bool
  | _, [] => true
  | lo, (a, _) :: rest => decide (lo < a) && Memory.risingFrom a rest

/-- The canonical form: addresses strictly rising. (An unlisted address reads as no value, which no entry equals.) -/
def Memory.wf : Memory → Bool
  | [] => true
  | (a, _) :: rest => Memory.risingFrom a rest

/-- `BUF[a]`: the byte last written there, and before any write the unspecified but stable value of R61, a free value
(log 3). -/
def State.byteAt (s : State) (a : Nat) : Byte := (s.buf.read a).getD (Config.bufPowerOn s.bufEpoch a)

/-- `MemRead(addr, n)` (R62). -/
def memRead (s : State) (addr n : Nat) : List Byte := (List.range n).map (fun i => s.byteAt (addr + i))

/-- `MemWrite(addr, len(v), v)` (R62). -/
def memWrite (s : State) (addr : Nat) (v : List Byte) : State := { s with buf := s.buf.writeBytes addr v }

/-! ### The life cycle of a command -/

/-- Acceptance of the command word `w` (R131): the host has written it to `CMD` while `BUSY` was 0. -/
def acceptCommand (w : Word) (s : State) : State :=
  { s with cmd := w, busy := true, done := false, err := false, errcode := .none }

/-- `complete` (R267): the command ends without error. -/
def complete (s : State) : State :=
  { s with errcode := .none, err := false, busy := false, done := true }

/-- `raise E` (R268): the command ends with error `E`, BME's counterpart of taking an exception. Nothing is saved and
control goes nowhere (R275); what corresponds to a return is the host's write to `STATUS` (`writeStatus`) or the next
`acceptCommand`. -/
def raiseError (e : ErrCode) (s : State) : State :=
  { s with errcode := e, err := true, busy := false, done := true }

/-- One precondition check (R264): whether it fails, and the error it then raises. -/
structure Check where
  fails : Bool
  error : ErrCode
  deriving DecidableEq, Repr

/-- The error of the first failing check (R264). -/
def firstError : List Check → Option ErrCode
  | [] => none
  | c :: cs => if c.fails then some c.error else firstError cs

/-- The template of a command's completion (R132, R133): the checks in order; the first that fails raises its error
and nothing else happens; otherwise the command has its effect. -/
def runChecked (checks : List Check) (effect : State → State) (s : State) : State :=
  match firstError checks with
  | some e => raiseError e s
  | none => effect s

/-! ### Reset -/

/-- Every register at its reset value (R53); `BUF` and the model's own fields as they are. -/
def resetRegisters (s : State) : State :=
  { State.reset with
    buf := s.buf, bufEpoch := s.bufEpoch, draws := s.draws, inputs := s.inputs, responses := s.responses }

/-- Soft reset (R291): every register at its reset value, `BUF` unchanged. -/
def softReset (s : State) : State := resetRegisters s

/-- Hard reset (R290): every register at its reset value, a command in flight abandoned, every byte of `BUF`
unspecified anew (R61, U16; log 3). -/
def hardReset (s : State) : State := { resetRegisters s with buf := [], bufEpoch := s.bufEpoch + 1 }

end Sys2Proof.Machine
end

