-- ==== Sys2Proof/Machine/Basic.lean ====
section
/-! DEFINITION. `NOP` (40_block_primitives R135). -/

namespace Sys2Proof.Machine

/-- `NOP` (R135): no checks, no effect but the completion. -/
def execNop (s : State) : Host.Outcome State Fault Refusal := .next (complete s)

end Sys2Proof.Machine
end

