-- ==== Sys2Proof/Machine/Operands.lean ====
section
/-! DEFINITION. The operands of commands: the key (40 R122), the lengths and addresses of the operand registers, the
regions of `BUF` and their range and overlap checks (20_memory R70, R71), and how results enter their registers. -/

namespace Sys2Proof.Machine

/-- The key length that `KEYSEL` selects (R27, R122); `KEYSEL = 3` selects none. -/
def keyLength (keysel : BitVec 2) : Option Nat :=
  if keysel = 0 then some 16
  else if keysel = 1 then some 24
  else if keysel = 2 then some 32
  else none

/-- `KEYBYTES()` (R122). For `KEYSEL = 3` it is undefined and never called (R265): the empty string stands there (log 13). -/
def keyBytes (s : State) : List Byte := s.key.toList.take ((keyLength s.keysel).getD 0)

/-- The check that key-using commands make (R265). -/
def checkKey (s : State) : Check := { fails := (keyLength s.keysel).isNone, error := .badKeylen }

/-- A region of `BUF`: start address and length, unbounded integers (R70). -/
structure Region where
  start : Nat
  len : Nat
  deriving DecidableEq, Repr

/-- The primary input region `(SRC, LEN)` (R28, R30, R71). -/
def srcRegion (s : State) : Region := { start := s.src.toNat, len := s.len.toNat }

/-- The AAD region `(AADPTR, AADLEN)` (R31, R32). -/
def aadRegion (s : State) : Region := { start := s.aadPtr.toNat, len := s.aadLen.toNat }

/-- The range check (R70): an empty region is legal wherever it starts. -/
def Region.inRange (cfg : Config) (r : Region) : Bool :=
  decide (r.len = 0) || decide (r.start + r.len ≤ cfg.bufBytes)

/-- Two regions overlap if both are non-empty and share a byte address (R71). -/
def Region.overlaps (r q : Region) : Bool :=
  decide (0 < r.len) && decide (0 < q.len) &&
    decide (r.start < q.start + q.len) && decide (q.start < r.start + r.len)

/-- The overlap check of an output `o` against the AAD `i1` (R71(a)) and the primary input `i0` (R71(b)): disjoint
from both, or starting where the primary input starts. -/
def Region.outputLegal (o i0 : Region) (i1 : Option Region) : Bool :=
  !(i1.any fun r => o.overlaps r) && (!o.overlaps i0 || decide (o.start = i0.start))

/-- All regions of a command are legal (R70, R71): primary input, AAD region if it has one, output if it has one. -/
def regionsLegal (cfg : Config) (i0 : Region) (i1 o : Option Region) : Bool :=
  i0.inRange cfg && i1.all (fun r => r.inRange cfg) && o.all (fun r => r.inRange cfg) &&
    o.all (fun r => r.outputLegal i0 i1)

/-- The region check of a command (R266). -/
def checkRegions (cfg : Config) (i0 : Region) (i1 o : Option Region) : Check :=
  { fails := !regionsLegal cfg i0 i1 o, error := .bufRange }

/-- The primary input bytes, `MemRead(SRC, LEN)`. -/
def srcBytes (s : State) : List Byte := memRead s s.src.toNat s.len.toNat

/-- The AAD bytes, `MemRead(AADPTR, AADLEN)`. -/
def aadBytes (s : State) : List Byte := memRead s s.aadPtr.toNat s.aadLen.toNat

/-- A length as a 32-bit result register holds it (R33 to R35; log 12). -/
def lengthWord (n : Nat) : Word := BitVec.ofNat 32 n

end Sys2Proof.Machine
end

