-- ==== Sys2Proof/Machine/Primitives.lean ====
section
/-! DEFINITION. Byte strings, byte order and the block-mode primitives (00_scope R17; 20_memory R73; 40_block_primitives
R125 to R128). None of them is a command (R93). -/

namespace Sys2Proof.Machine

/-- The `n`-byte register that holds the byte string `l` left-aligned, zero-filled (the `‖ 0^(n - len)` of the command
rules); bytes beyond `n` are dropped. -/
def ofBytes (n : Nat) (l : List Byte) : Vector Byte n :=
  ⟨((l ++ List.replicate n 0).take n).toArray, by simp⟩

/-- The substring `s[i..j)` (R17). -/
def slice (s : List Byte) (i j : Nat) : List Byte := (s.drop i).take (j - i)

/-- Bytewise exclusive-or, of the bytes that both strings have (R17, R170: "only the available bytes"). -/
def xorBytes (a b : List Byte) : List Byte := List.zipWith (· ^^^ ·) a b

/-- `xor_block` (R125). -/
def xorBlock (a b : Block) : Block := ofBytes 16 (xorBytes a.toList b.toList)

/-- `be16(n)` for `n < 65536` (R17). -/
def be16 (n : Nat) : List Byte := [BitVec.ofNat 8 (n / 256), BitVec.ofNat 8 n]

/-- `le16(s)` of the first two bytes of `s` (R17): the first byte is the low one. -/
def le16 (s : List Byte) : Half := s.getD 1 0 ++ s.getD 0 0

/-- The two bytes of a 16-bit value, low byte first (R214). -/
def halfBytes (h : Half) : List Byte := [h.extractLsb' 0 8, h.extractLsb' 8 8]

/-- Byte `j` of a 32-bit value: bits `8j+7` down to `8j` (R20, R68). -/
def wordByte (w : Word) (j : Nat) : Byte := w.extractLsb' (8 * j) 8

/-- The 32-bit value whose byte `j` is `s[j]`, missing bytes zero (R20, R68): little-endian bus lanes. -/
def leWord (s : List Byte) : Word := s.getD 3 0 ++ s.getD 2 0 ++ s.getD 1 0 ++ s.getD 0 0

/-- The big-endian value of a byte string (R73(b), R127). -/
def beValue (s : List Byte) : Nat := s.foldl (fun acc b => acc * 256 + b.toNat) 0

/-- The `n`-byte big-endian string of `v` modulo `256^n` (R127). -/
def beBytes (n v : Nat) : List Byte := (List.range n).map (fun i => BitVec.ofNat 8 (v / 256 ^ (n - 1 - i)))

/-- `inc16` (R126): the low two bytes, big-endian, plus one modulo 65536; the carry out of byte 14 is dropped. -/
def inc16 (c : Block) : Block :=
  let low := beValue (slice c.toList 14 16)
  ofBytes 16 (slice c.toList 0 14 ++ be16 ((low + 1) % 65536))

/-- `dbl` (R127): the block as a 128-bit big-endian integer times two, modulo 2^128, then 0x87 into the last byte iff
the most significant bit of the input was 1. -/
def dbl (x : Block) : Block :=
  let y := beBytes 16 ((2 * beValue x.toList) % 2 ^ 128)
  if (x.toList.getD 0 0).getLsbD 7 then ofBytes 16 (slice y 0 15 ++ [y.getD 15 0 ^^^ 0x87])
  else ofBytes 16 y

/-- The strings of 16 bytes, the last perhaps shorter, that `s` splits into, at most `fuel` of them. -/
def chunksFrom : (fuel : Nat) → (s : List Byte) → List (List Byte)
  | 0, _ => []
  | fuel + 1, s => if s.isEmpty then [] else s.take 16 :: chunksFrom fuel (s.drop 16)

/-- `blocks(s)` (R128). A string has no more chunks than bytes. -/
def blocks (s : List Byte) : List (List Byte) := chunksFrom s.length s

/-- `zpad(s)` (R128): `s` zero-padded to a block boundary. -/
def zpad (s : List Byte) : List Byte := s ++ List.replicate ((16 - s.length % 16) % 16) 0

/-- The blocks of a string whose length is a multiple of 16 (R150, R183, R184). -/
def toBlocks (s : List Byte) : List Block := (blocks s).map (ofBytes 16)

/-- The concatenation of blocks (R150). -/
def joinBlocks (bs : List Block) : List Byte := (bs.map Vector.toList).flatten

end Sys2Proof.Machine
end

