-- ==== Sys2Proof/Machine/Cbc.lean ====
section
/-! DEFINITION. The CBC engine: `CBC_ENC` and `CBC_DEC` (41_cbc R150 to R158). -/

namespace Sys2Proof.Machine

/-- `cbc_enc_chain` (R150) with the key applied: each block is encrypted after XOR with the IV or the previous
ciphertext block. -/
def cbcEncChain (enc : Block → Block) (iv : Block) : List Block → List Block
  | [] => []
  | x :: xs => enc (xorBlock x iv) :: cbcEncChain enc (enc (xorBlock x iv)) xs

/-- `cbc_dec_chain` (R150) with the key applied: the chaining value is the previous ciphertext block, an input. -/
def cbcDecChain (dec : Block → Block) (iv : Block) : List Block → List Block
  | [] => []
  | c :: cs => xorBlock (dec c) iv :: cbcDecChain dec c cs

/-- The pad length `p = 16 - n % 16` (R153), 1 to 16. -/
def padLength (n : Nat) : Nat := 16 - n % 16

/-- `pad(P)` (R153): `p` bytes of value `p`, always appended. -/
def padLenPad (m : List Byte) : List Byte :=
  m ++ List.replicate (padLength m.length) (BitVec.ofNat 8 (padLength m.length))

/-- The string that `CBC_ENC` chains: the plaintext (`PAD = 0`) or the padded plaintext (`PAD = 1`) (R152). -/
def cbcPadded (pad : Nat) (m : List Byte) : List Byte := if pad = 0 then m else padLenPad m

/-- The length of the ciphertext (R152 check 5, R154). -/
def cbcEncOutLen (pad n : Nat) : Nat := if pad = 0 then n else n + padLength n

/-- The ciphertext of `CBC_ENC` (R152). -/
def cbcEncBytes (enc : Block → Block) (iv : Block) (pad : Nat) (m : List Byte) : List Byte :=
  joinBlocks (cbcEncChain enc iv (toBlocks (cbcPadded pad m)))

/-- The decrypted bytes of `CBC_DEC`, padding included (R156). -/
def cbcDecBytes (dec : Block → Block) (iv : Block) (c : List Byte) : List Byte :=
  joinBlocks (cbcDecChain dec iv (toBlocks c))

/-- The padding-policy check (R151): selectors 2 and 3 are unknown. -/
def checkPadding (pad : Nat) : Check := { fails := decide (2 ≤ pad), error := .unsupportedPadding }

/-- A CBC input length that is not a positive multiple of 16 (R152 check 4, R156 check 4). -/
def notWholeBlocks (n : Nat) : Bool := decide (n = 0) || decide (n % 16 ≠ 0)

/-- The checks of `CBC_ENC` after decoding, in order (R152). -/
def cbcEncChecks (cfg : Config) (pad : Nat) (s : State) : List Check :=
  [ checkPadding pad,
    checkKey s,
    { fails := decide (pad = 0) && notWholeBlocks s.len.toNat, error := .invalidLength },
    checkRegions cfg (srcRegion s) none (some { start := s.dst.toNat, len := cbcEncOutLen pad s.len.toNat }) ]

/-- The effect of `CBC_ENC` once its checks have passed (R152). -/
def cbcEncEffect (cfg : Config) (pad : Nat) (s : State) : State :=
  let c := cbcEncBytes (cfg.aesEnc (keyBytes s)) s.ivctr pad (srcBytes s)
  complete { memWrite s s.dst.toNat c with outLen := lengthWord c.length }

/-- `CBC_ENC` on any configuration (R152). -/
def cbcEnc (cfg : Config) (pad : Nat) (s : State) : State :=
  runChecked (cbcEncChecks cfg pad s) (cbcEncEffect cfg pad) s

/-- The decrypted bytes that `CBC_DEC` computes in state `s` (R156). -/
def cbcDecResult (cfg : Config) (s : State) : List Byte :=
  cbcDecBytes (cfg.aesDec (keyBytes s)) s.ivctr (srcBytes s)

/-- How many bytes `CBC_DEC` truncates: none for `NoPadding`, the value of the last plaintext byte for `PadLen` (R156). -/
def cbcDecPad (pad : Nat) (x : List Byte) : Nat := if pad = 0 then 0 else (x.getD (x.length - 1) 0).toNat

/-- The checks of `CBC_DEC` after decoding, in order (R156); the last needs the data. -/
def cbcDecChecks (cfg : Config) (pad : Nat) (s : State) : List Check :=
  [ checkPadding pad,
    checkKey s,
    { fails := notWholeBlocks s.len.toNat, error := .invalidLength },
    checkRegions cfg (srcRegion s) none (some { start := s.dst.toNat, len := s.len.toNat }),
    { fails := decide (s.len.toNat < cbcDecPad pad (cbcDecResult cfg s)), error := .invalidLength } ]

/-- The effect of `CBC_DEC` once its checks have passed (R156): all `LEN` bytes are written, `OUTLEN` truncates. -/
def cbcDecEffect (cfg : Config) (pad : Nat) (s : State) : State :=
  let x := cbcDecResult cfg s
  complete { memWrite s s.dst.toNat x with outLen := lengthWord (s.len.toNat - cbcDecPad pad x) }

/-- `CBC_DEC` on any configuration (R156). -/
def cbcDec (cfg : Config) (pad : Nat) (s : State) : State :=
  runChecked (cbcDecChecks cfg pad s) (cbcDecEffect cfg pad) s

/-- `CBC_ENC` (R152). -/
def execCbcEnc (pad : Nat) (s : State) : Host.Outcome State Fault Refusal := .next (cbcEnc hw pad s)

/-- `CBC_DEC` (R156). -/
def execCbcDec (pad : Nat) (s : State) : Host.Outcome State Fault Refusal := .next (cbcDec hw pad s)

end Sys2Proof.Machine
end

