-- ==== Sys2Proof/Machine/Ctr.lean ====
section
/-! DEFINITION. The CTR engine: `ctr_stream` and `CTR_CRYPT` (42_ctr R170 to R173). -/

namespace Sys2Proof.Machine

/-- The chunks of the data, each XORed with the available bytes of its keystream block, the counter incremented after
each (R170). -/
def ctrChunks (enc : Block → Block) (ctr : Block) : List (List Byte) → List (List Byte)
  | [] => []
  | d :: ds => xorBytes d (enc ctr).toList :: ctrChunks enc (inc16 ctr) ds

/-- `ctr_stream` (R170) with the key applied. -/
def ctrStream (enc : Block → Block) (c0 : Block) (d : List Byte) : List Byte :=
  (ctrChunks enc c0 (blocks d)).flatten

/-- The checks of `CTR_CRYPT` after decoding, in order (R171). -/
def ctrCryptChecks (cfg : Config) (s : State) : List Check :=
  [ checkKey s,
    { fails := decide (ctrMaxLen < s.len.toNat), error := .tooLong },
    checkRegions cfg (srcRegion s) none (some { start := s.dst.toNat, len := s.len.toNat }) ]

/-- The effect of `CTR_CRYPT` once its checks have passed (R171); `IVCTR` keeps the initial counter. -/
def ctrCryptEffect (cfg : Config) (s : State) : State :=
  complete { memWrite s s.dst.toNat (ctrStream (cfg.aesEnc (keyBytes s)) s.ivctr (srcBytes s)) with outLen := s.len }

/-- `CTR_CRYPT` on any configuration (R171). -/
def ctrCrypt (cfg : Config) (s : State) : State := runChecked (ctrCryptChecks cfg s) (ctrCryptEffect cfg) s

/-- `CTR_CRYPT` (R171). -/
def execCtrCrypt (s : State) : Host.Outcome State Fault Refusal := .next (ctrCrypt hw s)

end Sys2Proof.Machine
end

