-- ==== Sys2Proof/Machine/Ccm.lean ====
section
/-! DEFINITION. The CCM engine: `CCM_MAC`, `CCM_ENC`, `CCM_DEC` and the functions the CCMP commands reuse (43_ccm R180 to
R197). -/

namespace Sys2Proof.Machine

/-- `CCM_AUTH_FLAGS = 4·(M - 2) + 1` (R180). -/
def ccmAuthFlags (cfg : Config) : Byte := BitVec.ofNat 8 (4 * (cfg.ccmAuthLen - 2) + 1)

/-- `CCM_AAD_FLAG` (R180). -/
def ccmAadFlag : Byte := 0x40

/-- `CCM_CRYPT_FLAGS` (R180). -/
def ccmCryptFlags : Byte := 0x01

/-- `B0(N, alen, mlen)` (R182). -/
def ccmB0 (cfg : Config) (n : Vector Byte 13) (alen mlen : Nat) : Block :=
  let flags := ccmAuthFlags cfg ||| (if 0 < alen then ccmAadFlag else 0)
  ofBytes 16 ([flags] ++ n.toList ++ be16 mlen)

/-- `aad_blocks(A)` (R183): none for the empty AAD. -/
def aadBlocks (a : List Byte) : List Block := if a = [] then [] else toBlocks (zpad (be16 a.length ++ a))

/-- `msg_blocks(m)` (R184). -/
def msgBlocks (m : List Byte) : List Block := toBlocks (zpad m)

/-- The counter block `A(N, i)` (R188). -/
def ccmCounter (n : Vector Byte 13) (i : Nat) : Block := ofBytes 16 ([ccmCryptFlags] ++ n.toList ++ be16 i)

/-- The private CBC-MAC: from chaining value `x`, encrypt after XOR with each block in order (R186, R244). -/
def cbcMac (enc : Block → Block) (x : Block) (bs : List Block) : Block :=
  bs.foldl (fun c b => enc (xorBlock c b)) x

/-- `ccm_mac` (R186) with the key applied: the first `M` bytes of the final chaining value. -/
def ccmMacTag (cfg : Config) (enc : Block → Block) (n : Vector Byte 13) (a m : List Byte) : List Byte :=
  (cbcMac enc (enc (ccmB0 cfg n a.length m.length)) (aadBlocks a ++ msgBlocks m)).toList.take cfg.ccmAuthLen

/-- The first `M` bytes of `S0 = AESENC(k, A(N, 0))` (R189). -/
def ccmTagStream (cfg : Config) (enc : Block → Block) (n : Vector Byte 13) : List Byte :=
  (enc (ccmCounter n 0)).toList.take cfg.ccmAuthLen

/-- `ccm_encrypt` (R189): ciphertext and encrypted tag. -/
def ccmEncrypt (cfg : Config) (enc : Block → Block) (n : Vector Byte 13) (a p : List Byte) : List Byte × List Byte :=
  (ctrStream enc (ccmCounter n 1) p, xorBytes (ccmMacTag cfg enc n a p) (ccmTagStream cfg enc n))

/-- `ccm_decrypt` (R193): the plaintext, and whether the tags are equal (R194; equality, C4). -/
def ccmDecrypt (cfg : Config) (enc : Block → Block) (n : Vector Byte 13) (a cu : List Byte) : List Byte × Bool :=
  let c := cu.take (cu.length - cfg.ccmAuthLen)
  let u := cu.drop (cu.length - cfg.ccmAuthLen)
  let p := ctrStream enc (ccmCounter n 1) c
  (p, decide (ccmMacTag cfg enc n a p = xorBytes u (ccmTagStream cfg enc n)))

/-- The checks common to the CCM commands after decoding, in order (R181): `short` is check 3b, `mlen` the message
length of check 4, `out` the output region of check 5. -/
def ccmChecks (cfg : Config) (s : State) (short : Bool) (mlen : Nat) (out : Option Region) : List Check :=
  [ checkKey s,
    { fails := decide (cfg.ccmAadMaxLen < s.aadLen.toNat) || short, error := .invalidLength },
    { fails := decide (ccmMsgMaxLen < mlen), error := .tooLong },
    checkRegions cfg (srcRegion s) (some (aadRegion s)) out ]

/-- The checks of `CCM_MAC` (R190): no output region. -/
def ccmMacChecks (cfg : Config) (s : State) : List Check := ccmChecks cfg s false s.len.toNat none

/-- The effect of `CCM_MAC` once its checks have passed (R190): the unencrypted tag, `OUTLEN` 0. -/
def ccmMacEffect (cfg : Config) (s : State) : State :=
  complete { s with
    tag := ofBytes 16 (ccmMacTag cfg (cfg.aesEnc (keyBytes s)) s.nonce (aadBytes s) (srcBytes s)), outLen := 0 }

/-- `CCM_MAC` on any configuration (R190). -/
def ccmMac (cfg : Config) (s : State) : State := runChecked (ccmMacChecks cfg s) (ccmMacEffect cfg) s

/-- The output region of `CCM_ENC` (R181 check 5). -/
def ccmEncRegion (cfg : Config) (s : State) : Region :=
  { start := s.dst.toNat, len := s.len.toNat + cfg.ccmAuthLen }

/-- The checks of `CCM_ENC` (R192). -/
def ccmEncChecks (cfg : Config) (s : State) : List Check :=
  ccmChecks cfg s false s.len.toNat (some (ccmEncRegion cfg s))

/-- The effect of `CCM_ENC` once its checks have passed (R192): ciphertext then tag at `DST`. -/
def ccmEncEffect (cfg : Config) (s : State) : State :=
  let cu := ccmEncrypt cfg (cfg.aesEnc (keyBytes s)) s.nonce (aadBytes s) (srcBytes s)
  complete { memWrite s s.dst.toNat (cu.1 ++ cu.2) with
    tag := ofBytes 16 cu.2, outLen := lengthWord (s.len.toNat + cfg.ccmAuthLen) }

/-- `CCM_ENC` on any configuration (R192). -/
def ccmEnc (cfg : Config) (s : State) : State := runChecked (ccmEncChecks cfg s) (ccmEncEffect cfg) s

/-- The output region of `CCM_DEC` (R181 check 5). -/
def ccmDecRegion (cfg : Config) (s : State) : Region :=
  { start := s.dst.toNat, len := s.len.toNat - cfg.ccmAuthLen }

/-- The checks of `CCM_DEC` (R195): `LEN` counts ciphertext and tag; an input shorter than a tag is check 3b. -/
def ccmDecChecks (cfg : Config) (s : State) : List Check :=
  ccmChecks cfg s (decide (s.len.toNat < cfg.ccmAuthLen)) (s.len.toNat - cfg.ccmAuthLen)
    (some (ccmDecRegion cfg s))

/-- The effect of `CCM_DEC` once its checks have passed (R195, R196): the plaintext is written and `TAG` cleared
whether the tags match or not; a mismatch zeroes `OUTLEN` and raises `AUTH_FAILED` (the `defined` reading; log 7). -/
def ccmDecEffect (cfg : Config) (s : State) : State :=
  let r := ccmDecrypt cfg (cfg.aesEnc (keyBytes s)) s.nonce (aadBytes s) (srcBytes s)
  let written := { memWrite s s.dst.toNat r.1 with tag := ofBytes 16 [] }
  if r.2 then complete { written with outLen := lengthWord (s.len.toNat - cfg.ccmAuthLen) }
  else raiseError .authFailed { written with outLen := 0 }

/-- `CCM_DEC` on any configuration (R195). -/
def ccmDec (cfg : Config) (s : State) : State := runChecked (ccmDecChecks cfg s) (ccmDecEffect cfg) s

/-- `CCM_MAC` (R190). -/
def execCcmMac (s : State) : Host.Outcome State Fault Refusal := .next (ccmMac hw s)

/-- `CCM_ENC` (R192). -/
def execCcmEnc (s : State) : Host.Outcome State Fault Refusal := .next (ccmEnc hw s)

/-- `CCM_DEC` (R195). -/
def execCcmDec (s : State) : Host.Outcome State Fault Refusal := .next (ccmDec hw s)

end Sys2Proof.Machine
end

