-- ==== Sys2Proof/Machine/Ccmp.lean ====
section
/-! DEFINITION. The CCMP derivator and the commands `CCMP_DERIVE`, `CCMP_ENC`, `CCMP_DEC` (44_ccmp R210 to R231). -/

namespace Sys2Proof.Machine

/-- Frame Control, the first two header bytes, little-endian (R211). -/
def frameControl (h : List Byte) : Half := le16 h

/-- `a4` (R212): ToDS and FromDS both set. -/
def isFourAddress (fc : Half) : Bool := decide (fc &&& 0x0300 = 0x0300)

/-- `qos` (R212): type data and the QoS bit of the subtype. -/
def isQosData (fc : Half) : Bool := decide (fc.extractLsb' 2 2 = 2) && fc.getLsbD 7

/-- The bytes that the optional fields add: 6 for Address 4, 2 for QoS Control (R215). -/
def optionalLen (fc : Half) : Nat := (if isFourAddress fc then 6 else 0) + (if isQosData fc then 2 else 0)

/-- `header_len` (R215). -/
def headerLen (fc : Half) : Nat := 32 + optionalLen fc

/-- `aad_len` (R215). -/
def aadLength (fc : Half) : Nat := 22 + optionalLen fc

/-- Sequence Control (R211). -/
def sequenceControl (h : List Byte) : Half := le16 (slice h 22 24)

/-- The offset of QoS Control: after Address 4 if there is one (R211). -/
def qosOffset (fc : Half) : Nat := 24 + (if isFourAddress fc then 6 else 0)

/-- QoS Control, present in QoS data frames (R211). -/
def qosControl (h : List Byte) : Half := le16 (slice h (qosOffset (frameControl h)) (qosOffset (frameControl h) + 2))

/-- The CCMP IV field, the last 8 bytes of the header (R211). -/
def ccmpIv (h : List Byte) : List Byte :=
  slice h (24 + optionalLen (frameControl h)) (32 + optionalLen (frameControl h))

/-- `mgmt` (R216): the nonce first byte marks a management frame to which MFP applies. -/
def isMgmt (cfg : Config) (nfb : Byte) : Bool := decide (nfb &&& cfg.nfMgmt ≠ 0)

/-- The masked Frame Control (R216). -/
def maskedFc (cfg : Config) (legacy : Bool) (nfb : Byte) (fc : Half) : Half :=
  if legacy then fc &&& cfg.legacyFcMask
  else if isMgmt cfg nfb then fc &&& (cfg.fcMask ||| cfg.fcSubtypeLow)
  else fc &&& cfg.fcMask

/-- The masked Sequence Control (R216). -/
def maskedSc (cfg : Config) (legacy : Bool) (sc : Half) : Half :=
  sc &&& (if legacy then cfg.legacySeqMask else cfg.seqMask)

/-- The masked QoS Control (R216). -/
def maskedQc (cfg : Config) (legacy : Bool) (qc : Half) : Half :=
  qc &&& (if legacy then cfg.legacyQosMask else cfg.qosMask)

/-- The derived nonce (R213): nonce first byte, Address 2, and the packet number, PN5 first. -/
def derivedNonce (nfb : Byte) (h : List Byte) : Vector Byte 13 :=
  let iv := ccmpIv h
  ofBytes 13 ([nfb] ++ slice h 10 16 ++
    [iv.getD 7 0, iv.getD 6 0, iv.getD 5 0, iv.getD 4 0, iv.getD 1 0, iv.getD 0 0])

/-- The derived AAD (R214). -/
def derivedAad (cfg : Config) (legacy : Bool) (nfb : Byte) (h : List Byte) : List Byte :=
  let fc := frameControl h
  halfBytes (maskedFc cfg legacy nfb fc) ++ slice h 4 10 ++ slice h 10 16 ++ slice h 16 22 ++
    halfBytes (maskedSc cfg legacy (sequenceControl h)) ++
    (if isFourAddress fc then slice h 24 30 else []) ++
    (if isQosData fc then halfBytes (maskedQc cfg legacy (qosControl h)) else [])

/-- What `ccmp_derive` returns (R218). -/
structure Derived where
  nonce : Vector Byte 13
  aad : List Byte
  headerLen : Nat
  aadLen : Nat
  deriving DecidableEq, Repr

/-- `ccmp_derive(H, LEGACY, NFB)` (R218). -/
def ccmpDerivation (cfg : Config) (legacy : Bool) (nfb : Byte) (h : List Byte) : Derived where
  nonce := derivedNonce nfb h
  aad := derivedAad cfg legacy nfb h
  headerLen := headerLen (frameControl h)
  aadLen := aadLength (frameControl h)

/-- The header length of the MPDU at `SRC`, from its Frame Control (R219 check 5). -/
def mpduHeaderLen (s : State) : Nat := headerLen (frameControl (memRead s s.src.toNat 2))

/-- The first `header_len` bytes at `SRC` (R218). -/
def mpduHeader (s : State) : List Byte := memRead s s.src.toNat (mpduHeaderLen s)

/-- What the CCMP commands derive from the MPDU at `SRC` (R218). -/
def mpduDerived (cfg : Config) (legacy : Bool) (nfb : Byte) (s : State) : Derived :=
  ccmpDerivation cfg legacy nfb (mpduHeader s)

/-- The writes of the derived nonce, AAD and lengths to their registers (R220, R224, R228). -/
def setDerived (d : Derived) (s : State) : State :=
  { s with dnonce := d.nonce, daad := ofBytes 30 d.aad, dHdrLen := lengthWord d.headerLen, dAadLen := lengthWord d.aadLen }

/-- The length and region checks common to the CCMP commands (R219 checks 3 to 5); `t` is the tag length that `LEN`
includes, `out` the output region of `CCMP_ENC`. -/
def mpduChecks (cfg : Config) (t : Nat) (out : Option Region) (s : State) : List Check :=
  [ { fails := decide (s.len.toNat < 32 + t), error := .invalidLength },
    checkRegions cfg (srcRegion s) none out,
    { fails := decide (s.len.toNat < mpduHeaderLen s + t), error := .invalidLength } ]

/-- The payload length `plen` (R219 check 6). -/
def payloadLen (t : Nat) (s : State) : Nat := s.len.toNat - mpduHeaderLen s - t

/-- The checks of `CCMP_ENC` and `CCMP_DEC` after decoding, in order (R219). -/
def ccmpCryptChecks (cfg : Config) (t : Nat) (out : Option Region) (s : State) : List Check :=
  checkKey s :: (mpduChecks cfg t out s ++
    [{ fails := decide (ccmMsgMaxLen < payloadLen t s), error := .tooLong }])

/-- The address of the body (R210). -/
def bodyAddr (s : State) : Nat := s.src.toNat + mpduHeaderLen s

/-- The effect of `CCMP_DERIVE` once its checks have passed (R220). -/
def ccmpDeriveEffect (cfg : Config) (legacy : Bool) (nfb : Byte) (s : State) : State :=
  complete (setDerived (mpduDerived cfg legacy nfb s) s)

/-- `CCMP_DERIVE` on any configuration (R220): no key, so `KEYSEL` is not checked (R219 check 2). -/
def ccmpDerive (cfg : Config) (legacy : Bool) (nfb : Byte) (s : State) : State :=
  runChecked (mpduChecks cfg 0 none s) (ccmpDeriveEffect cfg legacy nfb) s

/-- The output region of `CCMP_ENC` for the range check: the MPDU and `M` bytes of tail-room (R219 check 4). -/
def ccmpEncRegion (cfg : Config) (s : State) : Region :=
  { start := s.src.toNat, len := s.len.toNat + cfg.ccmAuthLen }

/-- The ciphertext and tag that `CCMP_ENC` computes (R224). -/
def ccmpEncResult (cfg : Config) (legacy : Bool) (nfb : Byte) (s : State) : List Byte × List Byte :=
  let d := mpduDerived cfg legacy nfb s
  ccmEncrypt cfg (cfg.aesEnc (keyBytes s)) d.nonce d.aad (memRead s (bodyAddr s) (payloadLen 0 s))

/-- The effect of `CCMP_ENC` once its checks have passed (R224): ciphertext and tag over the body, in place. -/
def ccmpEncEffect (cfg : Config) (legacy : Bool) (nfb : Byte) (s : State) : State :=
  let cu := ccmpEncResult cfg legacy nfb s
  complete { setDerived (mpduDerived cfg legacy nfb s) (memWrite s (bodyAddr s) (cu.1 ++ cu.2)) with
    tag := ofBytes 16 cu.2, outLen := lengthWord (s.len.toNat + cfg.ccmAuthLen) }

/-- `CCMP_ENC` on any configuration (R224). -/
def ccmpEnc (cfg : Config) (legacy : Bool) (nfb : Byte) (s : State) : State :=
  runChecked (ccmpCryptChecks cfg 0 (some (ccmpEncRegion cfg s)) s) (ccmpEncEffect cfg legacy nfb) s

/-- The plaintext and the verdict on the tag that `CCMP_DEC` computes (R228). -/
def ccmpDecResult (cfg : Config) (legacy : Bool) (nfb : Byte) (s : State) : List Byte × Bool :=
  let d := mpduDerived cfg legacy nfb s
  ccmDecrypt cfg (cfg.aesEnc (keyBytes s)) d.nonce d.aad
    (memRead s (bodyAddr s) (payloadLen cfg.ccmAuthLen s + cfg.ccmAuthLen))

/-- The effect of `CCMP_DEC` once its checks have passed (R228, R230): the body is decrypted in place and `TAG` cleared
whether the tags match or not; a mismatch zeroes `OUTLEN` and raises `MIC_FAILURE` (the `defined` reading; log 7). -/
def ccmpDecEffect (cfg : Config) (legacy : Bool) (nfb : Byte) (s : State) : State :=
  let r := ccmpDecResult cfg legacy nfb s
  let written := { setDerived (mpduDerived cfg legacy nfb s) (memWrite s (bodyAddr s) r.1) with tag := ofBytes 16 [] }
  if r.2 then complete { written with outLen := lengthWord (s.len.toNat - cfg.ccmAuthLen) }
  else raiseError .micFailure { written with outLen := 0 }

/-- `CCMP_DEC` on any configuration (R228). -/
def ccmpDec (cfg : Config) (legacy : Bool) (nfb : Byte) (s : State) : State :=
  runChecked (ccmpCryptChecks cfg cfg.ccmAuthLen none s) (ccmpDecEffect cfg legacy nfb) s

/-- `CCMP_DERIVE` (R220). -/
def execCcmpDerive (legacy : Bool) (nfb : Byte) (s : State) : Host.Outcome State Fault Refusal :=
  .next (ccmpDerive hw legacy nfb s)

/-- `CCMP_ENC` (R224). -/
def execCcmpEnc (legacy : Bool) (nfb : Byte) (s : State) : Host.Outcome State Fault Refusal :=
  .next (ccmpEnc hw legacy nfb s)

/-- `CCMP_DEC` (R228). -/
def execCcmpDec (legacy : Bool) (nfb : Byte) (s : State) : Host.Outcome State Fault Refusal :=
  .next (ccmpDec hw legacy nfb s)

end Sys2Proof.Machine
end

