-- ==== Sys2Proof/Machine/Cmac.lean ====
section
/-! DEFINITION. The CMAC engine: `CMAC_SUBKEYS` and `CMAC` (45_cmac R241 to R246). -/

namespace Sys2Proof.Machine

/-- `cmac_subkeys` (R241) with the key applied: K1 and K2. -/
def cmacSubkeyPair (enc : Block → Block) : Block × Block :=
  let l := enc (ofBytes 16 [])
  (dbl l, dbl (dbl l))

/-- The last block of a CMAC message (R244): XORed with K1 if it is full, else padded with 0x80 and zeros and XORed
with K2. -/
def cmacLastBlock (k1 k2 : Block) (last : List Byte) : Block :=
  if last.length = 16 then xorBlock (ofBytes 16 last) k1
  else xorBlock (ofBytes 16 (last ++ [0x80])) k2

/-- The blocks that CMAC chains (R244): only the last chunk is changed; the empty message is one empty chunk. -/
def cmacBlocks (k1 k2 : Block) : List (List Byte) → List Block
  | [] => [cmacLastBlock k1 k2 []]
  | [last] => [cmacLastBlock k1 k2 last]
  | b :: bs => ofBytes 16 b :: cmacBlocks k1 k2 bs

/-- The final chaining value of `cmac` (R244), from `C0 = 0^16`. -/
def cmacChain (enc : Block → Block) (m : List Byte) : Block :=
  let ks := cmacSubkeyPair enc
  cbcMac enc (ofBytes 16 []) (cmacBlocks ks.1 ks.2 (blocks m))

/-- The tag of `cmac` (R244): the first `CMAC_AUTH_LEN` bytes. -/
def cmacTag (cfg : Config) (enc : Block → Block) (m : List Byte) : List Byte :=
  (cmacChain enc m).toList.take cfg.cmacAuthLen

/-- The writes of the subkeys to `K1` and `K2` (R242, R245). -/
def setSubkeys (ks : Block × Block) (s : State) : State := { s with k1 := ks.1, k2 := ks.2 }

/-- The effect of `CMAC_SUBKEYS` once its checks have passed (R242). -/
def cmacSubkeysEffect (cfg : Config) (s : State) : State :=
  complete (setSubkeys (cmacSubkeyPair (cfg.aesEnc (keyBytes s))) s)

/-- `CMAC_SUBKEYS` on any configuration (R242). -/
def cmacSubkeys (cfg : Config) (s : State) : State := runChecked [checkKey s] (cmacSubkeysEffect cfg) s

/-- The checks of `CMAC` after decoding, in order (R245): no length limit. -/
def cmacChecks (cfg : Config) (s : State) : List Check := [checkKey s, checkRegions cfg (srcRegion s) none none]

/-- The effect of `CMAC` once its checks have passed (R245): the subkeys are recomputed, never read. -/
def cmacEffect (cfg : Config) (s : State) : State :=
  let enc := cfg.aesEnc (keyBytes s)
  complete { setSubkeys (cmacSubkeyPair enc) s with tag := ofBytes 16 (cmacTag cfg enc (srcBytes s)), outLen := 0 }

/-- `CMAC` on any configuration (R245). -/
def cmac (cfg : Config) (s : State) : State := runChecked (cmacChecks cfg s) (cmacEffect cfg) s

/-- `CMAC_SUBKEYS` (R242). -/
def execCmacSubkeys (s : State) : Host.Outcome State Fault Refusal := .next (cmacSubkeys hw s)

/-- `CMAC` (R245). -/
def execCmac (s : State) : Host.Outcome State Fault Refusal := .next (cmac hw s)

end Sys2Proof.Machine
end

