-- ==== Sys2Proof/Machine/Dispatch.lean ====
section
/-! DEFINITION. One arm per command: the completion step of a decoded command (40_block_primitives R132). -/

namespace Sys2Proof.Machine

def exec (i : Instr) (s : State) : Host.Outcome State Fault Refusal :=
  match i with
  | .nop => Sys2Proof.Machine.execNop s
  | .cbcEnc pad => Sys2Proof.Machine.execCbcEnc pad s
  | .cbcDec pad => Sys2Proof.Machine.execCbcDec pad s
  | .ctrCrypt => Sys2Proof.Machine.execCtrCrypt s
  | .ccmMac => Sys2Proof.Machine.execCcmMac s
  | .ccmEnc => Sys2Proof.Machine.execCcmEnc s
  | .ccmDec => Sys2Proof.Machine.execCcmDec s
  | .ccmpDerive legacy nfb => Sys2Proof.Machine.execCcmpDerive legacy nfb s
  | .ccmpEnc legacy nfb => Sys2Proof.Machine.execCcmpEnc legacy nfb s
  | .ccmpDec legacy nfb => Sys2Proof.Machine.execCcmpDec legacy nfb s
  | .cmacSubkeys => Sys2Proof.Machine.execCmacSubkeys s
  | .cmac => Sys2Proof.Machine.execCmac s

end Sys2Proof.Machine
end

