-- ==== Sys2Proof/Machine/Flags.lean ====
section
/-! DEFINITION. The status flags, the numeric error codes and the interrupt line (10_state R23 to R25; 60_exceptions
R260, R271, R272). -/

namespace Sys2Proof.Machine

/-- The number of an error (R260), the value of `ERRCODE[3:0]`. -/
def ErrCode.code : ErrCode → Word
  | .none => 0
  | .invalidLength => 1
  | .tooLong => 2
  | .authFailed => 3
  | .micFailure => 4
  | .unsupportedPadding => 5
  | .badCommand => 6
  | .bufRange => 7
  | .badKeylen => 8

/-- A flag as bit `n` of a 32-bit register whose other bits are zero. -/
def flagBit (n : Nat) (b : Bool) : Word := (BitVec.ofBool b).setWidth 32 <<< n

/-- The value a read of `STATUS` returns (R24): BUSY, DONE, ERR, ACCERR in bits 0 to 3, the rest zero. -/
def State.statusWord (s : State) : Word :=
  flagBit 0 s.busy ||| flagBit 1 s.done ||| flagBit 2 s.err ||| flagBit 3 s.accErr

/-- The value a read of `CTRL` returns (R23): IE in bit 0; `SRST` and the reserved bits read 0. -/
def State.ctrlWord (s : State) : Word := flagBit 0 s.ie

/-- The interrupt request line (R52, R272): level-sensitive, `CTRL.IE AND STATUS.DONE`. -/
def State.irq (s : State) : Bool := s.ie && s.done

/-- An illegal host access, or one made at a time when it is illegal, sets the sticky `ACCERR` (R271). -/
def setAccErr (s : State) : State := { s with accErr := true }

/-- A host write of `v` to `STATUS` (R24): 1 in bit 1 clears `DONE`, 1 in bit 3 clears `ACCERR`; nothing else. -/
def writeStatus (v : Word) (s : State) : State :=
  { s with done := s.done && !v.getLsbD 1, accErr := s.accErr && !v.getLsbD 3 }

end Sys2Proof.Machine
end

