-- ==== Sys2Proof/Machine/HostPort.lean ====
section
/-! DEFINITION. The host's accesses to `REG` and `BUF` (10_state R20 to R44; 20_memory R63 to R68; 60 R271; 70 R291,
R292). -/

namespace Sys2Proof.Machine

/-- The registers of the register map (R21); a byte-array register is reached word by word, word `k` holding bytes
`4k` to `4k+3` (R20). -/
inductive Reg where
  | id | ctrl | status | errcode | cmd | keyctl | src | dst | len | aadPtr | aadLen | outLen | dHdrLen | dAadLen
  | key (k : Nat) | ivctr (k : Nat) | nonce (k : Nat) | tag (k : Nat) | k1 (k : Nat) | k2 (k : Nat)
  | dnonce (k : Nat) | daad (k : Nat)
  deriving DecidableEq, Repr

/-- The register at a byte offset that is a multiple of 4 (R21); none at a reserved offset (R44). -/
def regAt (offset : Nat) : Option Reg :=
  if offset = 0x000 then some .id
  else if offset = 0x004 then some .ctrl
  else if offset = 0x008 then some .status
  else if offset = 0x00C then some .errcode
  else if offset = 0x010 then some .cmd
  else if offset = 0x014 then some .keyctl
  else if offset = 0x018 then some .src
  else if offset = 0x01C then some .dst
  else if offset = 0x020 then some .len
  else if offset = 0x024 then some .aadPtr
  else if offset = 0x028 then some .aadLen
  else if offset = 0x02C then some .outLen
  else if offset = 0x030 then some .dHdrLen
  else if offset = 0x034 then some .dAadLen
  else if offset < 0x040 then none
  else if offset < 0x060 then some (.key ((offset - 0x040) / 4))
  else if offset < 0x070 then some (.ivctr ((offset - 0x060) / 4))
  else if offset < 0x080 then some (.nonce ((offset - 0x070) / 4))
  else if offset < 0x090 then some (.tag ((offset - 0x080) / 4))
  else if offset < 0x0A0 then some (.k1 ((offset - 0x090) / 4))
  else if offset < 0x0B0 then some (.k2 ((offset - 0x0A0) / 4))
  else if offset < 0x0C0 then some (.dnonce ((offset - 0x0B0) / 4))
  else if offset < 0x0E0 then some (.daad ((offset - 0x0C0) / 4))
  else none

/-- The result registers of 10_state section 4, whose value is unspecified while a command is in flight (R67). -/
def Reg.isResult : Reg → Bool
  | .outLen | .dHdrLen | .dAadLen | .tag _ | .k1 _ | .k2 _ | .dnonce _ | .daad _ => true
  | _ => false

/-- Word `k` of a byte-array register (R20); bytes past its end read 0 (R38, R42, R43). -/
def arrayWord (s : List Byte) (k : Nat) : Word := leWord (slice s (4 * k) (4 * k + 4))

/-- A byte-array register after a write of `v` to its word `k` (R20); bytes past its end are not stored (R38). -/
def arrayWrite {n : Nat} (r : Vector Byte n) (k : Nat) (v : Word) : Vector Byte n :=
  ofBytes n (r.toList.take (4 * k) ++ [wordByte v 0, wordByte v 1, wordByte v 2, wordByte v 3] ++
    r.toList.drop (4 * k + 4))

/-- The value of a register as the host reads it (R20 to R43). `KEY` is write-only and reads 0 (R36, R65). -/
def readReg (cfg : Config) (r : Reg) (s : State) : Word :=
  match r with
  | .id => cfg.idValue
  | .ctrl => s.ctrlWord
  | .status => s.statusWord
  | .errcode => s.errcode.code
  | .cmd => s.cmd
  | .keyctl => s.keysel.setWidth 32
  | .src => s.src
  | .dst => s.dst
  | .len => s.len
  | .aadPtr => s.aadPtr
  | .aadLen => s.aadLen
  | .outLen => s.outLen
  | .dHdrLen => s.dHdrLen
  | .dAadLen => s.dAadLen
  | .key _ => 0
  | .ivctr k => arrayWord s.ivctr.toList k
  | .nonce k => arrayWord s.nonce.toList k
  | .tag k => arrayWord s.tag.toList k
  | .k1 k => arrayWord s.k1.toList k
  | .k2 k => arrayWord s.k2.toList k
  | .dnonce k => arrayWord s.dnonce.toList k
  | .daad k => arrayWord s.daad.toList k

/-- A host write of `v` to `CTRL` (R23): `IE` takes bit 0; then bit 1 requests a soft reset, performed while idle
(R291), refused with `ACCERR` while a command is in flight (R292). -/
def writeCtrl (v : Word) (s : State) : State :=
  let s' := { s with ie := v.getLsbD 0 }
  if v.getLsbD 1 then (if s.busy then setAccErr s' else softReset s') else s'

/-- A legal host write of `v` to a register while no command is in flight (R23 to R38). A write to `CMD` accepts a
command (R26, R131); a read-only register ignores the write (R65). -/
def writeIdleReg (r : Reg) (v : Word) (s : State) : State :=
  match r with
  | .ctrl => writeCtrl v s
  | .status => writeStatus v s
  | .cmd => acceptCommand v s
  | .keyctl => { s with keysel := v.extractLsb' 0 2 }
  | .src => { s with src := v }
  | .dst => { s with dst := v }
  | .len => { s with len := v }
  | .aadPtr => { s with aadPtr := v }
  | .aadLen => { s with aadLen := v }
  | .key k => { s with key := arrayWrite s.key k v }
  | .ivctr k => { s with ivctr := arrayWrite s.ivctr k v }
  | .nonce k => { s with nonce := arrayWrite s.nonce k v }
  | .id | .errcode | .outLen | .dHdrLen | .dAadLen => s
  | .tag _ | .k1 _ | .k2 _ | .dnonce _ | .daad _ => s

/-- A legal host write to a register while a command is in flight: only `CTRL` and `STATUS` take it; any other is
dropped and sets `ACCERR` (R66). -/
def writeBusyReg (r : Reg) (v : Word) (s : State) : State :=
  match r with
  | .ctrl => writeCtrl v s
  | .status => writeStatus v s
  | _ => setAccErr s

/-- The bus answers a read with `v` (log 2). -/
def respond (v : Word) (s : State) : State := { s with responses := v :: s.responses }

/-- The bus answers a read with an unspecified value of `width` bytes, a free value (R67, R68; log 4). -/
def respondUnspecified (width : Nat) (s : State) : State :=
  let v := BitVec.ofNat 32 ((Config.unspecifiedRead s.draws).toNat % 2 ^ (8 * width))
  respond v { s with draws := s.draws + 1 }

/-- A `REG` access is legal in width, alignment and range: 32 bits at a multiple of 4 up to 0xFFC (R64; log 9). -/
def regAccessLegal (width offset : Nat) : Bool :=
  decide (width = 4) && decide (offset % 4 = 0) && decide (offset ≤ 0xFFC)

/-- The register that a `REG` access reaches: none if the access is illegal (R64) or the offset reserved (R44). -/
def accessedReg (width offset : Nat) : Option Reg := if regAccessLegal width offset then regAt offset else none

/-- A host read of `REG` (R64, R67, R44): no side effect but the answer, and `ACCERR` where it is illegal. -/
def hostRegRead (cfg : Config) (width offset : Nat) (s : State) : State :=
  match accessedReg width offset with
  | none => respond 0 (setAccErr s)
  | some r => if s.busy && r.isResult then respondUnspecified 4 s else respond (readReg cfg r s) s

/-- A host write of `REG` (R64 to R66, R44). -/
def hostRegWrite (width offset : Nat) (v : Word) (s : State) : State :=
  match accessedReg width offset with
  | none => setAccErr s
  | some r => if s.busy then writeBusyReg r v s else writeIdleReg r v s

/-- A `BUF` access is legal in width, alignment and range (R68). -/
def bufAccessLegal (cfg : Config) (width addr : Nat) : Bool :=
  (decide (width = 1) || decide (width = 2) || decide (width = 4)) && decide (addr % width = 0) &&
    decide (addr + width ≤ cfg.bufBytes)

/-- A host read of `BUF` (R68): while a command is in flight the value is unspecified and `ACCERR` is set (log 8). -/
def hostBufRead (cfg : Config) (width addr : Nat) (s : State) : State :=
  if s.busy then respondUnspecified width (setAccErr s)
  else if bufAccessLegal cfg width addr then respond (leWord (memRead s addr width)) s
  else respond 0 (setAccErr s)

/-- A host write of `BUF` (R68): dropped with `ACCERR` where it is illegal or a command is in flight. -/
def hostBufWrite (cfg : Config) (width addr : Nat) (v : Word) (s : State) : State :=
  if !s.busy && bufAccessLegal cfg width addr then memWrite s addr ((List.range width).map (wordByte v))
  else setAccErr s

/-- One access of the host, atomic (R63). -/
def hostAccess (cfg : Config) (a : HostAccess) (s : State) : State :=
  match a with
  | .regRead width offset => hostRegRead cfg width offset s
  | .regWrite width offset v => hostRegWrite width offset v s
  | .bufRead width addr => hostBufRead cfg width addr s
  | .bufWrite width addr v => hostBufWrite cfg width addr v s

end Sys2Proof.Machine
end

