-- ==== Sys2Proof/Machine/Engine.lean ====
section
/-! DEFINITION. The engine's completion step, and which agent moves next (40_block_primitives R130 to R132; 60_exceptions
R274). -/

namespace Sys2Proof.Machine

/-- The completion step of the command in flight (R132): the word in `CMD` is decoded (R94) and its command run; an
illegal word raises `BAD_COMMAND` (R97, R263). -/
def engineStep (s : State) : Host.Outcome State Fault Refusal :=
  match decode s.cmd with
  | .ok i => exec i s
  | .error _ => .next (raiseError .badCommand s)

/-- The engine's turn: its step is enabled exactly when `BUSY = 1` (R132); an idle engine keeps all state (R278). -/
def engineTurn (s : State) : Host.Outcome State Fault Refusal := if s.busy then engineStep s else .next s

/-- The next thing that happens takes effect (R63, R76, R274; log 1): the head of the inputs, and when they have run
out, the engine's turn. -/
def advance (s : State) : Host.Outcome State Fault Refusal :=
  match s.inputs with
  | [] => engineTurn s
  | .engineTurn :: rest => engineTurn { s with inputs := rest }
  | .access a :: rest => .next (hostAccess hw a { s with inputs := rest })
  | .hardReset :: rest => .next (hardReset { s with inputs := rest })

/-- The command word `w` is placed so that the next step completes it: accepted as by the host's write to `CMD` (R131),
with the engine's turn next (log 11). -/
def placeCommand (w : Word) (s : State) : State :=
  acceptCommand w { s with inputs := .engineTurn :: s.inputs }

end Sys2Proof.Machine
end

