-- ==== Sys2Proof/Machine/Step.lean ====
section
/-! DEFINITION. One step of BME: a host access, a hard reset or the engine's completion step, whichever is next. -/

namespace Sys2Proof.Machine

/-- One step (R76, R132, R274). -/
def step (s : State) : Host.Outcome State Fault Refusal := advance s

/-- `s` with the command word whose `nbits` low bits are those of `w`, the others zero, accepted and due at the next
step (R90, R131; log 11). -/
def State.withFetchWord (s : State) (nbits w : Nat) : State := placeCommand (BitVec.ofNat 32 (w % 2 ^ nbits)) s

end Sys2Proof.Machine
end

