-- ==== Sys2Proof/Safety.lean ====
section
/-! DEFINITION. What claims about BME are stated in: the regions of `BUF` in arithmetic, when each command executes
normally, the machine's invariant, and what it means that a run never stops. -/

namespace Sys2Proof.Machine

/-! ### Regions in arithmetic (20_memory R70, R71) -/

/-- A region is legal: empty, or inside `BUF`, without address wrap (R70). -/
abbrev Region.Fits (cfg : Config) (r : Region) : Prop := r.len = 0 ∨ r.start + r.len ≤ cfg.bufBytes

/-- Two regions do not overlap: they share no byte address (R71). -/
abbrev Region.Apart (r q : Region) : Prop :=
  r.len = 0 ∨ q.len = 0 ∨ r.start + r.len ≤ q.start ∨ q.start + q.len ≤ r.start

/-- An output region that the primary input allows: apart from it, or starting where it starts (R71(b)). -/
abbrev Region.OutputOk (o i0 : Region) : Prop := o.Apart i0 ∨ o.start = i0.start

/-- The output region of commands that write `n` bytes at `DST`. -/
abbrev dstRegion (s : State) (n : Nat) : Region := { start := s.dst.toNat, len := n }

/-! ### When a command executes normally -/

/-- `CBC_ENC` passes every check (R152). -/
abbrev CbcEncLegal (cfg : Config) (pad : Nat) (s : State) : Prop :=
  pad < 2 ∧ s.keysel ≠ 3 ∧ (pad = 0 → 0 < s.len.toNat ∧ s.len.toNat % 16 = 0) ∧
  (srcRegion s).Fits cfg ∧ (dstRegion s (cbcEncOutLen pad s.len.toNat)).Fits cfg ∧
  (dstRegion s (cbcEncOutLen pad s.len.toNat)).OutputOk (srcRegion s)

/-- `CBC_DEC` passes the checks that need no data (R156 checks 1 to 5). -/
abbrev CbcDecLegal (cfg : Config) (pad : Nat) (s : State) : Prop :=
  pad < 2 ∧ s.keysel ≠ 3 ∧ 0 < s.len.toNat ∧ s.len.toNat % 16 = 0 ∧
  (srcRegion s).Fits cfg ∧ (dstRegion s s.len.toNat).Fits cfg ∧ (dstRegion s s.len.toNat).OutputOk (srcRegion s)

/-- `CTR_CRYPT` passes every check (R171). -/
abbrev CtrLegal (cfg : Config) (s : State) : Prop :=
  s.keysel ≠ 3 ∧ s.len.toNat ≤ 1048576 ∧
  (srcRegion s).Fits cfg ∧ (dstRegion s s.len.toNat).Fits cfg ∧ (dstRegion s s.len.toNat).OutputOk (srcRegion s)

/-- What every CCM command asks of its operands (R181), for a message of `mlen` bytes. -/
abbrev CcmLegal (cfg : Config) (mlen : Nat) (s : State) : Prop :=
  s.keysel ≠ 3 ∧ s.aadLen.toNat ≤ cfg.ccmAadMaxLen ∧ mlen ≤ 65535 ∧
  (srcRegion s).Fits cfg ∧ (aadRegion s).Fits cfg

/-- A CCM output region `o` passes the region checks (R181 check 5). -/
abbrev CcmOutputOk (cfg : Config) (o : Region) (s : State) : Prop :=
  o.Fits cfg ∧ o.Apart (aadRegion s) ∧ o.OutputOk (srcRegion s)

/-- `CCM_MAC` passes every check (R190). -/
abbrev CcmMacLegal (cfg : Config) (s : State) : Prop := CcmLegal cfg s.len.toNat s

/-- `CCM_ENC` passes every check (R192). -/
abbrev CcmEncLegal (cfg : Config) (s : State) : Prop :=
  CcmLegal cfg s.len.toNat s ∧ CcmOutputOk cfg (dstRegion s (s.len.toNat + cfg.ccmAuthLen)) s

/-- `CCM_DEC` passes every check made before its writes (R195). -/
abbrev CcmDecLegal (cfg : Config) (s : State) : Prop :=
  cfg.ccmAuthLen ≤ s.len.toNat ∧ CcmLegal cfg (s.len.toNat - cfg.ccmAuthLen) s ∧
  CcmOutputOk cfg (dstRegion s (s.len.toNat - cfg.ccmAuthLen)) s

/-- The MPDU at `SRC` is inside `BUF` and holds its header and a tag of `t` bytes (R219 checks 3 to 5). -/
abbrev MpduLegal (cfg : Config) (t : Nat) (s : State) : Prop :=
  32 + t ≤ s.len.toNat ∧ (srcRegion s).Fits cfg ∧ mpduHeaderLen s + t ≤ s.len.toNat

/-- `CCMP_DERIVE` passes every check (R220). -/
abbrev CcmpDeriveLegal (cfg : Config) (s : State) : Prop := MpduLegal cfg 0 s

/-- `CCMP_ENC` passes every check (R224). -/
abbrev CcmpEncLegal (cfg : Config) (s : State) : Prop :=
  s.keysel ≠ 3 ∧ MpduLegal cfg 0 s ∧ s.src.toNat + (s.len.toNat + cfg.ccmAuthLen) ≤ cfg.bufBytes ∧
  s.len.toNat - mpduHeaderLen s ≤ 65535

/-- `CCMP_DEC` passes every check made before its writes (R228). -/
abbrev CcmpDecLegal (cfg : Config) (s : State) : Prop :=
  s.keysel ≠ 3 ∧ MpduLegal cfg cfg.ccmAuthLen s ∧ s.len.toNat - mpduHeaderLen s - cfg.ccmAuthLen ≤ 65535

/-- `CMAC` passes every check (R245). -/
abbrev CmacLegal (cfg : Config) (s : State) : Prop := s.keysel ≠ 3 ∧ (srcRegion s).Fits cfg

/-! ### The invariant -/

/-- The status flags agree (R24): `BUSY = 1` implies `DONE = 0` and `ERR = 0`; `ERR = 1` iff `BUSY = 0` and
`ERRCODE ≠ 0`. -/
abbrev State.FlagsAgree (s : State) : Prop :=
  (s.busy = true → s.done = false ∧ s.err = false) ∧
  (s.err = true ↔ s.busy = false ∧ s.errcode ≠ .none)

/-- While a command is in flight `ERRCODE` reads 0 (R67, R131). -/
abbrev State.BusyErrcodeZero (s : State) : Prop := s.busy = true → s.errcode = .none

/-- `BUF` is in canonical form and holds written bytes at its own addresses only (R60). -/
abbrev State.BufOk (cfg : Config) (s : State) : Prop :=
  s.buf.wf = true ∧ ∀ a, (s.buf.read a).isSome = true → a < cfg.bufBytes

/-- The derived CCMP lengths are those of one of the four header shapes, or still at reset (R34, R35, R215), and the
bytes of `DAAD` from `DAADLEN` on are zero (R43). -/
abbrev State.DerivedOk (s : State) : Prop :=
  (s.dHdrLen.toNat, s.dAadLen.toNat) ∈ [(0, 0), (32, 22), (34, 24), (38, 28), (40, 30)] ∧
  ∀ i, s.dAadLen.toNat ≤ i → s.daad.toList.getD i 0 = 0

/-- The invariant of BME. -/
structure State.Inv (s : State) : Prop where
  flags : s.FlagsAgree
  errcodeWhileBusy : s.BusyErrcodeZero
  buffer : s.BufOk hw
  derived : s.DerivedOk

/-- `n` steps from `s` lead to `t`, with no fault and no refusal on the way. -/
def RunsTo (s : State) (n : Nat) (t : State) : Prop := Sys2Proof.core.run n s = .next t

end Sys2Proof.Machine
end

