-- ==== Sys2Proof/Certificates/Slice0/Obligations.lean ====
section
/-! DEFINITION. The statements for the provers, file by file of spec/. A statement over all states says "for every state";
where it needs a legal operand it names the predicate of Sys2Proof/Safety.lean. -/

open Sys2Proof Sys2Proof.Machine

/-! ### 30_encoding -/

/-- No bit of an encoding is dropped: decoding the word of a well-formed command gives the command back. -/
def Obligations.DecodeOfEncodeIsTheCommand : Prop :=
  ∀ i : Instr, i.wf = true → decode (encode i) = .ok i

/-- Each word has one meaning: a word that decodes is the word of the well-formed command it decodes to. -/
def Obligations.EncodeOfDecodeIsTheWord : Prop :=
  ∀ (w : Word) (i : Instr), decode w = .ok i → i.wf = true ∧ encode i = w

/-- The rows of the opcode map are mutually exclusive: no word matches two of them. -/
def Obligations.OpcodeRowsAreExclusive : Prop :=
  opTable.length = 12 ∧ opTable.Pairwise fun r q => ∀ w : Word, ¬(r.accepts w = true ∧ q.accepts w = true)

/-- A word is illegal exactly when `OPC` is above 0x0B or a "zero" field of its format is not zero. -/
def Obligations.IllegalWordsAreReservedOnes : Prop :=
  ∀ w : Word, (∃ e, decode w = .error e) ↔
    let opc := w.toNat % 256
    0x0C ≤ opc ∨
    (opc ∈ [0x00, 0x03, 0x04, 0x05, 0x06, 0x0A, 0x0B] ∧ w.toNat / 256 ≠ 0) ∨
    (opc ∈ [0x01, 0x02] ∧ w.toNat / 1024 ≠ 0) ∨
    (opc ∈ [0x07, 0x08, 0x09] ∧ (w.toNat / 2 ^ 24 ≠ 0 ∨ w.toNat / 512 % 128 ≠ 0))

/-- The mnemonics assemble to the words of R100. -/
def Obligations.MnemonicsAssembleToTheirWords : Prop :=
  encode .nop = 0x00000000 ∧
  encode (.cbcEnc 0) = 0x00000001 ∧ encode (.cbcEnc 1) = 0x00000101 ∧
  encode (.cbcEnc 2) = 0x00000201 ∧ encode (.cbcEnc 3) = 0x00000301 ∧
  encode (.cbcDec 0) = 0x00000002 ∧ encode (.cbcDec 1) = 0x00000102 ∧
  encode (.cbcDec 2) = 0x00000202 ∧ encode (.cbcDec 3) = 0x00000302 ∧
  encode .ctrCrypt = 0x00000003 ∧ encode .ccmMac = 0x00000004 ∧
  encode .ccmEnc = 0x00000005 ∧ encode .ccmDec = 0x00000006 ∧
  (∀ nfb : Byte,
    (encode (.ccmpDerive false nfb)).toNat = 0x00000007 + nfb.toNat * 2 ^ 16 ∧
    (encode (.ccmpDerive true nfb)).toNat = 0x00000107 + nfb.toNat * 2 ^ 16 ∧
    (encode (.ccmpEnc false nfb)).toNat = 0x00000008 + nfb.toNat * 2 ^ 16 ∧
    (encode (.ccmpEnc true nfb)).toNat = 0x00000108 + nfb.toNat * 2 ^ 16 ∧
    (encode (.ccmpDec false nfb)).toNat = 0x00000009 + nfb.toNat * 2 ^ 16 ∧
    (encode (.ccmpDec true nfb)).toNat = 0x00000109 + nfb.toNat * 2 ^ 16) ∧
  encode .cmacSubkeys = 0x0000000A ∧ encode .cmac = 0x0000000B

/-- Words written out from the opcode map decode to the commands they stand for (95_test_vectors E1). -/
def Obligations.SampleWordsDecode : Prop :=
  decode 0x00000000 = .ok .nop ∧ decode 0x00000301 = .ok (.cbcEnc 3) ∧ decode 0x00000102 = .ok (.cbcDec 1) ∧
  decode 0x00000003 = .ok .ctrCrypt ∧ decode 0x00000005 = .ok .ccmEnc ∧
  decode 0x00FF0107 = .ok (.ccmpDerive true 0xFF) ∧ decode 0x00150108 = .ok (.ccmpEnc true 0x15) ∧
  decode 0x00100009 = .ok (.ccmpDec false 0x10) ∧ decode 0x0000000A = .ok .cmacSubkeys ∧
  decode 0x0000000B = .ok .cmac

/-! ### 40_block_primitives: the primitives -/

/-- `inc16` keeps bytes 0 to 13, adds one to the 16-bit big-endian value of bytes 14 and 15 modulo 65536, its bytewise
form agrees (R126), and its period is exactly 65536 on every block (42_ctr R171, corner cases). -/
def Obligations.Inc16IncrementsTheLowTwoBytes : Prop :=
  ∀ x : Block,
    (∀ (i : Nat) (h : i < 14), (inc16 x)[i] = x[i]) ∧
    256 * (inc16 x)[14].toNat + (inc16 x)[15].toNat = (256 * x[14].toNat + x[15].toNat + 1) % 65536 ∧
    (inc16 x)[15] = x[15] + 1 ∧ ((inc16 x)[14] = if x[15] + 1 = 0 then x[14] + 1 else x[14]) ∧
    ∀ n : Nat, Nat.iterate inc16 n x = x ↔ n % 65536 = 0

/-- `dbl` is the left shift by one with the conditional XOR of 0x87, byte by byte and as 128-bit big-endian integers
(R127). -/
def Obligations.DblIsShiftWithConditionalXor : Prop :=
  ∀ x : Block,
    (∀ (i : Nat) (h : i < 15), (dbl x)[i] = (x[i] <<< 1) ||| (x[i + 1] >>> 7)) ∧
    (dbl x)[15] = (x[15] <<< 1) ^^^ (if x[0].getLsbD 7 then 0x87 else 0) ∧
    beValue (dbl x).toList = ((2 * beValue x.toList) % 2 ^ 128) ^^^ (if x[0].getLsbD 7 then 0x87 else 0)

/-- `blocks` splits a string into chunks that make it up, all of 16 bytes but perhaps the last, and `zpad` pads with
zeros to a block boundary (R128). -/
def Obligations.BlocksSplitAndZpadPads : Prop :=
  ∀ s : List Byte,
    (blocks s).length = (s.length + 15) / 16 ∧
    (∀ (j : Nat) (h : j < (blocks s).length), (blocks s)[j] = slice s (16 * j) (min (16 * j + 16) s.length)) ∧
    zpad s = s ++ List.replicate ((16 - s.length % 16) % 16) 0 ∧ (zpad s).length % 16 = 0 ∧
    (s.length % 16 = 0 → zpad s = s)

/-! ### 40_block_primitives, 60_exceptions: the life cycle -/

/-- A step runs the decoded command: on the engine's turn, or when nothing else is to come, with a command in flight. And
a step takes the host's next access, whatever it is, as `hostAccess` says. -/
def Obligations.StepRunsTheDecodedCommand : Prop :=
  (∀ (s : State) (i : Instr), s.busy = true → decode s.cmd = .ok i →
    (∀ rest, s.inputs = .engineTurn :: rest → step s = exec i { s with inputs := rest }) ∧
    (s.inputs = [] → step s = exec i s)) ∧
  ∀ (s : State) (a : HostAccess) (rest : List Input), s.inputs = .access a :: rest →
    step s = .next (hostAccess hw a { s with inputs := rest })

/-- An illegal word completes with `BAD_COMMAND` and changes nothing else (R97, R263): on the engine's turn, or when
nothing else is to come (log 1). -/
def Obligations.IllegalWordRaisesBadCommand : Prop :=
  ∀ (s : State) (e : DecodeError), s.busy = true → decode s.cmd = .error e →
    (∀ rest, s.inputs = .engineTurn :: rest →
      step s = .next { s with inputs := rest, errcode := .badCommand, err := true, busy := false, done := true }) ∧
    (s.inputs = [] → step s = .next { s with errcode := .badCommand, err := true, busy := false, done := true })

/-- The host's write to `CMD` while idle accepts the command: exactly `CMD`, `BUSY`, `DONE`, `ERR`, `ERRCODE` change, and
`irq` falls (R131). -/
def Obligations.WriteToCmdAcceptsTheCommand : Prop :=
  ∀ (s : State) (w : Word) (rest : List Input), s.busy = false →
    s.inputs = .access (.regWrite 4 0x010 w) :: rest →
    ∃ t, step s = .next t ∧ t.irq = false ∧
      t = { s with inputs := rest, cmd := w, busy := true, done := false, err := false, errcode := .none }

/-- Every command in flight completes, unless a hard reset abandons it (R130, R290, R300): after some of the inputs, and
with nothing changed till then but what the host may change while it waits (`IE`, `DONE`, `ACCERR` and its answers),
the next step completes it, or a hard reset comes next. And no run stops: after one step more than there are inputs,
nothing is in flight (that it is then at the latest is the model's choice, log 15). -/
def Obligations.EveryCommandCompletes : Prop :=
  ∀ s : State,
    (s.busy = true → ∃ n u, n ≤ s.inputs.length ∧ RunsTo s n u ∧
      u = { s with ie := u.ie, done := u.done, accErr := u.accErr, draws := u.draws, responses := u.responses,
                   inputs := s.inputs.drop n } ∧
      ((∃ v, step u = .next v ∧ v.busy = false ∧ v.done = true) ∨ ∃ rest, u.inputs = .hardReset :: rest)) ∧
    ∃ t, RunsTo s (s.inputs.length + 1) t ∧ t.busy = false ∧ t.inputs = []

/-- Every completion, with or without error, ends with `BUSY` 0, `DONE` 1, and `ERR` set iff the error code is not 0
(R267, R268); `irq` is then `IE` (R272). -/
def Obligations.CompletionSetsTheStatus : Prop :=
  ∀ (i : Instr) (s t : State), exec i s = .next t →
    t.busy = false ∧ t.done = true ∧ (t.err = true ↔ t.errcode ≠ .none) ∧ t.irq = s.ie

/-- After a precondition error nothing but the status has changed: every result register and every byte of `BUF` keeps
its value (R268, R269). -/
def Obligations.PreconditionErrorChangesOnlyTheStatus : Prop :=
  ∀ (i : Instr) (s t : State), exec i s = .next t →
    t.errcode ≠ .none → t.errcode ≠ .authFailed → t.errcode ≠ .micFailure →
    t = { s with errcode := t.errcode, err := true, busy := false, done := true }

/-- No command writes an operand register, the control register, `ACCERR`, `CMD`, or what is still to come. -/
def Obligations.CommandsWriteNoOperandRegister : Prop :=
  ∀ (i : Instr) (s t : State), exec i s = .next t →
    t = { s with
      busy := t.busy, done := t.done, err := t.err, errcode := t.errcode, outLen := t.outLen, dHdrLen := t.dHdrLen,
      dAadLen := t.dAadLen, tag := t.tag, k1 := t.k1, k2 := t.k2, dnonce := t.dnonce, daad := t.daad, buf := t.buf }

/-- A register not listed for a command in the table of R46 is neither read nor written by it: give it another value
before the command, and the outcome is the same but for that value. -/
def Obligations.UnlistedRegistersAreNeitherReadNorWritten : Prop :=
  ∀ s t x : State,
    (exec .nop s = .next t →
      exec .nop { s with
          ie := x.ie, accErr := x.accErr, keysel := x.keysel, src := x.src, dst := x.dst, len := x.len,
          aadPtr := x.aadPtr, aadLen := x.aadLen, outLen := x.outLen, dHdrLen := x.dHdrLen, dAadLen := x.dAadLen,
          key := x.key, ivctr := x.ivctr, nonce := x.nonce, tag := x.tag, k1 := x.k1, k2 := x.k2,
          dnonce := x.dnonce, daad := x.daad, buf := x.buf } =
        .next { t with
          ie := x.ie, accErr := x.accErr, keysel := x.keysel, src := x.src, dst := x.dst, len := x.len,
          aadPtr := x.aadPtr, aadLen := x.aadLen, outLen := x.outLen, dHdrLen := x.dHdrLen, dAadLen := x.dAadLen,
          key := x.key, ivctr := x.ivctr, nonce := x.nonce, tag := x.tag, k1 := x.k1, k2 := x.k2,
          dnonce := x.dnonce, daad := x.daad, buf := x.buf }) ∧
    (∀ i : Instr, (∃ p, i = .cbcEnc p) ∨ (∃ p, i = .cbcDec p) ∨ i = .ctrCrypt → exec i s = .next t →
      exec i { s with
          ie := x.ie, accErr := x.accErr, aadPtr := x.aadPtr, aadLen := x.aadLen, dHdrLen := x.dHdrLen,
          dAadLen := x.dAadLen, nonce := x.nonce, tag := x.tag, k1 := x.k1, k2 := x.k2, dnonce := x.dnonce,
          daad := x.daad } =
        .next { t with
          ie := x.ie, accErr := x.accErr, aadPtr := x.aadPtr, aadLen := x.aadLen, dHdrLen := x.dHdrLen,
          dAadLen := x.dAadLen, nonce := x.nonce, tag := x.tag, k1 := x.k1, k2 := x.k2, dnonce := x.dnonce,
          daad := x.daad }) ∧
    (exec .ccmMac s = .next t →
      exec .ccmMac { s with
          ie := x.ie, accErr := x.accErr, dst := x.dst, ivctr := x.ivctr, dHdrLen := x.dHdrLen,
          dAadLen := x.dAadLen, k1 := x.k1, k2 := x.k2, dnonce := x.dnonce, daad := x.daad } =
        .next { t with
          ie := x.ie, accErr := x.accErr, dst := x.dst, ivctr := x.ivctr, dHdrLen := x.dHdrLen,
          dAadLen := x.dAadLen, k1 := x.k1, k2 := x.k2, dnonce := x.dnonce, daad := x.daad }) ∧
    (∀ i : Instr, i = .ccmEnc ∨ i = .ccmDec → exec i s = .next t →
      exec i { s with
          ie := x.ie, accErr := x.accErr, ivctr := x.ivctr, dHdrLen := x.dHdrLen, dAadLen := x.dAadLen,
          k1 := x.k1, k2 := x.k2, dnonce := x.dnonce, daad := x.daad } =
        .next { t with
          ie := x.ie, accErr := x.accErr, ivctr := x.ivctr, dHdrLen := x.dHdrLen, dAadLen := x.dAadLen,
          k1 := x.k1, k2 := x.k2, dnonce := x.dnonce, daad := x.daad }) ∧
    (∀ l n, exec (.ccmpDerive l n) s = .next t →
      exec (.ccmpDerive l n) { s with
          ie := x.ie, accErr := x.accErr, keysel := x.keysel, key := x.key, dst := x.dst, aadPtr := x.aadPtr,
          aadLen := x.aadLen, ivctr := x.ivctr, nonce := x.nonce, outLen := x.outLen, tag := x.tag, k1 := x.k1,
          k2 := x.k2 } =
        .next { t with
          ie := x.ie, accErr := x.accErr, keysel := x.keysel, key := x.key, dst := x.dst, aadPtr := x.aadPtr,
          aadLen := x.aadLen, ivctr := x.ivctr, nonce := x.nonce, outLen := x.outLen, tag := x.tag, k1 := x.k1,
          k2 := x.k2 }) ∧
    (∀ (i : Instr) (l : Bool) (n : Byte), i = .ccmpEnc l n ∨ i = .ccmpDec l n → exec i s = .next t →
      exec i { s with
          ie := x.ie, accErr := x.accErr, dst := x.dst, aadPtr := x.aadPtr, aadLen := x.aadLen, ivctr := x.ivctr,
          nonce := x.nonce, k1 := x.k1, k2 := x.k2 } =
        .next { t with
          ie := x.ie, accErr := x.accErr, dst := x.dst, aadPtr := x.aadPtr, aadLen := x.aadLen, ivctr := x.ivctr,
          nonce := x.nonce, k1 := x.k1, k2 := x.k2 }) ∧
    (exec .cmacSubkeys s = .next t →
      exec .cmacSubkeys { s with
          ie := x.ie, accErr := x.accErr, src := x.src, dst := x.dst, len := x.len, aadPtr := x.aadPtr,
          aadLen := x.aadLen, ivctr := x.ivctr, nonce := x.nonce, outLen := x.outLen, dHdrLen := x.dHdrLen,
          dAadLen := x.dAadLen, tag := x.tag, dnonce := x.dnonce, daad := x.daad, buf := x.buf } =
        .next { t with
          ie := x.ie, accErr := x.accErr, src := x.src, dst := x.dst, len := x.len, aadPtr := x.aadPtr,
          aadLen := x.aadLen, ivctr := x.ivctr, nonce := x.nonce, outLen := x.outLen, dHdrLen := x.dHdrLen,
          dAadLen := x.dAadLen, tag := x.tag, dnonce := x.dnonce, daad := x.daad, buf := x.buf }) ∧
    (exec .cmac s = .next t →
      exec .cmac { s with
          ie := x.ie, accErr := x.accErr, dst := x.dst, aadPtr := x.aadPtr, aadLen := x.aadLen, ivctr := x.ivctr,
          nonce := x.nonce, dHdrLen := x.dHdrLen, dAadLen := x.dAadLen, dnonce := x.dnonce, daad := x.daad } =
        .next { t with
          ie := x.ie, accErr := x.accErr, dst := x.dst, aadPtr := x.aadPtr, aadLen := x.aadLen, ivctr := x.ivctr,
          nonce := x.nonce, dHdrLen := x.dHdrLen, dAadLen := x.dAadLen, dnonce := x.dnonce, daad := x.daad })

/-- `KEY` bytes beyond the selected length do not matter (R36, U20). -/
def Obligations.KeyBytesBeyondTheSelectedLengthAreIgnored : Prop :=
  ∀ (i : Instr) (s t : State) (key : Vector Byte 32), exec i s = .next t →
    key.toList.take ((keyLength s.keysel).getD 0) = s.key.toList.take ((keyLength s.keysel).getD 0) →
    exec i { s with key := key } = .next { t with key := key }

/-- `NOP` completes and does nothing else, whatever the operand registers hold (R135). -/
def Obligations.NopOnlyCompletes : Prop :=
  ∀ s : State, exec .nop s = .next { s with errcode := .none, err := false, busy := false, done := true }

/-! ### 41_cbc -/

/-- The chaining functions (R150): block `i` of the ciphertext is the encryption of plaintext block `i` XOR the IV or the
previous ciphertext block; block `i` of the plaintext is the decryption of ciphertext block `i` XOR the IV or the
previous ciphertext block; and decryption undoes encryption when the AES port satisfies R121(b). -/
def Obligations.CbcChainsAreTheRecurrences : Prop :=
  (∀ (enc : Block → Block) (iv : Block) (xs : List Block) (i : Nat) (h : i < xs.length),
    (cbcEncChain enc iv xs)[i]? = some (enc (xorBlock xs[i] ((iv :: cbcEncChain enc iv xs).getD i iv)))) ∧
  (∀ (dec : Block → Block) (iv : Block) (xs : List Block) (i : Nat) (h : i < xs.length),
    (cbcDecChain dec iv xs)[i]? = some (xorBlock (dec xs[i]) ((iv :: xs).getD i iv))) ∧
  (∀ (cfg : Config) (k : List Byte) (iv : Block) (xs : List Block), cfg.AesInverse →
    k.length = 16 ∨ k.length = 24 ∨ k.length = 32 →
    cbcDecChain (cfg.aesDec k) iv (cbcEncChain (cfg.aesEnc k) iv xs) = xs)

/-- `PadLen` padding (R153): `p` bytes of value `p`, `p` from 1 to 16, to a positive multiple of 16. -/
def Obligations.PadLenAppendsItsLength : Prop :=
  ∀ m : List Byte, ∃ p : Nat, 1 ≤ p ∧ p ≤ 16 ∧ p = 16 - m.length % 16 ∧
    padLenPad m = m ++ List.replicate p (BitVec.ofNat 8 p) ∧
    (padLenPad m).length = m.length + p ∧ (padLenPad m).length % 16 = 0 ∧ 0 < (padLenPad m).length

/-- `CBC_ENC` on legal operands (R152, R154): the CBC encryption of the plaintext, padded for `PadLen`, stands at `DST`;
`OUTLEN` is its length, a positive multiple of 16; nothing else changes. -/
def Obligations.CbcEncWritesTheCiphertext : Prop :=
  ∀ (pad : Nat) (s : State), CbcEncLegal hw pad s →
    ∃ t, exec (.cbcEnc pad) s = .next t ∧
      t = { s with buf := t.buf, outLen := t.outLen, errcode := .none, err := false, busy := false, done := true } ∧
      t.outLen.toNat = (if pad = 0 then s.len.toNat else s.len.toNat + (16 - s.len.toNat % 16)) ∧
      0 < t.outLen.toNat ∧ t.outLen.toNat % 16 = 0 ∧
      memRead t s.dst.toNat t.outLen.toNat =
        joinBlocks (cbcEncChain (hw.aesEnc (keyBytes s)) s.ivctr
          (toBlocks (if pad = 0 then srcBytes s else padLenPad (srcBytes s)))) ∧
      ∀ a, a < s.dst.toNat ∨ s.dst.toNat + t.outLen.toNat ≤ a → t.byteAt a = s.byteAt a

/-- `CBC_DEC` on legal operands (R156): all `LEN` decrypted bytes stand at `DST`, padding included; `OUTLEN` is `LEN` less
the last plaintext byte for `PadLen`, when that byte is at most `LEN`; nothing else changes. -/
def Obligations.CbcDecWritesThePlaintext : Prop :=
  ∀ (pad : Nat) (s : State), CbcDecLegal hw pad s →
    let x := joinBlocks (cbcDecChain (hw.aesDec (keyBytes s)) s.ivctr (toBlocks (srcBytes s)))
    let p := if pad = 0 then 0 else (x.getD (s.len.toNat - 1) 0).toNat
    p ≤ s.len.toNat →
    ∃ t, exec (.cbcDec pad) s = .next t ∧
      t = { s with buf := t.buf, outLen := t.outLen, errcode := .none, err := false, busy := false, done := true } ∧
      t.outLen.toNat = s.len.toNat - p ∧ memRead t s.dst.toNat s.len.toNat = x ∧
      ∀ a, a < s.dst.toNat ∨ s.dst.toNat + s.len.toNat ≤ a → t.byteAt a = s.byteAt a

/-- `CBC_ENC` and `CBC_DEC` report the first failing check in the order of R152 and R156. -/
def Obligations.CbcReportsTheFirstFailingCheck : Prop :=
  ∀ (pad : Nat) (s t : State),
    (exec (.cbcEnc pad) s = .next t →
      let o := dstRegion s (if pad = 0 then s.len.toNat else s.len.toNat + (16 - s.len.toNat % 16))
      t.errcode =
        if 2 ≤ pad then .unsupportedPadding
        else if s.keysel = 3 then .badKeylen
        else if pad = 0 ∧ (s.len.toNat = 0 ∨ s.len.toNat % 16 ≠ 0) then .invalidLength
        else if ¬((srcRegion s).Fits hw ∧ o.Fits hw ∧ o.OutputOk (srcRegion s)) then .bufRange
        else .none) ∧
    (exec (.cbcDec pad) s = .next t →
      let o := dstRegion s s.len.toNat
      let x := joinBlocks (cbcDecChain (hw.aesDec (keyBytes s)) s.ivctr (toBlocks (srcBytes s)))
      t.errcode =
        if 2 ≤ pad then .unsupportedPadding
        else if s.keysel = 3 then .badKeylen
        else if s.len.toNat = 0 ∨ s.len.toNat % 16 ≠ 0 then .invalidLength
        else if ¬((srcRegion s).Fits hw ∧ o.Fits hw ∧ o.OutputOk (srcRegion s)) then .bufRange
        else if pad ≠ 0 ∧ s.len.toNat < (x.getD (s.len.toNat - 1) 0).toNat then .invalidLength
        else .none)

/-- The round trips of R158 for both policies, on every configuration whose AES port satisfies R121(b): `CBC_DEC` of what
`CBC_ENC` wrote ends without error, reports the plaintext's length, and leaves the plaintext at its `DST`. -/
def Obligations.CbcDecUndoesCbcEnc : Prop :=
  ∀ (cfg : Config) (pad : Nat) (s : State) (d : Word), cfg.AesInverse → cfg.bufBytes < 2 ^ 32 →
    CbcEncLegal cfg pad s →
    let t := cbcEnc cfg pad s
    let s2 := { t with src := s.dst, dst := d, len := t.outLen }
    (dstRegion s2 t.outLen.toNat).Fits cfg → (dstRegion s2 t.outLen.toNat).OutputOk (srcRegion s2) →
    (cbcDec cfg pad s2).errcode = .none ∧ (cbcDec cfg pad s2).outLen = s.len ∧
    memRead (cbcDec cfg pad s2) d.toNat s.len.toNat = srcBytes s

/-! ### 42_ctr -/

/-- `ctr_stream` (R170): byte `n` is data byte `n` XOR byte `n % 16` of the encryption of the counter `c0` with its last two
bytes advanced by `n / 16` modulo 65536; the length is the data's; and the stream is its own inverse. -/
def Obligations.CtrStreamXorsTheKeystream : Prop :=
  ∀ (enc : Block → Block) (c0 : Block) (d : List Byte),
    (ctrStream enc c0 d).length = d.length ∧
    (∀ (n : Nat) (h : n < d.length),
      (ctrStream enc c0 d)[n]? =
        some (d[n] ^^^
          (enc (ofBytes 16 (c0.toList.take 14 ++
            be16 ((256 * c0[14].toNat + c0[15].toNat + n / 16) % 65536)))).toList.getD (n % 16) 0)) ∧
    ctrStream enc c0 (ctrStream enc c0 d) = d

/-- `CTR_CRYPT` on legal operands (R171): `ctr_stream` of the input stands at `DST`, `OUTLEN = LEN`; nothing else changes,
`IVCTR` among it. -/
def Obligations.CtrCryptWritesTheStream : Prop :=
  ∀ s : State, CtrLegal hw s →
    ∃ t, exec .ctrCrypt s = .next t ∧
      t = { s with buf := t.buf, outLen := s.len, errcode := .none, err := false, busy := false, done := true } ∧
      memRead t s.dst.toNat s.len.toNat = ctrStream (hw.aesEnc (keyBytes s)) s.ivctr (srcBytes s) ∧
      ∀ a, a < s.dst.toNat ∨ s.dst.toNat + s.len.toNat ≤ a → t.byteAt a = s.byteAt a

/-- The involution law (R172): `CTR_CRYPT` twice, the second time on the first's output, restores the original bytes;
above the cap it ends with `TOO_LONG` and no byte changes. -/
def Obligations.CtrCryptTwiceRestores : Prop :=
  (∀ (s : State) (d : Word), CtrLegal hw s →
    (dstRegion { s with dst := d } s.len.toNat).Fits hw →
    (dstRegion { s with dst := d } s.len.toNat).OutputOk (srcRegion { s with src := s.dst }) →
    ∃ t u, exec .ctrCrypt s = .next t ∧ exec .ctrCrypt { t with src := s.dst, dst := d } = .next u ∧
      u.errcode = .none ∧ memRead u d.toNat s.len.toNat = srcBytes s) ∧
  (∀ s t : State, s.keysel ≠ 3 → 16 * 65536 < s.len.toNat → exec .ctrCrypt s = .next t →
    t.errcode = .tooLong ∧ t.buf = s.buf)

/-! ### 43_ccm -/

/-- The block formats at this hardware's `M = 8` (log 6; R180, R182, R188): `B0` is flags, nonce and the message length,
with bit 6 of the flags iff there is AAD; `A(N, i)` is flags 0x01, nonce and `i`; and `inc16` steps from one to the
next. -/
def Obligations.CcmBlockFormats : Prop :=
  ∀ (n : Vector Byte 13),
    (∀ alen mlen : Nat, mlen ≤ 65535 → (ccmB0 hw n alen mlen).toList =
      (if 0 < alen then 0x59 else 0x19) :: n.toList ++ [BitVec.ofNat 8 (mlen / 256), BitVec.ofNat 8 mlen]) ∧
    (∀ i : Nat, i ≤ 65535 →
      (ccmCounter n i).toList = 0x01 :: n.toList ++ [BitVec.ofNat 8 (i / 256), BitVec.ofNat 8 i] ∧
      inc16 (ccmCounter n i) = ccmCounter n ((i + 1) % 65536))

/-- The CBC-MAC input blocks (R183, R184): none for empty AAD, else the 2-byte length and the AAD zero-padded, in
`ceil((len + 2) / 16)` blocks; the message zero-padded, in `ceil(len / 16)` blocks. -/
def Obligations.CcmMacInputBlocks : Prop :=
  ∀ x : List Byte,
    (x = [] → aadBlocks x = []) ∧
    (x ≠ [] → (aadBlocks x).length = (x.length + 2 + 15) / 16 ∧
      joinBlocks (aadBlocks x) = zpad ([BitVec.ofNat 8 (x.length / 256), BitVec.ofNat 8 x.length] ++ x)) ∧
    (msgBlocks x).length = (x.length + 15) / 16 ∧ joinBlocks (msgBlocks x) = zpad x

/-- `CCM_MAC` on legal operands (R190): `TAG` holds the first 8 bytes of the CBC-MAC over `B0`, the AAD blocks and the
message blocks, then zeros; `OUTLEN` is 0; nothing else changes, `BUF` among it. -/
def Obligations.CcmMacLeavesTheTag : Prop :=
  ∀ s : State, CcmMacLegal hw s →
    ∃ t, exec .ccmMac s = .next t ∧
      t = { s with tag := t.tag, outLen := 0, errcode := .none, err := false, busy := false, done := true } ∧
      t.tag.toList =
        ((aadBlocks (aadBytes s) ++ msgBlocks (srcBytes s)).foldl
          (fun x b => hw.aesEnc (keyBytes s) (xorBlock x b))
          (hw.aesEnc (keyBytes s) (ccmB0 hw s.nonce s.aadLen.toNat s.len.toNat))).toList.take 8 ++
        List.replicate 8 0

/-- `CCM_ENC` on legal operands (R192): ciphertext then encrypted tag at `DST`, the tag also in `TAG`, `OUTLEN = LEN + 8`;
nothing else changes. -/
def Obligations.CcmEncWritesCiphertextAndTag : Prop :=
  ∀ s : State, CcmEncLegal hw s →
    let enc := hw.aesEnc (keyBytes s)
    let u := xorBytes (ccmMacTag hw enc s.nonce (aadBytes s) (srcBytes s)) ((enc (ccmCounter s.nonce 0)).toList.take 8)
    ∃ t, exec .ccmEnc s = .next t ∧
      t = { s with buf := t.buf, tag := t.tag, outLen := t.outLen, errcode := .none, err := false, busy := false,
                   done := true } ∧
      t.outLen.toNat = s.len.toNat + 8 ∧ t.tag.toList = u ++ List.replicate 8 0 ∧
      memRead t s.dst.toNat (s.len.toNat + 8) = ctrStream enc (ccmCounter s.nonce 1) (srcBytes s) ++ u ∧
      ∀ a, a < s.dst.toNat ∨ s.dst.toNat + (s.len.toNat + 8) ≤ a → t.byteAt a = s.byteAt a

/-- `CCM_DEC` on legal operands (R195, R196): the decrypted bytes stand at `DST` and `TAG` is zero, whether the tags match
or not; on a match it completes with `OUTLEN = LEN - 8`, on a mismatch it ends with `AUTH_FAILED` and `OUTLEN` 0; nothing
else changes, the received tag among it unless it lies in the output region. -/
def Obligations.CcmDecWritesPlaintextAndJudgesTheTag : Prop :=
  ∀ s : State, CcmDecLegal hw s →
    let enc := hw.aesEnc (keyBytes s)
    let n := s.len.toNat - 8
    let p := ctrStream enc (ccmCounter s.nonce 1) ((srcBytes s).take n)
    let ok := ccmMacTag hw enc s.nonce (aadBytes s) p =
      xorBytes ((srcBytes s).drop n) ((enc (ccmCounter s.nonce 0)).toList.take 8)
    ∃ t, exec .ccmDec s = .next t ∧
      t = { s with buf := t.buf, tag := t.tag, outLen := t.outLen, errcode := t.errcode, err := t.err, busy := false,
                   done := true } ∧
      t.tag = Vector.replicate 16 0 ∧ memRead t s.dst.toNat n = p ∧
      (ok → t.errcode = .none ∧ t.err = false ∧ t.outLen.toNat = n) ∧
      (¬ok → t.errcode = .authFailed ∧ t.err = true ∧ t.outLen = 0) ∧
      ∀ a, a < s.dst.toNat ∨ s.dst.toNat + n ≤ a → t.byteAt a = s.byteAt a

/-- The CCM commands report the first failing check in the order of R181; if none fails, `CCM_DEC` ends with no error or
with `AUTH_FAILED`, which it ends with in no other case (R264). -/
def Obligations.CcmReportsTheFirstFailingCheck : Prop :=
  ∀ s t : State,
    (exec .ccmMac s = .next t →
      t.errcode =
        if s.keysel = 3 then .badKeylen
        else if 65279 < s.aadLen.toNat then .invalidLength
        else if 65535 < s.len.toNat then .tooLong
        else if ¬((srcRegion s).Fits hw ∧ (aadRegion s).Fits hw) then .bufRange
        else .none) ∧
    (exec .ccmEnc s = .next t →
      t.errcode =
        if s.keysel = 3 then .badKeylen
        else if 65279 < s.aadLen.toNat then .invalidLength
        else if 65535 < s.len.toNat then .tooLong
        else if ¬((srcRegion s).Fits hw ∧ (aadRegion s).Fits hw ∧ CcmOutputOk hw (dstRegion s (s.len.toNat + 8)) s)
          then .bufRange
        else .none) ∧
    (exec .ccmDec s = .next t →
      if s.keysel = 3 then t.errcode = .badKeylen
      else if 65279 < s.aadLen.toNat ∨ s.len.toNat < 8 then t.errcode = .invalidLength
      else if 65535 < s.len.toNat - 8 then t.errcode = .tooLong
      else if ¬((srcRegion s).Fits hw ∧ (aadRegion s).Fits hw ∧ CcmOutputOk hw (dstRegion s (s.len.toNat - 8)) s)
        then t.errcode = .bufRange
      else t.errcode = .none ∨ t.errcode = .authFailed)

/-- The CCM round trip (R197(a)): `CCM_DEC` of what `CCM_ENC` wrote, with the same key, nonce and AAD, ends without error
and leaves the original plaintext at its `DST`, with `OUTLEN` its length. -/
def Obligations.CcmDecUndoesCcmEnc : Prop :=
  ∀ (s : State) (d : Word), CcmEncLegal hw s →
    ∃ t, exec .ccmEnc s = .next t ∧
      let s2 := { t with src := s.dst, dst := d, len := t.outLen }
      (CcmOutputOk hw (dstRegion s2 s.len.toNat) s2 →
        ∃ u, exec .ccmDec s2 = .next u ∧ u.errcode = .none ∧ u.outLen = s.len ∧
          memRead u d.toNat s.len.toNat = srcBytes s)

/-- Tag tamper detection (R197(b), for the tag): after `CCM_ENC`, put any other 8 bytes in the place of the tag, and
`CCM_DEC` ends with `AUTH_FAILED` and `OUTLEN` 0. -/
def Obligations.CcmDecRejectsAChangedTag : Prop :=
  ∀ (s : State) (d : Word) (u' : List Byte), CcmEncLegal hw s → u'.length = 8 →
    ∃ t, exec .ccmEnc s = .next t ∧
      let s2 := { memWrite t (s.dst.toNat + s.len.toNat) u' with src := s.dst, dst := d, len := t.outLen }
      (u' ≠ t.tag.toList.take 8 → CcmOutputOk hw (dstRegion s2 s.len.toNat) s2 →
        ∃ u, exec .ccmDec s2 = .next u ∧ u.errcode = .authFailed ∧ u.outLen = 0)

/-- `CCM_ENC`'s tag is `CCM_MAC`'s XOR the first 8 bytes of the encrypted counter block 0 (R197(c)). -/
def Obligations.CcmEncTagIsTheMacEncrypted : Prop :=
  ∀ s : State, CcmEncLegal hw s →
    ∃ t u, exec .ccmMac s = .next t ∧ exec .ccmEnc s = .next u ∧
      u.tag.toList.take 8 =
        xorBytes (t.tag.toList.take 8) ((hw.aesEnc (keyBytes s) (ccmCounter s.nonce 0)).toList.take 8)

/-! ### 44_ccmp -/

/-- `CCMP_DERIVE` on a legal MPDU (R211 to R216, R220), with this hardware's masks (log 6): lengths, nonce and AAD from
the header bytes, the rest of `DAAD` zero; nothing else changes, and no key is needed. -/
def Obligations.CcmpDeriveLeavesNonceAndAad : Prop :=
  ∀ (legacy : Bool) (nfb : Byte) (s : State), CcmpDeriveLegal hw s →
    let h := fun i => s.byteAt (s.src.toNat + i)
    let str := fun i n => (List.range n).map fun j => h (i + j)
    let fc : Half := h 1 ++ h 0
    let sc : Half := h 23 ++ h 22
    let a4 : Bool := fc.getLsbD 8 && fc.getLsbD 9
    let qos : Bool := !fc.getLsbD 2 && fc.getLsbD 3 && fc.getLsbD 7
    let q := 24 + (if a4 then 6 else 0)
    let iv := q + (if qos then 2 else 0)
    let qc : Half := h (q + 1) ++ h q
    let fcm := fc &&& (if legacy then 0xF7FF else if nfb.getLsbD 4 then 0xC7FF else 0xC78F)
    let scm := sc &&& (if legacy then 0x0000 else 0x000F)
    let qcm := qc &&& (if legacy then 0xFFFF else 0x000F)
    let aad := [fcm.extractLsb' 0 8, fcm.extractLsb' 8 8] ++ str 4 6 ++ str 10 6 ++ str 16 6 ++
      [scm.extractLsb' 0 8, scm.extractLsb' 8 8] ++ (if a4 then str 24 6 else []) ++
      (if qos then [qcm.extractLsb' 0 8, qcm.extractLsb' 8 8] else [])
    ∃ t, exec (.ccmpDerive legacy nfb) s = .next t ∧
      t = { s with dnonce := t.dnonce, daad := t.daad, dHdrLen := t.dHdrLen, dAadLen := t.dAadLen, errcode := .none,
                   err := false, busy := false, done := true } ∧
      t.dHdrLen.toNat = 32 + (if a4 then 6 else 0) + (if qos then 2 else 0) ∧
      t.dAadLen.toNat = 22 + (if a4 then 6 else 0) + (if qos then 2 else 0) ∧
      t.dnonce.toList = nfb :: str 10 6 ++ [h (iv + 7), h (iv + 6), h (iv + 5), h (iv + 4), h (iv + 1), h iv] ∧
      aad.length = t.dAadLen.toNat ∧ t.daad.toList = aad ++ List.replicate (30 - aad.length) 0

/-- The lengths are one of the four pairs, and the derived AAD has `aad_len` bytes, at most 30 and more than 0 (R215,
R217). -/
def Obligations.CcmpLengthsAreOneOfFour : Prop :=
  ∀ (cfg : Config) (legacy : Bool) (nfb : Byte) (s : State),
    let d := mpduDerived cfg legacy nfb s
    (d.headerLen, d.aadLen) ∈ [(32, 22), (34, 24), (38, 28), (40, 30)] ∧ d.aad.length = d.aadLen ∧
    (cfg.Legal → 0 < d.aadLen ∧ d.aadLen ≤ cfg.ccmAadMaxLen ∧ (aadBlocks d.aad).length = 2)

/-- `CCMP_ENC` on legal operands (R224): the body is encrypted in place under the derived nonce and AAD and the tag
follows it; `OUTLEN = LEN + 8`; the derived registers are those of `CCMP_DERIVE`; nothing else changes, the header
among it. -/
def Obligations.CcmpEncProtectsTheBody : Prop :=
  ∀ (legacy : Bool) (nfb : Byte) (s : State), CcmpEncLegal hw s →
    let body := s.src.toNat + mpduHeaderLen s
    let plen := s.len.toNat - mpduHeaderLen s
    ∃ t d, exec (.ccmpEnc legacy nfb) s = .next t ∧ exec (.ccmpDerive legacy nfb) s = .next d ∧
      t = { s with
        dnonce := d.dnonce, daad := d.daad, dHdrLen := d.dHdrLen, dAadLen := d.dAadLen, buf := t.buf, tag := t.tag,
        outLen := t.outLen, errcode := .none, err := false, busy := false, done := true } ∧
      t.outLen.toNat = s.len.toNat + 8 ∧
      (let cu := ccmEncrypt hw (hw.aesEnc (keyBytes s)) d.dnonce (d.daad.toList.take d.dAadLen.toNat)
        (memRead s body plen)
       memRead t body (plen + 8) = cu.1 ++ cu.2 ∧ t.tag.toList = cu.2 ++ List.replicate 8 0) ∧
      ∀ a, a < body ∨ s.src.toNat + s.len.toNat + 8 ≤ a → t.byteAt a = s.byteAt a

/-- `CCMP_DEC` on legal operands (R228, R230): the body is decrypted in place and `TAG` cleared, whether the tags match or
not; on a match it completes with `OUTLEN = LEN - 8`, on a mismatch it ends with `MIC_FAILURE` and `OUTLEN` 0; the
derived registers are those of `CCMP_DERIVE`; nothing else changes, header and received tag among it. -/
def Obligations.CcmpDecOpensTheBodyAndJudgesTheTag : Prop :=
  ∀ (legacy : Bool) (nfb : Byte) (s : State), CcmpDecLegal hw s →
    let body := s.src.toNat + mpduHeaderLen s
    let plen := s.len.toNat - mpduHeaderLen s - 8
    ∃ t d, exec (.ccmpDec legacy nfb) s = .next t ∧ exec (.ccmpDerive legacy nfb) s = .next d ∧
      t = { s with
        dnonce := d.dnonce, daad := d.daad, dHdrLen := d.dHdrLen, dAadLen := d.dAadLen, buf := t.buf,
        tag := Vector.replicate 16 0, outLen := t.outLen, errcode := t.errcode, err := t.err, busy := false,
        done := true } ∧
      (let r := ccmDecrypt hw (hw.aesEnc (keyBytes s)) d.dnonce (d.daad.toList.take d.dAadLen.toNat)
        (memRead s body (plen + 8))
       memRead t body plen = r.1 ∧
       (r.2 = true → t.errcode = .none ∧ t.err = false ∧ t.outLen.toNat = s.len.toNat - 8) ∧
       (r.2 = false → t.errcode = .micFailure ∧ t.err = true ∧ t.outLen = 0)) ∧
      ∀ a, a < body ∨ body + plen ≤ a → t.byteAt a = s.byteAt a

/-- The CCMP commands report the first failing check in the order of R219; if none fails, `CCMP_DEC` ends with no error or
with `MIC_FAILURE`, which it ends with in no other case (R264). -/
def Obligations.CcmpReportsTheFirstFailingCheck : Prop :=
  ∀ (legacy : Bool) (nfb : Byte) (s t : State),
    (exec (.ccmpDerive legacy nfb) s = .next t →
      t.errcode =
        if s.len.toNat < 32 then .invalidLength
        else if ¬(srcRegion s).Fits hw then .bufRange
        else if s.len.toNat < mpduHeaderLen s then .invalidLength
        else .none) ∧
    (exec (.ccmpEnc legacy nfb) s = .next t →
      t.errcode =
        if s.keysel = 3 then .badKeylen
        else if s.len.toNat < 32 then .invalidLength
        else if 2097152 < s.src.toNat + (s.len.toNat + 8) then .bufRange
        else if s.len.toNat < mpduHeaderLen s then .invalidLength
        else if 65535 < s.len.toNat - mpduHeaderLen s then .tooLong
        else .none) ∧
    (exec (.ccmpDec legacy nfb) s = .next t →
      if s.keysel = 3 then t.errcode = .badKeylen
      else if s.len.toNat < 32 + 8 then t.errcode = .invalidLength
      else if ¬(srcRegion s).Fits hw then t.errcode = .bufRange
      else if s.len.toNat < mpduHeaderLen s + 8 then t.errcode = .invalidLength
      else if 65535 < s.len.toNat - mpduHeaderLen s - 8 then t.errcode = .tooLong
      else t.errcode = .none ∨ t.errcode = .micFailure)

/-- The CCMP commands are the CCM commands with the derived nonce, the derived AAD, in place over the body (R231(b)): same
bytes of `BUF`, same `TAG`, the same outcome but for the name of a mismatch. The derived AAD stands in `BUF` at `p`,
apart from the output. -/
def Obligations.CcmpIsCcmOverTheBody : Prop :=
  ∀ (legacy : Bool) (nfb : Byte) (s : State) (p : Word),
    let body := BitVec.ofNat 32 (s.src.toNat + mpduHeaderLen s)
    let s2 := fun t : State => { s with
      nonce := t.dnonce, aadPtr := p, aadLen := t.dAadLen, src := body, dst := body,
      len := BitVec.ofNat 32 (s.len.toNat - mpduHeaderLen s) }
    (CcmpEncLegal hw s →
      ∃ t, exec (.ccmpEnc legacy nfb) s = .next t ∧
        ((aadRegion (s2 t)).Fits hw → (dstRegion (s2 t) ((s2 t).len.toNat + 8)).Apart (aadRegion (s2 t)) →
         memRead s p.toNat t.dAadLen.toNat = t.daad.toList.take t.dAadLen.toNat →
          ∃ u, exec .ccmEnc (s2 t) = .next u ∧ u.errcode = .none ∧ t.errcode = .none ∧ u.tag = t.tag ∧
            u.buf = t.buf)) ∧
    (CcmpDecLegal hw s →
      ∃ t, exec (.ccmpDec legacy nfb) s = .next t ∧
        ((aadRegion (s2 t)).Fits hw → (dstRegion (s2 t) ((s2 t).len.toNat - 8)).Apart (aadRegion (s2 t)) →
         memRead s p.toNat t.dAadLen.toNat = t.daad.toList.take t.dAadLen.toNat →
          ∃ u, exec .ccmDec (s2 t) = .next u ∧ u.tag = t.tag ∧ u.buf = t.buf ∧
            ((u.errcode = .none ∧ t.errcode = .none) ∨ (u.errcode = .authFailed ∧ t.errcode = .micFailure))))

/-- The CCMP round trip (R231(a)): `CCMP_DEC` of the MPDU that `CCMP_ENC` protected, with the same key, `LEGACY`, `NFB` and
`LEN` grown by the tag, ends without error, with `OUTLEN` the original `LEN`, and restores the MPDU. -/
def Obligations.CcmpDecUndoesCcmpEnc : Prop :=
  ∀ (legacy : Bool) (nfb : Byte) (s : State), CcmpEncLegal hw s →
    ∃ t u, exec (.ccmpEnc legacy nfb) s = .next t ∧
      exec (.ccmpDec legacy nfb) { t with len := t.outLen } = .next u ∧
      u.errcode = .none ∧ u.outLen = s.len ∧ memRead u s.src.toNat s.len.toNat = srcBytes s

/-! ### 45_cmac -/

/-- `CMAC_SUBKEYS` with a legal key selector (R241, R242): `K1 = dbl(L)`, `K2 = dbl(K1)` for `L` the encryption of the zero
block; nothing else changes. -/
def Obligations.CmacSubkeysAreDoubled : Prop :=
  ∀ s : State, s.keysel ≠ 3 →
    ∃ t, exec .cmacSubkeys s = .next t ∧
      t = { s with k1 := t.k1, k2 := t.k2, errcode := .none, err := false, busy := false, done := true } ∧
      t.k1 = dbl (hw.aesEnc (keyBytes s) (Vector.replicate 16 0)) ∧ t.k2 = dbl t.k1

/-- `CMAC` on legal operands (R244, R245, R246): with `m` the message split in blocks before its last chunk, `TAG` is the
CBC-MAC from the zero block over those blocks and the last chunk, XORed with `K1` if it is full and else padded with 0x80
and zeros and XORed with `K2`; `K1`, `K2` are those of `CMAC_SUBKEYS`; `OUTLEN` is 0; nothing else changes. -/
def Obligations.CmacLeavesTheTag : Prop :=
  ∀ s : State, CmacLegal hw s →
    let enc := hw.aesEnc (keyBytes s)
    let m := srcBytes s
    let r := (m.length - 1) / 16
    let last := m.drop (16 * r)
    ∃ t u, exec .cmac s = .next t ∧ exec .cmacSubkeys s = .next u ∧
      t = { s with k1 := u.k1, k2 := u.k2, tag := t.tag, outLen := 0, errcode := .none, err := false, busy := false,
                   done := true } ∧
      t.tag = (toBlocks (m.take (16 * r)) ++
          [if last.length = 16 then xorBlock (ofBytes 16 last) u.k1
           else xorBlock (ofBytes 16 (last ++ [0x80])) u.k2]).foldl
        (fun c b => enc (xorBlock c b)) (Vector.replicate 16 0)

/-- `CTR_CRYPT` and the CMAC commands report the first failing check in the order of R171, R242 and R245. -/
def Obligations.CtrAndCmacReportTheFirstFailingCheck : Prop :=
  ∀ s t : State,
    (exec .ctrCrypt s = .next t →
      let o := dstRegion s s.len.toNat
      t.errcode =
        if s.keysel = 3 then .badKeylen
        else if 16 * 65536 < s.len.toNat then .tooLong
        else if ¬((srcRegion s).Fits hw ∧ o.Fits hw ∧ o.OutputOk (srcRegion s)) then .bufRange
        else .none) ∧
    (exec .cmacSubkeys s = .next t → t.errcode = if s.keysel = 3 then .badKeylen else .none) ∧
    (exec .cmac s = .next t →
      t.errcode = if s.keysel = 3 then .badKeylen else if ¬(srcRegion s).Fits hw then .bufRange else .none)

/-! ### 10_state, 70_reset_and_hazards: the invariant and the resets -/

/-- After reset every register reads its reset value (R21, R53): `ID` its constant, all others 0; `irq` is low, no command
is in flight, nothing is written in `BUF`. -/
def Obligations.ResetValues : Prop :=
  (∀ o r, accessedReg 4 o = some r →
    readReg hw r State.reset = if o = 0 then 0x424D4501 else 0) ∧
  State.reset.key = Vector.replicate 32 0 ∧ State.reset.irq = false ∧ State.reset.busy = false ∧ State.reset.buf = []

/-- The invariant holds at reset. -/
def Obligations.InvariantAtReset : Prop := State.reset.Inv

/-- Every step keeps the invariant: the status flags agree, `ERRCODE` is 0 while busy, `BUF` is canonical and inside its
bounds, the derived lengths are legal and the tail of `DAAD` is zero (R24, R34, R35, R43, R60). -/
def Obligations.EveryStepKeepsTheInvariant : Prop :=
  ∀ s t : State, s.Inv → step s = .next t → t.Inv

/-- The host's write to `CTRL` (R23). With bit 1 clear, idle or busy, `IE` takes bit 0 and nothing else changes. With bit 1
set it asks for a soft reset (R291, R292): while idle that puts every register at its reset value, whatever the other
bits, and leaves every byte of `BUF`; `CTRL` then reads 0. While a command is in flight it is refused: `IE` takes bit 0,
`ACCERR` is set, nothing else changes. -/
def Obligations.SoftResetClearsEveryRegisterOrIsRefused : Prop :=
  ∀ (s : State) (v : Word) (rest : List Input), s.inputs = .access (.regWrite 4 0x004 v) :: rest →
    (v.getLsbD 1 = false → step s = .next { s with inputs := rest, ie := v.getLsbD 0 }) ∧
    (v.getLsbD 1 = true → s.busy = false → ∃ t, step s = .next t ∧
      t = { State.reset with
        buf := s.buf, bufEpoch := s.bufEpoch, draws := s.draws, inputs := rest, responses := s.responses } ∧
      (∀ a, t.byteAt a = s.byteAt a) ∧ readReg hw .ctrl t = 0 ∧ t.irq = false) ∧
    (v.getLsbD 1 = true → s.busy = true →
      step s = .next { s with inputs := rest, ie := v.getLsbD 0, accErr := true })

/-- Hard reset (R290): every register at its reset value, no command in flight, and every byte of `BUF` unspecified anew:
the free value of the next epoch, whatever was written before. -/
def Obligations.HardResetAbandonsEverything : Prop :=
  ∀ (s : State) (rest : List Input), s.inputs = .hardReset :: rest →
    ∃ t, step s = .next t ∧
      t = { State.reset with
        bufEpoch := s.bufEpoch + 1, draws := s.draws, inputs := rest, responses := s.responses } ∧
      ∀ a, t.byteAt a = Config.bufPowerOn (s.bufEpoch + 1) a

/-! ### 20_memory, 60_exceptions: the host's accesses -/

/-- While a command is in flight a host access changes nothing but `IE`, `DONE`, `ACCERR` and the answer (R66, R76(c)):
`IE` only by a write to `CTRL`, `DONE` and a cleared `ACCERR` only by a write to `STATUS`, any other write sets
`ACCERR` and nothing else, and so does a read of `BUF`, with an answer that is a free value (log 4). -/
def Obligations.BusyHostAccessTouchesOnlyControlAndStatus : Prop :=
  ∀ (s : State) (a : HostAccess), s.busy = true →
    (let t := hostAccess hw a s
     t = { s with ie := t.ie, done := t.done, accErr := t.accErr, draws := t.draws, responses := t.responses } ∧
     (t.ie ≠ s.ie → ∃ v, a = .regWrite 4 0x004 v) ∧
     (t.done ≠ s.done → ∃ v, a = .regWrite 4 0x008 v) ∧
     (t.accErr = false → s.accErr = true → ∃ v, a = .regWrite 4 0x008 v)) ∧
    (∀ w o v, a = .regWrite w o v → ¬(w = 4 ∧ (o = 0x004 ∨ o = 0x008)) →
      hostAccess hw a s = { s with accErr := true }) ∧
    (∀ w b v, a = .bufWrite w b v → hostAccess hw a s = { s with accErr := true }) ∧
    (∀ w b, a = .bufRead w b →
      hostAccess hw a s =
        { s with accErr := true, draws := s.draws + 1, responses := (hostAccess hw a s).responses })

/-- `KEY` cannot be read (R36, R65, R294): a host access is answered the same and does the same whatever `KEY` holds, and
a read of its words answers 0 without `ACCERR`. That a read made while a command is in flight, whose value the spec leaves
unspecified, does not depend on `KEY` is the model's choice (log 4); the list of answers is its own (log 2). -/
def Obligations.KeyCannotBeRead : Prop :=
  ∀ (s : State) (a : HostAccess) (key : Vector Byte 32),
    (hostAccess hw a { s with key := key }).responses = (hostAccess hw a s).responses ∧
    { hostAccess hw a { s with key := key } with key := s.key } = { hostAccess hw a s with key := s.key } ∧
    (∀ k, k < 8 → hostAccess hw (.regRead 4 (0x040 + 4 * k)) s = { s with responses := 0 :: s.responses })

/-- What a legal write to a register does, while idle (R20, R27 to R32, R36 to R38, R65, R75): it stores its value and
does nothing else. A byte-array register takes the four bytes of word `k` in its bytes `4k` to `4k + 3`, `KEY` among
them, those past its end dropped; every writable register but `KEY` reads back the value, less the bits it does not have;
a read-only register ignores the write. None sets `ACCERR`. -/
def Obligations.WrittenRegistersReadBack : Prop :=
  ∀ (s : State) (v : Word), s.busy = false →
    let wr := fun o => hostAccess hw (.regWrite 4 o v) s
    let back := fun (o : Nat) (x : Word) =>
      hostAccess hw (.regRead 4 o) (wr o) = { wr o with responses := x :: s.responses }
    let lane := fun i => v.extractLsb' (8 * (i % 4)) 8
    wr 0x014 = { s with keysel := v.extractLsb' 0 2 } ∧ back 0x014 (v &&& 3) ∧
    wr 0x018 = { s with src := v } ∧ wr 0x01C = { s with dst := v } ∧ wr 0x020 = { s with len := v } ∧
    wr 0x024 = { s with aadPtr := v } ∧ wr 0x028 = { s with aadLen := v } ∧
    (∀ k, k < 8 → wr (0x040 + 4 * k) = { s with key := (wr (0x040 + 4 * k)).key } ∧
      ∀ (i : Nat) (h : i < 32), (wr (0x040 + 4 * k)).key[i] = if i / 4 = k then lane i else s.key[i]) ∧
    (∀ k, k < 4 → wr (0x060 + 4 * k) = { s with ivctr := (wr (0x060 + 4 * k)).ivctr } ∧
      ∀ (i : Nat) (h : i < 16), (wr (0x060 + 4 * k)).ivctr[i] = if i / 4 = k then lane i else s.ivctr[i]) ∧
    (∀ k, k < 4 → wr (0x070 + 4 * k) = { s with nonce := (wr (0x070 + 4 * k)).nonce } ∧
      ∀ (i : Nat) (h : i < 13), (wr (0x070 + 4 * k)).nonce[i] = if i / 4 = k then lane i else s.nonce[i]) ∧
    (∀ o ∈ [0x018, 0x01C, 0x020, 0x024, 0x028, 0x060, 0x064, 0x068, 0x06C, 0x070, 0x074, 0x078],
      back o v) ∧
    back 0x07C (v &&& 0xFF) ∧
    ∀ o, o % 4 = 0 → (o ∈ [0x000, 0x00C, 0x02C, 0x030, 0x034] ∨ (0x080 ≤ o ∧ o < 0x0E0)) → wr o = s

/-- Illegal host accesses answer 0 or are dropped, and set `ACCERR` (R44, R64, R68): of `REG`, idle or busy, with another
width, another alignment or a reserved offset; of `BUF`, while idle, with another width, another alignment or beyond its
end. Any other read inside `REG` sets no `ACCERR`. -/
def Obligations.IllegalAccessSetsAccErr : Prop :=
  ∀ (s : State) (w o : Nat) (v : Word),
    let reserved := o = 0x038 ∨ o = 0x03C ∨ (0x0E0 ≤ o ∧ o ≤ 0xFFC)
    ((w ≠ 4 ∨ o % 4 ≠ 0 ∨ reserved) →
      hostAccess hw (.regRead w o) s = { s with accErr := true, responses := 0 :: s.responses } ∧
      hostAccess hw (.regWrite w o v) s = { s with accErr := true }) ∧
    (w = 4 ∧ o % 4 = 0 ∧ o ≤ 0xFFC ∧ ¬reserved → (hostAccess hw (.regRead w o) s).accErr = s.accErr) ∧
    (s.busy = false → ¬((w = 1 ∨ w = 2 ∨ w = 4) ∧ o % w = 0 ∧ o + w ≤ 2097152) →
      hostAccess hw (.bufRead w o) s = { s with accErr := true, responses := 0 :: s.responses } ∧
      hostAccess hw (.bufWrite w o v) s = { s with accErr := true })

/-- The buffer port (R68), while idle: a legal write stores the value's low bytes, lowest byte at the lowest address, and
changes nothing else; reading the same place answers those bytes of the value and changes no state. -/
def Obligations.BufferPortStoresLittleEndian : Prop :=
  ∀ (s : State) (n a : Nat) (v : Word), s.busy = false → n = 1 ∨ n = 2 ∨ n = 4 → a % n = 0 → a + n ≤ 2097152 →
    let t := hostAccess hw (.bufWrite n a v) s
    t = { s with buf := t.buf } ∧
    (∀ i, i < n → t.byteAt (a + i) = v.extractLsb' (8 * i) 8) ∧
    (∀ b, b < a ∨ a + n ≤ b → t.byteAt b = s.byteAt b) ∧
    hostAccess hw (.bufRead n a) t = { t with responses := BitVec.ofNat 32 (v.toNat % 2 ^ (8 * n)) :: s.responses }

/-- A host write to `STATUS`, idle or busy, clears `DONE` by bit 1 and `ACCERR` by bit 3, and changes nothing else (R24);
and `ACCERR` is sticky (R271): a step that clears it is such a write, or a reset. -/
def Obligations.StatusIsWriteOneToClearAndAccErrSticky : Prop :=
  (∀ (s : State) (v : Word), hostAccess hw (.regWrite 4 0x008 v) s =
    { s with done := s.done && !v.getLsbD 1, accErr := s.accErr && !v.getLsbD 3 }) ∧
  ∀ s t : State, step s = .next t → s.accErr = true → t.accErr = false →
    (∃ v rest, s.inputs = .access (.regWrite 4 0x008 v) :: rest ∧ v.getLsbD 3 = true) ∨
    (∃ v rest, s.inputs = .access (.regWrite 4 0x004 v) :: rest ∧ v.getLsbD 1 = true ∧ s.busy = false) ∨
    (∃ rest, s.inputs = .hardReset :: rest)

/-- The interrupt line (R272): it rises only at a completion or when the host sets `IE` while `DONE` is 1. -/
def Obligations.IrqRisesOnlyAtCompletionOrEnable : Prop :=
  ∀ s t : State, step s = .next t → s.irq = false → t.irq = true →
    (s.busy = true ∧ t.busy = false ∧ s.ie = true) ∨
    (∃ v rest, s.inputs = .access (.regWrite 4 0x004 v) :: rest ∧ v.getLsbD 0 = true ∧ s.done = true)

/-- What a legal read of a register answers (R20, R22 to R43, R64, R260): `ID` its constant, `CTRL` the bit `IE`, `STATUS`
its four flags, `ERRCODE` the number of the error, each other register its value, a byte-array register byte `4k + j` of
word `k` in bits `8j + 7` to `8j` and zeros past its end, `KEY` zeros. It has no side effect (R75): nothing but the answer
is new (log 2). The result registers answer so while no command is in flight, all others at any time (R67). -/
def Obligations.ReadsAnswerTheRegister : Prop :=
  ∀ s : State,
    let reads := fun (o : Nat) (v : Word) =>
      hostAccess hw (.regRead 4 o) s = { s with responses := v :: s.responses }
    let word := fun (b : List Byte) (k : Nat) =>
      b.getD (4 * k + 3) 0 ++ b.getD (4 * k + 2) 0 ++ b.getD (4 * k + 1) 0 ++ b.getD (4 * k) 0
    reads 0x000 0x424D4501 ∧
    reads 0x004 (BitVec.ofNat 32 s.ie.toNat) ∧
    reads 0x008 (BitVec.ofNat 32 (s.busy.toNat + 2 * s.done.toNat + 4 * s.err.toNat + 8 * s.accErr.toNat)) ∧
    (∀ p ∈ [(ErrCode.none, (0 : Word)), (.invalidLength, 1), (.tooLong, 2), (.authFailed, 3), (.micFailure, 4),
        (.unsupportedPadding, 5), (.badCommand, 6), (.bufRange, 7), (.badKeylen, 8)],
      s.errcode = p.1 → reads 0x00C p.2) ∧
    reads 0x010 s.cmd ∧ reads 0x014 (BitVec.ofNat 32 s.keysel.toNat) ∧
    reads 0x018 s.src ∧ reads 0x01C s.dst ∧ reads 0x020 s.len ∧ reads 0x024 s.aadPtr ∧ reads 0x028 s.aadLen ∧
    (∀ k, k < 8 → reads (0x040 + 4 * k) 0) ∧
    (∀ k, k < 4 → reads (0x060 + 4 * k) (word s.ivctr.toList k) ∧ reads (0x070 + 4 * k) (word s.nonce.toList k)) ∧
    (s.busy = false →
      reads 0x02C s.outLen ∧ reads 0x030 s.dHdrLen ∧ reads 0x034 s.dAadLen ∧
      (∀ k, k < 4 →
        reads (0x080 + 4 * k) (word s.tag.toList k) ∧ reads (0x090 + 4 * k) (word s.k1.toList k) ∧
        reads (0x0A0 + 4 * k) (word s.k2.toList k) ∧ reads (0x0B0 + 4 * k) (word s.dnonce.toList k)) ∧
      ∀ k, k < 8 → reads (0x0C0 + 4 * k) (word s.daad.toList k))
end

