-- ==== Sys2Proof/Laws/Bytes.lean ====
section
/-! SUPPORT. The laws of byte strings and blocks (00_scope R17; 40_block_primitives R125, R126, R128). -/

namespace Sys2Proof.Machine

/-! ### Registers of bytes -/

theorem toList_ofBytes (n : Nat) (l : List Byte) : (ofBytes n l).toList = (l ++ List.replicate n 0).take n := by
  simp [ofBytes, Vector.toList]

theorem toList_ofBytes_of_length {n : Nat} {l : List Byte} (h : l.length = n) : (ofBytes n l).toList = l := by
  rw [toList_ofBytes, ← h]; simp

@[simp] theorem ofBytes_toList {n : Nat} (v : Vector Byte n) : ofBytes n v.toList = v := by
  apply Vector.toList_inj.1
  exact toList_ofBytes_of_length (by simp)

/-- Byte `i` of a register filled from a string: the string's byte, zero past its end. -/
theorem getD_toList_ofBytes (n : Nat) (l : List Byte) (i : Nat) (h : i < n) :
    (ofBytes n l).toList.getD i 0 = l.getD i 0 := by
  simp only [toList_ofBytes, List.getD_eq_getElem?_getD, List.getElem?_take, h, if_true, List.getElem?_append]
  split
  · rfl
  · next hl =>
    rw [List.getElem?_eq_none (by omega : l.length ≤ i)]
    simp only [List.getElem?_replicate]
    split <;> rfl

/-- The first `l.length` bytes of a register filled from a string that fits are the string. -/
theorem take_toList_ofBytes {n : Nat} {l : List Byte} (h : l.length ≤ n) :
    (ofBytes n l).toList.take l.length = l := by
  rw [toList_ofBytes, List.take_take, Nat.min_eq_left h]; simp

theorem replicate_eq_ofBytes (n : Nat) : Vector.replicate n (0 : Byte) = ofBytes n [] := by
  apply Vector.toList_inj.1
  rw [toList_ofBytes]; simp

/-! ### Exclusive-or -/

@[simp] theorem length_xorBytes (a b : List Byte) : (xorBytes a b).length = min a.length b.length := by
  simp [xorBytes]

theorem getElem_xorBytes (a b : List Byte) (i : Nat) (h : i < (xorBytes a b).length) :
    (xorBytes a b)[i] = a[i]'(by simp at h; omega) ^^^ b[i]'(by simp at h; omega) := by
  simp [xorBytes]

theorem xorBytes_comm (a b : List Byte) : xorBytes a b = xorBytes b a := by
  apply List.ext_getElem (by simp [Nat.min_comm])
  intro i h1 h2
  rw [getElem_xorBytes, getElem_xorBytes, BitVec.xor_comm]

/-- XOR with the same string twice restores a string that is not longer (R170). -/
theorem xorBytes_cancel (a b : List Byte) (h : a.length ≤ b.length) : xorBytes (xorBytes a b) b = a := by
  apply List.ext_getElem (by simp; omega)
  intro i h1 h2
  rw [getElem_xorBytes, getElem_xorBytes, BitVec.xor_assoc]; simp

theorem toList_xorBlock (a b : Block) : (xorBlock a b).toList = xorBytes a.toList b.toList :=
  toList_ofBytes_of_length (by simp)

theorem xorBlock_comm (a b : Block) : xorBlock a b = xorBlock b a := by
  simp [xorBlock, xorBytes_comm]

theorem xorBlock_cancel (a b : Block) : xorBlock (xorBlock a b) b = a := by
  apply Vector.toList_inj.1
  rw [toList_xorBlock, toList_xorBlock, xorBytes_cancel _ _ (by simp)]

/-! ### Chunks and blocks -/

theorem chunksFrom_nil (fuel : Nat) : chunksFrom fuel [] = [] := by cases fuel <;> simp [chunksFrom]

/-- Any fuel that covers the string gives the same chunks. -/
theorem chunksFrom_fuel (f g : Nat) (s : List Byte) (hf : s.length ≤ f) (hg : s.length ≤ g) :
    chunksFrom f s = chunksFrom g s := by
  induction f generalizing g s with
  | zero => have : s = [] := List.length_eq_zero_iff.1 (by omega); subst this; simp [chunksFrom_nil]
  | succ f ih =>
    cases g with
    | zero => have : s = [] := List.length_eq_zero_iff.1 (by omega); subst this; simp [chunksFrom_nil]
    | succ g =>
      simp only [chunksFrom]
      split
      · rfl
      · next hs =>
        have : 0 < s.length := by cases s <;> simp_all
        rw [ih g (s.drop 16) (by simp; omega) (by simp; omega)]

@[simp] theorem blocks_nil : blocks [] = [] := rfl

/-- A non-empty string's first chunk, and the rest (R128). -/
theorem blocks_cons (s : List Byte) (h : s ≠ []) : blocks s = s.take 16 :: blocks (s.drop 16) := by
  unfold blocks
  cases s with
  | nil => exact absurd rfl h
  | cons b t =>
    simp only [List.length_cons, chunksFrom, List.isEmpty_cons, Bool.false_eq_true, if_false, List.cons.injEq, true_and]
    exact chunksFrom_fuel _ _ _ (by simp) (by simp)

/-- Induction along the chunks of a string. -/
theorem chunk_induction {P : List Byte → Prop} (nil : P []) (cons : ∀ s, s ≠ [] → P (s.drop 16) → P s) (s : List Byte) :
    P s := by
  induction h : s.length using Nat.strong_induction_on generalizing s with
  | _ n ih =>
    by_cases hs : s = []
    · exact hs ▸ nil
    · have : 0 < s.length := List.length_pos_iff.2 hs
      exact cons s hs (ih _ (by simp; omega) (s.drop 16) rfl)

/-- The chunks of a string make it up again (R128). -/
@[simp] theorem flatten_blocks (s : List Byte) : (blocks s).flatten = s := by
  induction s using chunk_induction with
  | nil => rfl
  | cons s hs ih => rw [blocks_cons s hs, List.flatten_cons, ih, List.take_append_drop]

theorem length_blocks (s : List Byte) : (blocks s).length = (s.length + 15) / 16 := by
  induction s using chunk_induction with
  | nil => rfl
  | cons s hs ih =>
    have : 0 < s.length := List.length_pos_iff.2 hs
    rw [blocks_cons s hs, List.length_cons, ih, List.length_drop]; omega

/-- Every chunk has 1 to 16 bytes (R128). -/
theorem length_of_mem_blocks (s : List Byte) : ∀ c ∈ blocks s, 1 ≤ c.length ∧ c.length ≤ 16 := by
  induction s using chunk_induction with
  | nil => simp
  | cons s hs ih =>
    have : 0 < s.length := List.length_pos_iff.2 hs
    rw [blocks_cons s hs]
    intro c hc
    rcases List.mem_cons.1 hc with rfl | hc
    · simp; omega
    · exact ih c hc

/-- Of a string of whole blocks, every chunk has 16 bytes (R128). -/
theorem length_of_mem_blocks_full (s : List Byte) (h : s.length % 16 = 0) : ∀ c ∈ blocks s, c.length = 16 := by
  induction s using chunk_induction with
  | nil => simp
  | cons s hs ih =>
    have : 0 < s.length := List.length_pos_iff.2 hs
    rw [blocks_cons s hs]
    intro c hc
    rcases List.mem_cons.1 hc with rfl | hc
    · simp; omega
    · exact ih (by simp; omega) c hc

@[simp] theorem length_toBlocks (s : List Byte) : (toBlocks s).length = (s.length + 15) / 16 := by
  simp [toBlocks, length_blocks]

@[simp] theorem joinBlocks_nil : joinBlocks [] = [] := rfl

@[simp] theorem joinBlocks_cons (b : Block) (bs : List Block) : joinBlocks (b :: bs) = b.toList ++ joinBlocks bs := by
  simp [joinBlocks]

@[simp] theorem length_joinBlocks (bs : List Block) : (joinBlocks bs).length = 16 * bs.length := by
  induction bs with
  | nil => rfl
  | cons b bs ih => simp [ih]; omega

/-- A string of whole blocks is the concatenation of its blocks (R150). -/
theorem joinBlocks_toBlocks (s : List Byte) (h : s.length % 16 = 0) : joinBlocks (toBlocks s) = s := by
  have hf := length_of_mem_blocks_full s h
  have : (toBlocks s).map Vector.toList = blocks s := by
    simp only [toBlocks, List.map_map]
    conv_rhs => rw [← List.map_id (blocks s)]
    exact List.map_congr_left fun c hc => toList_ofBytes_of_length (hf c hc)
  rw [joinBlocks, this, flatten_blocks]

/-- The blocks of a concatenation of blocks (R150). -/
@[simp] theorem toBlocks_joinBlocks (bs : List Block) : toBlocks (joinBlocks bs) = bs := by
  induction bs with
  | nil => rfl
  | cons b bs ih =>
    have hne : b.toList ++ joinBlocks bs ≠ [] := by
      intro h
      have := congrArg List.length h
      simp at this
    have htake : (b.toList ++ joinBlocks bs).take 16 = b.toList := by simp
    have hdrop : (b.toList ++ joinBlocks bs).drop 16 = joinBlocks bs := by simp
    unfold toBlocks at ih ⊢
    rw [joinBlocks_cons, blocks_cons _ hne, htake, hdrop, List.map_cons, ih, ofBytes_toList]

theorem length_zpad (s : List Byte) : (zpad s).length % 16 = 0 := by simp [zpad]; omega

/-! ### Big-endian values and the counter -/

theorem length_be16 (n : Nat) : (be16 n).length = 2 := rfl

theorem length_beBytes (n v : Nat) : (beBytes n v).length = n := by simp [beBytes]

theorem toList_inc16 (c : Block) :
    (inc16 c).toList = c.toList.take 14 ++ be16 ((beValue (slice c.toList 14 16) + 1) % 65536) := by
  unfold inc16
  rw [toList_ofBytes_of_length (by simp [slice, be16])]
  simp [slice]

end Sys2Proof.Machine
end

