-- ==== Sys2Proof/Laws/State.lean ====
section
/-! SUPPORT. What each update of the state does to each field: one lemma per field per update, so that no proof unfolds a
record update. -/

namespace Sys2Proof.Machine

/-! ### `setAccErr` (R271) -/

@[simp] theorem setAccErr_ie (s : State) : (setAccErr s).ie = s.ie := rfl
@[simp] theorem setAccErr_busy (s : State) : (setAccErr s).busy = s.busy := rfl
@[simp] theorem setAccErr_done (s : State) : (setAccErr s).done = s.done := rfl
@[simp] theorem setAccErr_err (s : State) : (setAccErr s).err = s.err := rfl
@[simp] theorem setAccErr_accErr (s : State) : (setAccErr s).accErr = true := rfl
@[simp] theorem setAccErr_errcode (s : State) : (setAccErr s).errcode = s.errcode := rfl
@[simp] theorem setAccErr_cmd (s : State) : (setAccErr s).cmd = s.cmd := rfl
@[simp] theorem setAccErr_keysel (s : State) : (setAccErr s).keysel = s.keysel := rfl
@[simp] theorem setAccErr_src (s : State) : (setAccErr s).src = s.src := rfl
@[simp] theorem setAccErr_dst (s : State) : (setAccErr s).dst = s.dst := rfl
@[simp] theorem setAccErr_len (s : State) : (setAccErr s).len = s.len := rfl
@[simp] theorem setAccErr_aadPtr (s : State) : (setAccErr s).aadPtr = s.aadPtr := rfl
@[simp] theorem setAccErr_aadLen (s : State) : (setAccErr s).aadLen = s.aadLen := rfl
@[simp] theorem setAccErr_outLen (s : State) : (setAccErr s).outLen = s.outLen := rfl
@[simp] theorem setAccErr_dHdrLen (s : State) : (setAccErr s).dHdrLen = s.dHdrLen := rfl
@[simp] theorem setAccErr_dAadLen (s : State) : (setAccErr s).dAadLen = s.dAadLen := rfl
@[simp] theorem setAccErr_key (s : State) : (setAccErr s).key = s.key := rfl
@[simp] theorem setAccErr_ivctr (s : State) : (setAccErr s).ivctr = s.ivctr := rfl
@[simp] theorem setAccErr_nonce (s : State) : (setAccErr s).nonce = s.nonce := rfl
@[simp] theorem setAccErr_tag (s : State) : (setAccErr s).tag = s.tag := rfl
@[simp] theorem setAccErr_k1 (s : State) : (setAccErr s).k1 = s.k1 := rfl
@[simp] theorem setAccErr_k2 (s : State) : (setAccErr s).k2 = s.k2 := rfl
@[simp] theorem setAccErr_dnonce (s : State) : (setAccErr s).dnonce = s.dnonce := rfl
@[simp] theorem setAccErr_daad (s : State) : (setAccErr s).daad = s.daad := rfl
@[simp] theorem setAccErr_buf (s : State) : (setAccErr s).buf = s.buf := rfl
@[simp] theorem setAccErr_bufEpoch (s : State) : (setAccErr s).bufEpoch = s.bufEpoch := rfl
@[simp] theorem setAccErr_draws (s : State) : (setAccErr s).draws = s.draws := rfl
@[simp] theorem setAccErr_inputs (s : State) : (setAccErr s).inputs = s.inputs := rfl
@[simp] theorem setAccErr_responses (s : State) : (setAccErr s).responses = s.responses := rfl

/-! ### `writeStatus` (R24) -/

@[simp] theorem writeStatus_ie (v : Word) (s : State) : (writeStatus v s).ie = s.ie := rfl
@[simp] theorem writeStatus_busy (v : Word) (s : State) : (writeStatus v s).busy = s.busy := rfl
@[simp] theorem writeStatus_done (v : Word) (s : State) : (writeStatus v s).done = (s.done && !v.getLsbD 1) := rfl
@[simp] theorem writeStatus_err (v : Word) (s : State) : (writeStatus v s).err = s.err := rfl
@[simp] theorem writeStatus_accErr (v : Word) (s : State) :
    (writeStatus v s).accErr = (s.accErr && !v.getLsbD 3) := rfl
@[simp] theorem writeStatus_errcode (v : Word) (s : State) : (writeStatus v s).errcode = s.errcode := rfl
@[simp] theorem writeStatus_cmd (v : Word) (s : State) : (writeStatus v s).cmd = s.cmd := rfl
@[simp] theorem writeStatus_keysel (v : Word) (s : State) : (writeStatus v s).keysel = s.keysel := rfl
@[simp] theorem writeStatus_src (v : Word) (s : State) : (writeStatus v s).src = s.src := rfl
@[simp] theorem writeStatus_dst (v : Word) (s : State) : (writeStatus v s).dst = s.dst := rfl
@[simp] theorem writeStatus_len (v : Word) (s : State) : (writeStatus v s).len = s.len := rfl
@[simp] theorem writeStatus_aadPtr (v : Word) (s : State) : (writeStatus v s).aadPtr = s.aadPtr := rfl
@[simp] theorem writeStatus_aadLen (v : Word) (s : State) : (writeStatus v s).aadLen = s.aadLen := rfl
@[simp] theorem writeStatus_outLen (v : Word) (s : State) : (writeStatus v s).outLen = s.outLen := rfl
@[simp] theorem writeStatus_dHdrLen (v : Word) (s : State) : (writeStatus v s).dHdrLen = s.dHdrLen := rfl
@[simp] theorem writeStatus_dAadLen (v : Word) (s : State) : (writeStatus v s).dAadLen = s.dAadLen := rfl
@[simp] theorem writeStatus_key (v : Word) (s : State) : (writeStatus v s).key = s.key := rfl
@[simp] theorem writeStatus_ivctr (v : Word) (s : State) : (writeStatus v s).ivctr = s.ivctr := rfl
@[simp] theorem writeStatus_nonce (v : Word) (s : State) : (writeStatus v s).nonce = s.nonce := rfl
@[simp] theorem writeStatus_tag (v : Word) (s : State) : (writeStatus v s).tag = s.tag := rfl
@[simp] theorem writeStatus_k1 (v : Word) (s : State) : (writeStatus v s).k1 = s.k1 := rfl
@[simp] theorem writeStatus_k2 (v : Word) (s : State) : (writeStatus v s).k2 = s.k2 := rfl
@[simp] theorem writeStatus_dnonce (v : Word) (s : State) : (writeStatus v s).dnonce = s.dnonce := rfl
@[simp] theorem writeStatus_daad (v : Word) (s : State) : (writeStatus v s).daad = s.daad := rfl
@[simp] theorem writeStatus_buf (v : Word) (s : State) : (writeStatus v s).buf = s.buf := rfl
@[simp] theorem writeStatus_bufEpoch (v : Word) (s : State) : (writeStatus v s).bufEpoch = s.bufEpoch := rfl
@[simp] theorem writeStatus_draws (v : Word) (s : State) : (writeStatus v s).draws = s.draws := rfl
@[simp] theorem writeStatus_inputs (v : Word) (s : State) : (writeStatus v s).inputs = s.inputs := rfl
@[simp] theorem writeStatus_responses (v : Word) (s : State) : (writeStatus v s).responses = s.responses := rfl

/-! ### `memWrite` (R62) -/

@[simp] theorem memWrite_ie (s : State) (a : Nat) (v : List Byte) : (memWrite s a v).ie = s.ie := rfl
@[simp] theorem memWrite_busy (s : State) (a : Nat) (v : List Byte) : (memWrite s a v).busy = s.busy := rfl
@[simp] theorem memWrite_done (s : State) (a : Nat) (v : List Byte) : (memWrite s a v).done = s.done := rfl
@[simp] theorem memWrite_err (s : State) (a : Nat) (v : List Byte) : (memWrite s a v).err = s.err := rfl
@[simp] theorem memWrite_accErr (s : State) (a : Nat) (v : List Byte) : (memWrite s a v).accErr = s.accErr := rfl
@[simp] theorem memWrite_errcode (s : State) (a : Nat) (v : List Byte) : (memWrite s a v).errcode = s.errcode := rfl
@[simp] theorem memWrite_cmd (s : State) (a : Nat) (v : List Byte) : (memWrite s a v).cmd = s.cmd := rfl
@[simp] theorem memWrite_keysel (s : State) (a : Nat) (v : List Byte) : (memWrite s a v).keysel = s.keysel := rfl
@[simp] theorem memWrite_src (s : State) (a : Nat) (v : List Byte) : (memWrite s a v).src = s.src := rfl
@[simp] theorem memWrite_dst (s : State) (a : Nat) (v : List Byte) : (memWrite s a v).dst = s.dst := rfl
@[simp] theorem memWrite_len (s : State) (a : Nat) (v : List Byte) : (memWrite s a v).len = s.len := rfl
@[simp] theorem memWrite_aadPtr (s : State) (a : Nat) (v : List Byte) : (memWrite s a v).aadPtr = s.aadPtr := rfl
@[simp] theorem memWrite_aadLen (s : State) (a : Nat) (v : List Byte) : (memWrite s a v).aadLen = s.aadLen := rfl
@[simp] theorem memWrite_outLen (s : State) (a : Nat) (v : List Byte) : (memWrite s a v).outLen = s.outLen := rfl
@[simp] theorem memWrite_dHdrLen (s : State) (a : Nat) (v : List Byte) : (memWrite s a v).dHdrLen = s.dHdrLen := rfl
@[simp] theorem memWrite_dAadLen (s : State) (a : Nat) (v : List Byte) : (memWrite s a v).dAadLen = s.dAadLen := rfl
@[simp] theorem memWrite_key (s : State) (a : Nat) (v : List Byte) : (memWrite s a v).key = s.key := rfl
@[simp] theorem memWrite_ivctr (s : State) (a : Nat) (v : List Byte) : (memWrite s a v).ivctr = s.ivctr := rfl
@[simp] theorem memWrite_nonce (s : State) (a : Nat) (v : List Byte) : (memWrite s a v).nonce = s.nonce := rfl
@[simp] theorem memWrite_tag (s : State) (a : Nat) (v : List Byte) : (memWrite s a v).tag = s.tag := rfl
@[simp] theorem memWrite_k1 (s : State) (a : Nat) (v : List Byte) : (memWrite s a v).k1 = s.k1 := rfl
@[simp] theorem memWrite_k2 (s : State) (a : Nat) (v : List Byte) : (memWrite s a v).k2 = s.k2 := rfl
@[simp] theorem memWrite_dnonce (s : State) (a : Nat) (v : List Byte) : (memWrite s a v).dnonce = s.dnonce := rfl
@[simp] theorem memWrite_daad (s : State) (a : Nat) (v : List Byte) : (memWrite s a v).daad = s.daad := rfl
@[simp] theorem memWrite_buf (s : State) (a : Nat) (v : List Byte) :
    (memWrite s a v).buf = s.buf.writeBytes a v := rfl
@[simp] theorem memWrite_bufEpoch (s : State) (a : Nat) (v : List Byte) :
    (memWrite s a v).bufEpoch = s.bufEpoch := rfl
@[simp] theorem memWrite_draws (s : State) (a : Nat) (v : List Byte) : (memWrite s a v).draws = s.draws := rfl
@[simp] theorem memWrite_inputs (s : State) (a : Nat) (v : List Byte) : (memWrite s a v).inputs = s.inputs := rfl
@[simp] theorem memWrite_responses (s : State) (a : Nat) (v : List Byte) :
    (memWrite s a v).responses = s.responses := rfl

/-! ### `acceptCommand` (R131) -/

@[simp] theorem acceptCommand_ie (w : Word) (s : State) : (acceptCommand w s).ie = s.ie := rfl
@[simp] theorem acceptCommand_busy (w : Word) (s : State) : (acceptCommand w s).busy = true := rfl
@[simp] theorem acceptCommand_done (w : Word) (s : State) : (acceptCommand w s).done = false := rfl
@[simp] theorem acceptCommand_err (w : Word) (s : State) : (acceptCommand w s).err = false := rfl
@[simp] theorem acceptCommand_accErr (w : Word) (s : State) : (acceptCommand w s).accErr = s.accErr := rfl
@[simp] theorem acceptCommand_errcode (w : Word) (s : State) : (acceptCommand w s).errcode = .none := rfl
@[simp] theorem acceptCommand_cmd (w : Word) (s : State) : (acceptCommand w s).cmd = w := rfl
@[simp] theorem acceptCommand_keysel (w : Word) (s : State) : (acceptCommand w s).keysel = s.keysel := rfl
@[simp] theorem acceptCommand_src (w : Word) (s : State) : (acceptCommand w s).src = s.src := rfl
@[simp] theorem acceptCommand_dst (w : Word) (s : State) : (acceptCommand w s).dst = s.dst := rfl
@[simp] theorem acceptCommand_len (w : Word) (s : State) : (acceptCommand w s).len = s.len := rfl
@[simp] theorem acceptCommand_aadPtr (w : Word) (s : State) : (acceptCommand w s).aadPtr = s.aadPtr := rfl
@[simp] theorem acceptCommand_aadLen (w : Word) (s : State) : (acceptCommand w s).aadLen = s.aadLen := rfl
@[simp] theorem acceptCommand_outLen (w : Word) (s : State) : (acceptCommand w s).outLen = s.outLen := rfl
@[simp] theorem acceptCommand_dHdrLen (w : Word) (s : State) : (acceptCommand w s).dHdrLen = s.dHdrLen := rfl
@[simp] theorem acceptCommand_dAadLen (w : Word) (s : State) : (acceptCommand w s).dAadLen = s.dAadLen := rfl
@[simp] theorem acceptCommand_key (w : Word) (s : State) : (acceptCommand w s).key = s.key := rfl
@[simp] theorem acceptCommand_ivctr (w : Word) (s : State) : (acceptCommand w s).ivctr = s.ivctr := rfl
@[simp] theorem acceptCommand_nonce (w : Word) (s : State) : (acceptCommand w s).nonce = s.nonce := rfl
@[simp] theorem acceptCommand_tag (w : Word) (s : State) : (acceptCommand w s).tag = s.tag := rfl
@[simp] theorem acceptCommand_k1 (w : Word) (s : State) : (acceptCommand w s).k1 = s.k1 := rfl
@[simp] theorem acceptCommand_k2 (w : Word) (s : State) : (acceptCommand w s).k2 = s.k2 := rfl
@[simp] theorem acceptCommand_dnonce (w : Word) (s : State) : (acceptCommand w s).dnonce = s.dnonce := rfl
@[simp] theorem acceptCommand_daad (w : Word) (s : State) : (acceptCommand w s).daad = s.daad := rfl
@[simp] theorem acceptCommand_buf (w : Word) (s : State) : (acceptCommand w s).buf = s.buf := rfl
@[simp] theorem acceptCommand_bufEpoch (w : Word) (s : State) : (acceptCommand w s).bufEpoch = s.bufEpoch := rfl
@[simp] theorem acceptCommand_draws (w : Word) (s : State) : (acceptCommand w s).draws = s.draws := rfl
@[simp] theorem acceptCommand_inputs (w : Word) (s : State) : (acceptCommand w s).inputs = s.inputs := rfl
@[simp] theorem acceptCommand_responses (w : Word) (s : State) : (acceptCommand w s).responses = s.responses := rfl

/-! ### `complete` (R267) -/

@[simp] theorem complete_ie (s : State) : (complete s).ie = s.ie := rfl
@[simp] theorem complete_busy (s : State) : (complete s).busy = false := rfl
@[simp] theorem complete_done (s : State) : (complete s).done = true := rfl
@[simp] theorem complete_err (s : State) : (complete s).err = false := rfl
@[simp] theorem complete_accErr (s : State) : (complete s).accErr = s.accErr := rfl
@[simp] theorem complete_errcode (s : State) : (complete s).errcode = .none := rfl
@[simp] theorem complete_cmd (s : State) : (complete s).cmd = s.cmd := rfl
@[simp] theorem complete_keysel (s : State) : (complete s).keysel = s.keysel := rfl
@[simp] theorem complete_src (s : State) : (complete s).src = s.src := rfl
@[simp] theorem complete_dst (s : State) : (complete s).dst = s.dst := rfl
@[simp] theorem complete_len (s : State) : (complete s).len = s.len := rfl
@[simp] theorem complete_aadPtr (s : State) : (complete s).aadPtr = s.aadPtr := rfl
@[simp] theorem complete_aadLen (s : State) : (complete s).aadLen = s.aadLen := rfl
@[simp] theorem complete_outLen (s : State) : (complete s).outLen = s.outLen := rfl
@[simp] theorem complete_dHdrLen (s : State) : (complete s).dHdrLen = s.dHdrLen := rfl
@[simp] theorem complete_dAadLen (s : State) : (complete s).dAadLen = s.dAadLen := rfl
@[simp] theorem complete_key (s : State) : (complete s).key = s.key := rfl
@[simp] theorem complete_ivctr (s : State) : (complete s).ivctr = s.ivctr := rfl
@[simp] theorem complete_nonce (s : State) : (complete s).nonce = s.nonce := rfl
@[simp] theorem complete_tag (s : State) : (complete s).tag = s.tag := rfl
@[simp] theorem complete_k1 (s : State) : (complete s).k1 = s.k1 := rfl
@[simp] theorem complete_k2 (s : State) : (complete s).k2 = s.k2 := rfl
@[simp] theorem complete_dnonce (s : State) : (complete s).dnonce = s.dnonce := rfl
@[simp] theorem complete_daad (s : State) : (complete s).daad = s.daad := rfl
@[simp] theorem complete_buf (s : State) : (complete s).buf = s.buf := rfl
@[simp] theorem complete_bufEpoch (s : State) : (complete s).bufEpoch = s.bufEpoch := rfl
@[simp] theorem complete_draws (s : State) : (complete s).draws = s.draws := rfl
@[simp] theorem complete_inputs (s : State) : (complete s).inputs = s.inputs := rfl
@[simp] theorem complete_responses (s : State) : (complete s).responses = s.responses := rfl

/-! ### `raiseError` (R268) -/

@[simp] theorem raiseError_ie (e : ErrCode) (s : State) : (raiseError e s).ie = s.ie := rfl
@[simp] theorem raiseError_busy (e : ErrCode) (s : State) : (raiseError e s).busy = false := rfl
@[simp] theorem raiseError_done (e : ErrCode) (s : State) : (raiseError e s).done = true := rfl
@[simp] theorem raiseError_err (e : ErrCode) (s : State) : (raiseError e s).err = true := rfl
@[simp] theorem raiseError_accErr (e : ErrCode) (s : State) : (raiseError e s).accErr = s.accErr := rfl
@[simp] theorem raiseError_errcode (e : ErrCode) (s : State) : (raiseError e s).errcode = e := rfl
@[simp] theorem raiseError_cmd (e : ErrCode) (s : State) : (raiseError e s).cmd = s.cmd := rfl
@[simp] theorem raiseError_keysel (e : ErrCode) (s : State) : (raiseError e s).keysel = s.keysel := rfl
@[simp] theorem raiseError_src (e : ErrCode) (s : State) : (raiseError e s).src = s.src := rfl
@[simp] theorem raiseError_dst (e : ErrCode) (s : State) : (raiseError e s).dst = s.dst := rfl
@[simp] theorem raiseError_len (e : ErrCode) (s : State) : (raiseError e s).len = s.len := rfl
@[simp] theorem raiseError_aadPtr (e : ErrCode) (s : State) : (raiseError e s).aadPtr = s.aadPtr := rfl
@[simp] theorem raiseError_aadLen (e : ErrCode) (s : State) : (raiseError e s).aadLen = s.aadLen := rfl
@[simp] theorem raiseError_outLen (e : ErrCode) (s : State) : (raiseError e s).outLen = s.outLen := rfl
@[simp] theorem raiseError_dHdrLen (e : ErrCode) (s : State) : (raiseError e s).dHdrLen = s.dHdrLen := rfl
@[simp] theorem raiseError_dAadLen (e : ErrCode) (s : State) : (raiseError e s).dAadLen = s.dAadLen := rfl
@[simp] theorem raiseError_key (e : ErrCode) (s : State) : (raiseError e s).key = s.key := rfl
@[simp] theorem raiseError_ivctr (e : ErrCode) (s : State) : (raiseError e s).ivctr = s.ivctr := rfl
@[simp] theorem raiseError_nonce (e : ErrCode) (s : State) : (raiseError e s).nonce = s.nonce := rfl
@[simp] theorem raiseError_tag (e : ErrCode) (s : State) : (raiseError e s).tag = s.tag := rfl
@[simp] theorem raiseError_k1 (e : ErrCode) (s : State) : (raiseError e s).k1 = s.k1 := rfl
@[simp] theorem raiseError_k2 (e : ErrCode) (s : State) : (raiseError e s).k2 = s.k2 := rfl
@[simp] theorem raiseError_dnonce (e : ErrCode) (s : State) : (raiseError e s).dnonce = s.dnonce := rfl
@[simp] theorem raiseError_daad (e : ErrCode) (s : State) : (raiseError e s).daad = s.daad := rfl
@[simp] theorem raiseError_buf (e : ErrCode) (s : State) : (raiseError e s).buf = s.buf := rfl
@[simp] theorem raiseError_bufEpoch (e : ErrCode) (s : State) : (raiseError e s).bufEpoch = s.bufEpoch := rfl
@[simp] theorem raiseError_draws (e : ErrCode) (s : State) : (raiseError e s).draws = s.draws := rfl
@[simp] theorem raiseError_inputs (e : ErrCode) (s : State) : (raiseError e s).inputs = s.inputs := rfl
@[simp] theorem raiseError_responses (e : ErrCode) (s : State) : (raiseError e s).responses = s.responses := rfl

/-! ### `setDerived` (R220) -/

@[simp] theorem setDerived_ie (d : Derived) (s : State) : (setDerived d s).ie = s.ie := rfl
@[simp] theorem setDerived_busy (d : Derived) (s : State) : (setDerived d s).busy = s.busy := rfl
@[simp] theorem setDerived_done (d : Derived) (s : State) : (setDerived d s).done = s.done := rfl
@[simp] theorem setDerived_err (d : Derived) (s : State) : (setDerived d s).err = s.err := rfl
@[simp] theorem setDerived_accErr (d : Derived) (s : State) : (setDerived d s).accErr = s.accErr := rfl
@[simp] theorem setDerived_errcode (d : Derived) (s : State) : (setDerived d s).errcode = s.errcode := rfl
@[simp] theorem setDerived_cmd (d : Derived) (s : State) : (setDerived d s).cmd = s.cmd := rfl
@[simp] theorem setDerived_keysel (d : Derived) (s : State) : (setDerived d s).keysel = s.keysel := rfl
@[simp] theorem setDerived_src (d : Derived) (s : State) : (setDerived d s).src = s.src := rfl
@[simp] theorem setDerived_dst (d : Derived) (s : State) : (setDerived d s).dst = s.dst := rfl
@[simp] theorem setDerived_len (d : Derived) (s : State) : (setDerived d s).len = s.len := rfl
@[simp] theorem setDerived_aadPtr (d : Derived) (s : State) : (setDerived d s).aadPtr = s.aadPtr := rfl
@[simp] theorem setDerived_aadLen (d : Derived) (s : State) : (setDerived d s).aadLen = s.aadLen := rfl
@[simp] theorem setDerived_outLen (d : Derived) (s : State) : (setDerived d s).outLen = s.outLen := rfl
@[simp] theorem setDerived_dHdrLen (d : Derived) (s : State) :
    (setDerived d s).dHdrLen = lengthWord d.headerLen := rfl
@[simp] theorem setDerived_dAadLen (d : Derived) (s : State) : (setDerived d s).dAadLen = lengthWord d.aadLen := rfl
@[simp] theorem setDerived_key (d : Derived) (s : State) : (setDerived d s).key = s.key := rfl
@[simp] theorem setDerived_ivctr (d : Derived) (s : State) : (setDerived d s).ivctr = s.ivctr := rfl
@[simp] theorem setDerived_nonce (d : Derived) (s : State) : (setDerived d s).nonce = s.nonce := rfl
@[simp] theorem setDerived_tag (d : Derived) (s : State) : (setDerived d s).tag = s.tag := rfl
@[simp] theorem setDerived_k1 (d : Derived) (s : State) : (setDerived d s).k1 = s.k1 := rfl
@[simp] theorem setDerived_k2 (d : Derived) (s : State) : (setDerived d s).k2 = s.k2 := rfl
@[simp] theorem setDerived_dnonce (d : Derived) (s : State) : (setDerived d s).dnonce = d.nonce := rfl
@[simp] theorem setDerived_daad (d : Derived) (s : State) : (setDerived d s).daad = ofBytes 30 d.aad := rfl
@[simp] theorem setDerived_buf (d : Derived) (s : State) : (setDerived d s).buf = s.buf := rfl
@[simp] theorem setDerived_bufEpoch (d : Derived) (s : State) : (setDerived d s).bufEpoch = s.bufEpoch := rfl
@[simp] theorem setDerived_draws (d : Derived) (s : State) : (setDerived d s).draws = s.draws := rfl
@[simp] theorem setDerived_inputs (d : Derived) (s : State) : (setDerived d s).inputs = s.inputs := rfl
@[simp] theorem setDerived_responses (d : Derived) (s : State) : (setDerived d s).responses = s.responses := rfl

/-! ### `setSubkeys` (R242) -/

@[simp] theorem setSubkeys_ie (ks : Block × Block) (s : State) : (setSubkeys ks s).ie = s.ie := rfl
@[simp] theorem setSubkeys_busy (ks : Block × Block) (s : State) : (setSubkeys ks s).busy = s.busy := rfl
@[simp] theorem setSubkeys_done (ks : Block × Block) (s : State) : (setSubkeys ks s).done = s.done := rfl
@[simp] theorem setSubkeys_err (ks : Block × Block) (s : State) : (setSubkeys ks s).err = s.err := rfl
@[simp] theorem setSubkeys_accErr (ks : Block × Block) (s : State) : (setSubkeys ks s).accErr = s.accErr := rfl
@[simp] theorem setSubkeys_errcode (ks : Block × Block) (s : State) : (setSubkeys ks s).errcode = s.errcode := rfl
@[simp] theorem setSubkeys_cmd (ks : Block × Block) (s : State) : (setSubkeys ks s).cmd = s.cmd := rfl
@[simp] theorem setSubkeys_keysel (ks : Block × Block) (s : State) : (setSubkeys ks s).keysel = s.keysel := rfl
@[simp] theorem setSubkeys_src (ks : Block × Block) (s : State) : (setSubkeys ks s).src = s.src := rfl
@[simp] theorem setSubkeys_dst (ks : Block × Block) (s : State) : (setSubkeys ks s).dst = s.dst := rfl
@[simp] theorem setSubkeys_len (ks : Block × Block) (s : State) : (setSubkeys ks s).len = s.len := rfl
@[simp] theorem setSubkeys_aadPtr (ks : Block × Block) (s : State) : (setSubkeys ks s).aadPtr = s.aadPtr := rfl
@[simp] theorem setSubkeys_aadLen (ks : Block × Block) (s : State) : (setSubkeys ks s).aadLen = s.aadLen := rfl
@[simp] theorem setSubkeys_outLen (ks : Block × Block) (s : State) : (setSubkeys ks s).outLen = s.outLen := rfl
@[simp] theorem setSubkeys_dHdrLen (ks : Block × Block) (s : State) : (setSubkeys ks s).dHdrLen = s.dHdrLen := rfl
@[simp] theorem setSubkeys_dAadLen (ks : Block × Block) (s : State) : (setSubkeys ks s).dAadLen = s.dAadLen := rfl
@[simp] theorem setSubkeys_key (ks : Block × Block) (s : State) : (setSubkeys ks s).key = s.key := rfl
@[simp] theorem setSubkeys_ivctr (ks : Block × Block) (s : State) : (setSubkeys ks s).ivctr = s.ivctr := rfl
@[simp] theorem setSubkeys_nonce (ks : Block × Block) (s : State) : (setSubkeys ks s).nonce = s.nonce := rfl
@[simp] theorem setSubkeys_tag (ks : Block × Block) (s : State) : (setSubkeys ks s).tag = s.tag := rfl
@[simp] theorem setSubkeys_k1 (ks : Block × Block) (s : State) : (setSubkeys ks s).k1 = ks.1 := rfl
@[simp] theorem setSubkeys_k2 (ks : Block × Block) (s : State) : (setSubkeys ks s).k2 = ks.2 := rfl
@[simp] theorem setSubkeys_dnonce (ks : Block × Block) (s : State) : (setSubkeys ks s).dnonce = s.dnonce := rfl
@[simp] theorem setSubkeys_daad (ks : Block × Block) (s : State) : (setSubkeys ks s).daad = s.daad := rfl
@[simp] theorem setSubkeys_buf (ks : Block × Block) (s : State) : (setSubkeys ks s).buf = s.buf := rfl
@[simp] theorem setSubkeys_bufEpoch (ks : Block × Block) (s : State) : (setSubkeys ks s).bufEpoch = s.bufEpoch := rfl
@[simp] theorem setSubkeys_draws (ks : Block × Block) (s : State) : (setSubkeys ks s).draws = s.draws := rfl
@[simp] theorem setSubkeys_inputs (ks : Block × Block) (s : State) : (setSubkeys ks s).inputs = s.inputs := rfl
@[simp] theorem setSubkeys_responses (ks : Block × Block) (s : State) :
    (setSubkeys ks s).responses = s.responses := rfl

/-! ### `respond` -/

@[simp] theorem respond_ie (v : Word) (s : State) : (respond v s).ie = s.ie := rfl
@[simp] theorem respond_busy (v : Word) (s : State) : (respond v s).busy = s.busy := rfl
@[simp] theorem respond_done (v : Word) (s : State) : (respond v s).done = s.done := rfl
@[simp] theorem respond_err (v : Word) (s : State) : (respond v s).err = s.err := rfl
@[simp] theorem respond_accErr (v : Word) (s : State) : (respond v s).accErr = s.accErr := rfl
@[simp] theorem respond_errcode (v : Word) (s : State) : (respond v s).errcode = s.errcode := rfl
@[simp] theorem respond_cmd (v : Word) (s : State) : (respond v s).cmd = s.cmd := rfl
@[simp] theorem respond_keysel (v : Word) (s : State) : (respond v s).keysel = s.keysel := rfl
@[simp] theorem respond_src (v : Word) (s : State) : (respond v s).src = s.src := rfl
@[simp] theorem respond_dst (v : Word) (s : State) : (respond v s).dst = s.dst := rfl
@[simp] theorem respond_len (v : Word) (s : State) : (respond v s).len = s.len := rfl
@[simp] theorem respond_aadPtr (v : Word) (s : State) : (respond v s).aadPtr = s.aadPtr := rfl
@[simp] theorem respond_aadLen (v : Word) (s : State) : (respond v s).aadLen = s.aadLen := rfl
@[simp] theorem respond_outLen (v : Word) (s : State) : (respond v s).outLen = s.outLen := rfl
@[simp] theorem respond_dHdrLen (v : Word) (s : State) : (respond v s).dHdrLen = s.dHdrLen := rfl
@[simp] theorem respond_dAadLen (v : Word) (s : State) : (respond v s).dAadLen = s.dAadLen := rfl
@[simp] theorem respond_key (v : Word) (s : State) : (respond v s).key = s.key := rfl
@[simp] theorem respond_ivctr (v : Word) (s : State) : (respond v s).ivctr = s.ivctr := rfl
@[simp] theorem respond_nonce (v : Word) (s : State) : (respond v s).nonce = s.nonce := rfl
@[simp] theorem respond_tag (v : Word) (s : State) : (respond v s).tag = s.tag := rfl
@[simp] theorem respond_k1 (v : Word) (s : State) : (respond v s).k1 = s.k1 := rfl
@[simp] theorem respond_k2 (v : Word) (s : State) : (respond v s).k2 = s.k2 := rfl
@[simp] theorem respond_dnonce (v : Word) (s : State) : (respond v s).dnonce = s.dnonce := rfl
@[simp] theorem respond_daad (v : Word) (s : State) : (respond v s).daad = s.daad := rfl
@[simp] theorem respond_buf (v : Word) (s : State) : (respond v s).buf = s.buf := rfl
@[simp] theorem respond_bufEpoch (v : Word) (s : State) : (respond v s).bufEpoch = s.bufEpoch := rfl
@[simp] theorem respond_draws (v : Word) (s : State) : (respond v s).draws = s.draws := rfl
@[simp] theorem respond_inputs (v : Word) (s : State) : (respond v s).inputs = s.inputs := rfl
@[simp] theorem respond_responses (v : Word) (s : State) : (respond v s).responses = v :: s.responses := rfl

/-! ### `resetRegisters` (R53) -/

@[simp] theorem resetRegisters_ie (s : State) : (resetRegisters s).ie = State.reset.ie := rfl
@[simp] theorem resetRegisters_busy (s : State) : (resetRegisters s).busy = State.reset.busy := rfl
@[simp] theorem resetRegisters_done (s : State) : (resetRegisters s).done = State.reset.done := rfl
@[simp] theorem resetRegisters_err (s : State) : (resetRegisters s).err = State.reset.err := rfl
@[simp] theorem resetRegisters_accErr (s : State) : (resetRegisters s).accErr = State.reset.accErr := rfl
@[simp] theorem resetRegisters_errcode (s : State) : (resetRegisters s).errcode = State.reset.errcode := rfl
@[simp] theorem resetRegisters_cmd (s : State) : (resetRegisters s).cmd = State.reset.cmd := rfl
@[simp] theorem resetRegisters_keysel (s : State) : (resetRegisters s).keysel = State.reset.keysel := rfl
@[simp] theorem resetRegisters_src (s : State) : (resetRegisters s).src = State.reset.src := rfl
@[simp] theorem resetRegisters_dst (s : State) : (resetRegisters s).dst = State.reset.dst := rfl
@[simp] theorem resetRegisters_len (s : State) : (resetRegisters s).len = State.reset.len := rfl
@[simp] theorem resetRegisters_aadPtr (s : State) : (resetRegisters s).aadPtr = State.reset.aadPtr := rfl
@[simp] theorem resetRegisters_aadLen (s : State) : (resetRegisters s).aadLen = State.reset.aadLen := rfl
@[simp] theorem resetRegisters_outLen (s : State) : (resetRegisters s).outLen = State.reset.outLen := rfl
@[simp] theorem resetRegisters_dHdrLen (s : State) : (resetRegisters s).dHdrLen = State.reset.dHdrLen := rfl
@[simp] theorem resetRegisters_dAadLen (s : State) : (resetRegisters s).dAadLen = State.reset.dAadLen := rfl
@[simp] theorem resetRegisters_key (s : State) : (resetRegisters s).key = State.reset.key := rfl
@[simp] theorem resetRegisters_ivctr (s : State) : (resetRegisters s).ivctr = State.reset.ivctr := rfl
@[simp] theorem resetRegisters_nonce (s : State) : (resetRegisters s).nonce = State.reset.nonce := rfl
@[simp] theorem resetRegisters_tag (s : State) : (resetRegisters s).tag = State.reset.tag := rfl
@[simp] theorem resetRegisters_k1 (s : State) : (resetRegisters s).k1 = State.reset.k1 := rfl
@[simp] theorem resetRegisters_k2 (s : State) : (resetRegisters s).k2 = State.reset.k2 := rfl
@[simp] theorem resetRegisters_dnonce (s : State) : (resetRegisters s).dnonce = State.reset.dnonce := rfl
@[simp] theorem resetRegisters_daad (s : State) : (resetRegisters s).daad = State.reset.daad := rfl
@[simp] theorem resetRegisters_buf (s : State) : (resetRegisters s).buf = s.buf := rfl
@[simp] theorem resetRegisters_bufEpoch (s : State) : (resetRegisters s).bufEpoch = s.bufEpoch := rfl
@[simp] theorem resetRegisters_draws (s : State) : (resetRegisters s).draws = s.draws := rfl
@[simp] theorem resetRegisters_inputs (s : State) : (resetRegisters s).inputs = s.inputs := rfl
@[simp] theorem resetRegisters_responses (s : State) : (resetRegisters s).responses = s.responses := rfl

/-! ### `softReset` (R291) -/

@[simp] theorem softReset_ie (s : State) : (softReset s).ie = State.reset.ie := rfl
@[simp] theorem softReset_busy (s : State) : (softReset s).busy = State.reset.busy := rfl
@[simp] theorem softReset_done (s : State) : (softReset s).done = State.reset.done := rfl
@[simp] theorem softReset_err (s : State) : (softReset s).err = State.reset.err := rfl
@[simp] theorem softReset_accErr (s : State) : (softReset s).accErr = State.reset.accErr := rfl
@[simp] theorem softReset_errcode (s : State) : (softReset s).errcode = State.reset.errcode := rfl
@[simp] theorem softReset_cmd (s : State) : (softReset s).cmd = State.reset.cmd := rfl
@[simp] theorem softReset_keysel (s : State) : (softReset s).keysel = State.reset.keysel := rfl
@[simp] theorem softReset_src (s : State) : (softReset s).src = State.reset.src := rfl
@[simp] theorem softReset_dst (s : State) : (softReset s).dst = State.reset.dst := rfl
@[simp] theorem softReset_len (s : State) : (softReset s).len = State.reset.len := rfl
@[simp] theorem softReset_aadPtr (s : State) : (softReset s).aadPtr = State.reset.aadPtr := rfl
@[simp] theorem softReset_aadLen (s : State) : (softReset s).aadLen = State.reset.aadLen := rfl
@[simp] theorem softReset_outLen (s : State) : (softReset s).outLen = State.reset.outLen := rfl
@[simp] theorem softReset_dHdrLen (s : State) : (softReset s).dHdrLen = State.reset.dHdrLen := rfl
@[simp] theorem softReset_dAadLen (s : State) : (softReset s).dAadLen = State.reset.dAadLen := rfl
@[simp] theorem softReset_key (s : State) : (softReset s).key = State.reset.key := rfl
@[simp] theorem softReset_ivctr (s : State) : (softReset s).ivctr = State.reset.ivctr := rfl
@[simp] theorem softReset_nonce (s : State) : (softReset s).nonce = State.reset.nonce := rfl
@[simp] theorem softReset_tag (s : State) : (softReset s).tag = State.reset.tag := rfl
@[simp] theorem softReset_k1 (s : State) : (softReset s).k1 = State.reset.k1 := rfl
@[simp] theorem softReset_k2 (s : State) : (softReset s).k2 = State.reset.k2 := rfl
@[simp] theorem softReset_dnonce (s : State) : (softReset s).dnonce = State.reset.dnonce := rfl
@[simp] theorem softReset_daad (s : State) : (softReset s).daad = State.reset.daad := rfl
@[simp] theorem softReset_buf (s : State) : (softReset s).buf = s.buf := rfl
@[simp] theorem softReset_bufEpoch (s : State) : (softReset s).bufEpoch = s.bufEpoch := rfl
@[simp] theorem softReset_draws (s : State) : (softReset s).draws = s.draws := rfl
@[simp] theorem softReset_inputs (s : State) : (softReset s).inputs = s.inputs := rfl
@[simp] theorem softReset_responses (s : State) : (softReset s).responses = s.responses := rfl

/-! ### `hardReset` (R290) -/

@[simp] theorem hardReset_ie (s : State) : (hardReset s).ie = State.reset.ie := rfl
@[simp] theorem hardReset_busy (s : State) : (hardReset s).busy = State.reset.busy := rfl
@[simp] theorem hardReset_done (s : State) : (hardReset s).done = State.reset.done := rfl
@[simp] theorem hardReset_err (s : State) : (hardReset s).err = State.reset.err := rfl
@[simp] theorem hardReset_accErr (s : State) : (hardReset s).accErr = State.reset.accErr := rfl
@[simp] theorem hardReset_errcode (s : State) : (hardReset s).errcode = State.reset.errcode := rfl
@[simp] theorem hardReset_cmd (s : State) : (hardReset s).cmd = State.reset.cmd := rfl
@[simp] theorem hardReset_keysel (s : State) : (hardReset s).keysel = State.reset.keysel := rfl
@[simp] theorem hardReset_src (s : State) : (hardReset s).src = State.reset.src := rfl
@[simp] theorem hardReset_dst (s : State) : (hardReset s).dst = State.reset.dst := rfl
@[simp] theorem hardReset_len (s : State) : (hardReset s).len = State.reset.len := rfl
@[simp] theorem hardReset_aadPtr (s : State) : (hardReset s).aadPtr = State.reset.aadPtr := rfl
@[simp] theorem hardReset_aadLen (s : State) : (hardReset s).aadLen = State.reset.aadLen := rfl
@[simp] theorem hardReset_outLen (s : State) : (hardReset s).outLen = State.reset.outLen := rfl
@[simp] theorem hardReset_dHdrLen (s : State) : (hardReset s).dHdrLen = State.reset.dHdrLen := rfl
@[simp] theorem hardReset_dAadLen (s : State) : (hardReset s).dAadLen = State.reset.dAadLen := rfl
@[simp] theorem hardReset_key (s : State) : (hardReset s).key = State.reset.key := rfl
@[simp] theorem hardReset_ivctr (s : State) : (hardReset s).ivctr = State.reset.ivctr := rfl
@[simp] theorem hardReset_nonce (s : State) : (hardReset s).nonce = State.reset.nonce := rfl
@[simp] theorem hardReset_tag (s : State) : (hardReset s).tag = State.reset.tag := rfl
@[simp] theorem hardReset_k1 (s : State) : (hardReset s).k1 = State.reset.k1 := rfl
@[simp] theorem hardReset_k2 (s : State) : (hardReset s).k2 = State.reset.k2 := rfl
@[simp] theorem hardReset_dnonce (s : State) : (hardReset s).dnonce = State.reset.dnonce := rfl
@[simp] theorem hardReset_daad (s : State) : (hardReset s).daad = State.reset.daad := rfl
@[simp] theorem hardReset_buf (s : State) : (hardReset s).buf = [] := rfl
@[simp] theorem hardReset_bufEpoch (s : State) : (hardReset s).bufEpoch = s.bufEpoch + 1 := rfl
@[simp] theorem hardReset_draws (s : State) : (hardReset s).draws = s.draws := rfl
@[simp] theorem hardReset_inputs (s : State) : (hardReset s).inputs = s.inputs := rfl
@[simp] theorem hardReset_responses (s : State) : (hardReset s).responses = s.responses := rfl

/-! ### State.reset (R53) -/

@[simp] theorem reset_ie : State.reset.ie = false := rfl
@[simp] theorem reset_busy : State.reset.busy = false := rfl
@[simp] theorem reset_done : State.reset.done = false := rfl
@[simp] theorem reset_err : State.reset.err = false := rfl
@[simp] theorem reset_accErr : State.reset.accErr = false := rfl
@[simp] theorem reset_errcode : State.reset.errcode = .none := rfl
@[simp] theorem reset_cmd : State.reset.cmd = 0 := rfl
@[simp] theorem reset_keysel : State.reset.keysel = 0 := rfl
@[simp] theorem reset_src : State.reset.src = 0 := rfl
@[simp] theorem reset_dst : State.reset.dst = 0 := rfl
@[simp] theorem reset_len : State.reset.len = 0 := rfl
@[simp] theorem reset_aadPtr : State.reset.aadPtr = 0 := rfl
@[simp] theorem reset_aadLen : State.reset.aadLen = 0 := rfl
@[simp] theorem reset_outLen : State.reset.outLen = 0 := rfl
@[simp] theorem reset_dHdrLen : State.reset.dHdrLen = 0 := rfl
@[simp] theorem reset_dAadLen : State.reset.dAadLen = 0 := rfl
@[simp] theorem reset_key : State.reset.key = Vector.replicate 32 0 := rfl
@[simp] theorem reset_ivctr : State.reset.ivctr = Vector.replicate 16 0 := rfl
@[simp] theorem reset_nonce : State.reset.nonce = Vector.replicate 13 0 := rfl
@[simp] theorem reset_tag : State.reset.tag = Vector.replicate 16 0 := rfl
@[simp] theorem reset_k1 : State.reset.k1 = Vector.replicate 16 0 := rfl
@[simp] theorem reset_k2 : State.reset.k2 = Vector.replicate 16 0 := rfl
@[simp] theorem reset_dnonce : State.reset.dnonce = Vector.replicate 13 0 := rfl
@[simp] theorem reset_daad : State.reset.daad = Vector.replicate 30 0 := rfl
@[simp] theorem reset_buf : State.reset.buf = [] := rfl
@[simp] theorem reset_bufEpoch : State.reset.bufEpoch = 0 := rfl
@[simp] theorem reset_draws : State.reset.draws = 0 := rfl
@[simp] theorem reset_inputs : State.reset.inputs = [] := rfl
@[simp] theorem reset_responses : State.reset.responses = [] := rfl

end Sys2Proof.Machine
end

