-- ==== Sys2Proof/Laws/Memory.lean ====
section
/-! SUPPORT. The laws of `BUF`: what a write changes, what it leaves, and that every memory operation keeps the canonical
form (20_memory R61, R62). -/

namespace Sys2Proof.Machine

/-! ### One byte -/

theorem Memory.read_write (m : Memory) (a b : Nat) (v : Byte) :
    (Memory.write m a v).read b = if b = a then some v else m.read b := by
  induction m with
  | nil => simp [Memory.write, Memory.read, eq_comm]
  | cons c rest ih =>
    obtain ⟨x, w⟩ := c
    simp only [Memory.write]
    split
    · simp only [Memory.read]; grind
    · split
      · simp only [Memory.read]; grind
      · simp only [Memory.read, ih]; grind

theorem Memory.read_write_same (m : Memory) (a : Nat) (v : Byte) : (Memory.write m a v).read a = some v := by
  simp [Memory.read_write]

theorem Memory.read_write_other (m : Memory) {a b : Nat} (v : Byte) (h : b ≠ a) :
    (Memory.write m a v).read b = m.read b := by
  simp [Memory.read_write, h]

/-! ### A byte string -/

theorem Memory.read_writeBytes (m : Memory) (a : Nat) (vs : List Byte) (b : Nat) :
    (Memory.writeBytes m a vs).read b =
      if a ≤ b ∧ b < a + vs.length then vs[b - a]? else m.read b := by
  induction vs generalizing m a with
  | nil => simp [Memory.writeBytes]
  | cons v vs ih =>
    simp only [Memory.writeBytes, ih, Memory.read_write, List.length_cons]
    by_cases h1 : b = a
    · subst h1; simp
    · by_cases h2 : a + 1 ≤ b ∧ b < a + 1 + vs.length
      · have h3 : a ≤ b ∧ b < a + (vs.length + 1) := by omega
        have h4 : b - a = (b - (a + 1)) + 1 := by omega
        simp [h2, h3, h4]
      · have h3 : ¬(a ≤ b ∧ b < a + (vs.length + 1)) := by omega
        rw [if_neg h2, if_neg h1, if_neg h3]

theorem Memory.read_writeBytes_outside (m : Memory) (a : Nat) (vs : List Byte) {b : Nat}
    (h : b < a ∨ a + vs.length ≤ b) : (Memory.writeBytes m a vs).read b = m.read b := by
  rw [Memory.read_writeBytes, if_neg (by omega)]

theorem Memory.read_writeBytes_inside (m : Memory) (a : Nat) (vs : List Byte) {i : Nat} (h : i < vs.length) :
    (Memory.writeBytes m a vs).read (a + i) = some vs[i] := by
  rw [Memory.read_writeBytes, if_pos (by omega)]; simp [h]

/-! ### The canonical form -/

theorem Memory.risingFrom_write {lo a : Nat} (m : Memory) (v : Byte) (hlo : lo < a)
    (h : Memory.risingFrom lo m = true) : Memory.risingFrom lo (Memory.write m a v) = true := by
  induction m generalizing lo with
  | nil => simpa [Memory.write, Memory.risingFrom] using hlo
  | cons c rest ih =>
    obtain ⟨x, w⟩ := c
    simp only [Memory.risingFrom, Bool.and_eq_true, decide_eq_true_eq] at h
    simp only [Memory.write]
    split
    · next hx => simp [Memory.risingFrom, hlo, hx, h.2]
    · split
      · next hx => subst hx; simp [Memory.risingFrom, hlo, h.2]
      · simp only [Memory.risingFrom, Bool.and_eq_true, decide_eq_true_eq]
        exact ⟨h.1, ih (by omega) h.2⟩

theorem Memory.wf_write (m : Memory) (a : Nat) (v : Byte) (h : m.wf = true) : (Memory.write m a v).wf = true := by
  cases m with
  | nil => rfl
  | cons c rest =>
    obtain ⟨x, w⟩ := c
    simp only [Memory.wf] at h
    simp only [Memory.write]
    split
    · next hx => simp [Memory.wf, Memory.risingFrom, hx, h]
    · split
      · next hx => subst hx; simpa [Memory.wf] using h
      · simpa [Memory.wf] using Memory.risingFrom_write rest v (by omega) h

theorem Memory.wf_writeBytes (m : Memory) (a : Nat) (vs : List Byte) (h : m.wf = true) :
    (Memory.writeBytes m a vs).wf = true := by
  induction vs generalizing m a with
  | nil => exact h
  | cons v vs ih => exact ih _ _ (Memory.wf_write m a v h)

theorem Memory.wf_reset : State.reset.buf.wf = true := rfl

theorem memWrite_wf (s : State) (a : Nat) (v : List Byte) (h : s.buf.wf = true) : (memWrite s a v).buf.wf = true :=
  Memory.wf_writeBytes _ _ _ h

theorem hardReset_wf (s : State) : (hardReset s).buf.wf = true := rfl

/-- What is listed after a write was listed before it or lies in the written range. -/
theorem Memory.isSome_read_writeBytes (m : Memory) (a : Nat) (vs : List Byte) (b : Nat)
    (h : ((Memory.writeBytes m a vs).read b).isSome = true) :
    (m.read b).isSome = true ∨ (a ≤ b ∧ b < a + vs.length) := by
  by_cases hb : a ≤ b ∧ b < a + vs.length
  · exact .inr hb
  · rw [Memory.read_writeBytes, if_neg hb] at h; exact .inl h

/-! ### Bytes of `BUF` -/

theorem byteAt_memWrite (s : State) (a : Nat) (v : List Byte) (b : Nat) :
    (memWrite s a v).byteAt b = if h : a ≤ b ∧ b < a + v.length then v[b - a] else s.byteAt b := by
  simp only [State.byteAt, memWrite_buf, memWrite_bufEpoch, Memory.read_writeBytes]
  split
  · next h => simp [show b - a < v.length by omega]
  · rfl

theorem byteAt_memWrite_outside (s : State) (a : Nat) (v : List Byte) {b : Nat} (h : b < a ∨ a + v.length ≤ b) :
    (memWrite s a v).byteAt b = s.byteAt b := by
  rw [byteAt_memWrite, dif_neg (by omega)]

/-- A byte of `BUF` is fixed by the buffer and its epoch alone. -/
theorem byteAt_congr {s t : State} (hb : t.buf = s.buf) (he : t.bufEpoch = s.bufEpoch) (a : Nat) :
    t.byteAt a = s.byteAt a := by
  simp [State.byteAt, hb, he]

@[simp] theorem length_memRead (s : State) (a n : Nat) : (memRead s a n).length = n := by simp [memRead]

theorem getElem_memRead (s : State) (a n i : Nat) (h : i < (memRead s a n).length) :
    (memRead s a n)[i] = s.byteAt (a + i) := by
  simp [memRead]

theorem memRead_congr {s t : State} {a n : Nat} (h : ∀ i, i < n → t.byteAt (a + i) = s.byteAt (a + i)) :
    memRead t a n = memRead s a n := by
  apply List.ext_getElem (by simp)
  intro i h1 h2
  rw [getElem_memRead, getElem_memRead]
  exact h i (by simpa using h1)

theorem memRead_of_buf {s t : State} (hb : t.buf = s.buf) (he : t.bufEpoch = s.bufEpoch) (a n : Nat) :
    memRead t a n = memRead s a n :=
  memRead_congr fun _ _ => byteAt_congr hb he _

/-- Reading back what was written (R62). -/
theorem memRead_memWrite_same (s : State) (a : Nat) (v : List Byte) : memRead (memWrite s a v) a v.length = v := by
  apply List.ext_getElem (by simp)
  intro i h1 h2
  rw [getElem_memRead, byteAt_memWrite, dif_pos (by omega)]
  simp

/-- Reading what a write did not touch (R62). -/
theorem memRead_memWrite_disjoint (s : State) (a : Nat) (v : List Byte) {b n : Nat}
    (h : b + n ≤ a ∨ a + v.length ≤ b) : memRead (memWrite s a v) b n = memRead s b n :=
  memRead_congr fun i hi => byteAt_memWrite_outside s a v (by omega)

theorem memRead_append (s : State) (a n m : Nat) : memRead s a (n + m) = memRead s a n ++ memRead s (a + n) m := by
  apply List.ext_getElem (by simp)
  intro i h1 h2
  rw [getElem_memRead, List.getElem_append]
  split
  · rw [getElem_memRead]
  · next h =>
    rw [getElem_memRead]
    have : ¬ i < n := by simpa using h
    congr 1; simp; omega

end Sys2Proof.Machine
end

