-- ==== Sys2Proof/Laws/Ops.lean ====
section
/-! SUPPORT. What the shared operations can do: the checked run of a command, the region checks, the unspecified reads. -/

namespace Sys2Proof.Machine

/-! ### Checks (R264) -/

@[simp] theorem firstError_nil : firstError [] = none := rfl

theorem firstError_cons (c : Check) (cs : List Check) :
    firstError (c :: cs) = if c.fails then some c.error else firstError cs := rfl

theorem firstError_eq_none (cs : List Check) : firstError cs = none ↔ ∀ c ∈ cs, c.fails = false := by
  induction cs with
  | nil => simp
  | cons c cs ih => cases h : c.fails <;> simp [firstError, h, ih]

/-- An error that the checks raise is the error of one of them that fails. -/
theorem mem_of_firstError {cs : List Check} {e : ErrCode} (h : firstError cs = some e) :
    ∃ c ∈ cs, c.fails = true ∧ c.error = e := by
  induction cs with
  | nil => simp at h
  | cons c cs ih =>
    rw [firstError_cons] at h
    split at h
    · next hc => exact ⟨c, by simp, hc, by simpa using h⟩
    · obtain ⟨d, hd, h1, h2⟩ := ih h
      exact ⟨d, by simp [hd], h1, h2⟩

/-- Everything a checked command can do (R132): raise the first error and nothing else, or have its effect. -/
theorem runChecked_cases (cs : List Check) (f : State → State) (s : State) :
    (∃ e, firstError cs = some e ∧ runChecked cs f s = raiseError e s) ∨
    (firstError cs = none ∧ runChecked cs f s = f s) := by
  unfold runChecked
  cases h : firstError cs with
  | some e => exact .inl ⟨e, rfl, rfl⟩
  | none => exact .inr ⟨rfl, rfl⟩

theorem runChecked_of_none {cs : List Check} (f : State → State) (s : State) (h : firstError cs = none) :
    runChecked cs f s = f s := by simp [runChecked, h]

theorem runChecked_of_some {cs : List Check} (f : State → State) (s : State) {e : ErrCode}
    (h : firstError cs = some e) : runChecked cs f s = raiseError e s := by simp [runChecked, h]

/-- A change of the state that a checked command does not look at comes out of it unchanged. -/
theorem runChecked_map {cs cs' : List Check} {f : State → State} {s s' : State} (g : State → State) (hc : cs' = cs)
    (hr : ∀ e, raiseError e s' = g (raiseError e s)) (hf : f s' = g (f s)) :
    runChecked cs' f s' = g (runChecked cs f s) := by
  subst hc
  rcases runChecked_cases cs' f s with ⟨e, he, h⟩ | ⟨he, h⟩
  · rw [h, runChecked_of_some f s' he, hr]
  · rw [h, runChecked_of_none f s' he, hf]

/-! ### Keys and regions (R122, R70, R71) -/

theorem keyLength_isNone (k : BitVec 2) : (keyLength k).isNone = decide (k = 3) := by
  revert k; decide

/-- The key of a legal selector has 16, 24 or 32 bytes (R27, R122). -/
theorem length_keyBytes (s : State) (h : s.keysel ≠ 3) :
    (keyBytes s).length = 16 ∨ (keyBytes s).length = 24 ∨ (keyBytes s).length = 32 := by
  have hk : ∀ k : BitVec 2, k ≠ 3 → k = 0 ∨ k = 1 ∨ k = 2 := by decide
  rcases hk s.keysel h with h | h | h <;> simp [keyBytes, keyLength, h]

/-- The range check in arithmetic (R70). -/
theorem Region.inRange_iff (cfg : Config) (r : Region) :
    r.inRange cfg = true ↔ r.len = 0 ∨ r.start + r.len ≤ cfg.bufBytes := by simp [Region.inRange]

/-- Overlap in arithmetic (R71). -/
theorem Region.overlaps_iff (r q : Region) :
    r.overlaps q = true ↔ 0 < r.len ∧ 0 < q.len ∧ r.start < q.start + q.len ∧ q.start < r.start + r.len := by
  simp [Region.overlaps, and_assoc]

/-! ### Unspecified reads (R67, R68) -/

@[simp] theorem respondUnspecified_eq (width : Nat) (s : State) :
    respondUnspecified width s =
      { s with
        draws := s.draws + 1,
        responses := BitVec.ofNat 32 ((Config.unspecifiedRead s.draws).toNat % 2 ^ (8 * width)) :: s.responses } := rfl

/-- The length registers hold a length that fits 32 bits (R33 to R35). -/
theorem toNat_lengthWord {n : Nat} (h : n < 2 ^ 32) : (lengthWord n).toNat = n := by
  simp [lengthWord]; omega

end Sys2Proof.Machine
end

