-- ==== Sys2Proof/Laws/Checks.lean ====
section
/-! SUPPORT. The precondition checks in the words of Safety.lean: when the key check and the region checks fail, and which
error a checked command ends with (20_memory R70, R71; 60_exceptions R264 to R266). -/

namespace Sys2Proof.Machine

@[simp] theorem checkKey_fails (s : State) : (checkKey s).fails = decide (s.keysel = 3) := keyLength_isNone _
@[simp] theorem checkKey_error (s : State) : (checkKey s).error = .badKeylen := rfl
@[simp] theorem checkRegions_error (cfg : Config) (i0 : Region) (i1 o : Option Region) :
    (checkRegions cfg i0 i1 o).error = .bufRange := rfl

theorem outputLegal_none_iff (o i0 : Region) : o.outputLegal i0 none = true ↔ o.OutputOk i0 := by
  unfold Region.outputLegal Region.OutputOk Region.Apart
  simp [Region.overlaps]; omega

theorem outputLegal_some_iff (o i0 i1 : Region) :
    o.outputLegal i0 (some i1) = true ↔ o.Apart i1 ∧ o.OutputOk i0 := by
  unfold Region.outputLegal Region.OutputOk Region.Apart
  simp [Region.overlaps]; omega

/-- The region check of a command with no AAD and no output. -/
theorem checkRegions_src (cfg : Config) (i0 : Region) :
    (checkRegions cfg i0 none none).fails = decide (¬i0.Fits cfg) := by
  rw [Bool.eq_iff_iff]; simp [checkRegions, regionsLegal, Region.inRange, Region.Fits]

/-- The region check of a command with AAD and no output. -/
theorem checkRegions_src_aad (cfg : Config) (i0 i1 : Region) :
    (checkRegions cfg i0 (some i1) none).fails = decide (¬(i0.Fits cfg ∧ i1.Fits cfg)) := by
  rw [Bool.eq_iff_iff]; simp [checkRegions, regionsLegal, Region.inRange, Region.Fits]

/-- The region check of a command with an output and no AAD. -/
theorem checkRegions_src_out (cfg : Config) (i0 o : Region) :
    (checkRegions cfg i0 none (some o)).fails = decide (¬(i0.Fits cfg ∧ o.Fits cfg ∧ o.OutputOk i0)) := by
  have h0 := outputLegal_none_iff o i0
  have h1 := Region.inRange_iff cfg i0
  have h2 := Region.inRange_iff cfg o
  unfold checkRegions regionsLegal Region.Fits
  cases ha : o.outputLegal i0 none <;> cases hb : i0.inRange cfg <;> cases hc : o.inRange cfg <;> simp_all

/-- The region check of a command with AAD and an output. -/
theorem checkRegions_src_aad_out (cfg : Config) (i0 i1 o : Region) :
    (checkRegions cfg i0 (some i1) (some o)).fails =
      decide (¬(i0.Fits cfg ∧ i1.Fits cfg ∧ o.Fits cfg ∧ o.Apart i1 ∧ o.OutputOk i0)) := by
  have h0 := outputLegal_some_iff o i0 i1
  have h1 := Region.inRange_iff cfg i0
  have h2 := Region.inRange_iff cfg o
  have h3 := Region.inRange_iff cfg i1
  unfold checkRegions regionsLegal Region.Fits
  cases ha : o.outputLegal i0 (some i1) <;> cases hb : i0.inRange cfg <;> cases hc : o.inRange cfg <;>
    cases hd : i1.inRange cfg <;> simp_all

/-- The error a checked command ends with: that of the first failing check, else its effect's. -/
theorem runChecked_errcode (cs : List Check) (f : State → State) (s : State) :
    (runChecked cs f s).errcode = (match firstError cs with | some e => e | none => (f s).errcode) := by
  unfold runChecked; cases firstError cs <;> rfl

end Sys2Proof.Machine
end

