-- ==== Sys2Proof/Laws/Commands.lean ====
section
/-! SUPPORT. The commands as `exec` runs them, the lengths of what they compute, and the algebra of the modes that the
round trips rest on (41_cbc R150; 42_ctr R170; 43_ccm R186 to R193; 44_ccmp R214, R215). -/

namespace Sys2Proof.Machine

/-! ### exec, arm by arm -/

@[simp] theorem exec_nop (s : State) : exec .nop s = .next (complete s) := rfl
@[simp] theorem exec_cbcEnc (pad : Nat) (s : State) : exec (.cbcEnc pad) s = .next (cbcEnc hw pad s) := rfl
@[simp] theorem exec_cbcDec (pad : Nat) (s : State) : exec (.cbcDec pad) s = .next (cbcDec hw pad s) := rfl
@[simp] theorem exec_ctrCrypt (s : State) : exec .ctrCrypt s = .next (ctrCrypt hw s) := rfl
@[simp] theorem exec_ccmMac (s : State) : exec .ccmMac s = .next (ccmMac hw s) := rfl
@[simp] theorem exec_ccmEnc (s : State) : exec .ccmEnc s = .next (ccmEnc hw s) := rfl
@[simp] theorem exec_ccmDec (s : State) : exec .ccmDec s = .next (ccmDec hw s) := rfl
@[simp] theorem exec_ccmpDerive (l : Bool) (n : Byte) (s : State) :
    exec (.ccmpDerive l n) s = .next (ccmpDerive hw l n s) := rfl
@[simp] theorem exec_ccmpEnc (l : Bool) (n : Byte) (s : State) :
    exec (.ccmpEnc l n) s = .next (ccmpEnc hw l n s) := rfl
@[simp] theorem exec_ccmpDec (l : Bool) (n : Byte) (s : State) :
    exec (.ccmpDec l n) s = .next (ccmpDec hw l n s) := rfl
@[simp] theorem exec_cmacSubkeys (s : State) : exec .cmacSubkeys s = .next (cmacSubkeys hw s) := rfl
@[simp] theorem exec_cmac (s : State) : exec .cmac s = .next (cmac hw s) := rfl

/-! ### Lengths -/

@[simp] theorem length_cbcEncChain (enc : Block → Block) (iv : Block) (xs : List Block) :
    (cbcEncChain enc iv xs).length = xs.length := by
  induction xs generalizing iv with
  | nil => rfl
  | cons x xs ih => simp [cbcEncChain, ih]

@[simp] theorem length_cbcDecChain (dec : Block → Block) (iv : Block) (xs : List Block) :
    (cbcDecChain dec iv xs).length = xs.length := by
  induction xs generalizing iv with
  | nil => rfl
  | cons x xs ih => simp [cbcDecChain, ih]

theorem padLength_bounds (n : Nat) : 1 ≤ padLength n ∧ padLength n ≤ 16 ∧ (n + padLength n) % 16 = 0 := by
  unfold padLength; omega

@[simp] theorem length_padLenPad (m : List Byte) : (padLenPad m).length = m.length + padLength m.length := by
  simp [padLenPad]

@[simp] theorem length_cbcPadded (pad : Nat) (m : List Byte) : (cbcPadded pad m).length = cbcEncOutLen pad m.length := by
  unfold cbcPadded cbcEncOutLen; split <;> simp

/-- The length of the ciphertext, when the plaintext's length is one that `CBC_ENC` accepts (R152, R154). -/
theorem length_cbcEncBytes (enc : Block → Block) (iv : Block) (pad : Nat) (m : List Byte)
    (h : pad = 0 → m.length % 16 = 0) : (cbcEncBytes enc iv pad m).length = cbcEncOutLen pad m.length := by
  have hm : (cbcEncOutLen pad m.length) % 16 = 0 := by
    unfold cbcEncOutLen; split
    · next hp => exact h hp
    · exact (padLength_bounds _).2.2
  simp [cbcEncBytes]; omega

theorem length_cbcDecBytes (dec : Block → Block) (iv : Block) (c : List Byte) (h : c.length % 16 = 0) :
    (cbcDecBytes dec iv c).length = c.length := by
  simp [cbcDecBytes]; omega

@[simp] theorem length_ctrStream (enc : Block → Block) (c0 : Block) (d : List Byte) :
    (ctrStream enc c0 d).length = d.length := by
  unfold ctrStream
  induction d using chunk_induction generalizing c0 with
  | nil => rfl
  | cons s hs ih =>
    rw [blocks_cons s hs]
    simp only [ctrChunks, List.flatten_cons, List.length_append, ih, length_xorBytes, List.length_take,
      Vector.length_toList, List.length_drop]
    omega

@[simp] theorem length_ccmMacTag (cfg : Config) (enc : Block → Block) (n : Vector Byte 13) (a m : List Byte) :
    (ccmMacTag cfg enc n a m).length = min cfg.ccmAuthLen 16 := by simp [ccmMacTag]

@[simp] theorem length_ccmTagStream (cfg : Config) (enc : Block → Block) (n : Vector Byte 13) :
    (ccmTagStream cfg enc n).length = min cfg.ccmAuthLen 16 := by simp [ccmTagStream]

@[simp] theorem length_slice (s : List Byte) (i j : Nat) : (slice s i j).length = min (j - i) (s.length - i) := by
  simp [slice]

theorem length_halfBytes (h : Half) : (halfBytes h).length = 2 := rfl

/-- The derived AAD has `aad_len` bytes (R214, R215). -/
theorem length_derivedAad (cfg : Config) (legacy : Bool) (nfb : Byte) (h : List Byte)
    (hl : headerLen (frameControl h) ≤ h.length) :
    (derivedAad cfg legacy nfb h).length = aadLength (frameControl h) := by
  unfold headerLen optionalLen at hl
  simp only [derivedAad, aadLength, optionalLen, List.length_append, length_slice, length_halfBytes]
  split <;> split <;> simp_all [length_halfBytes] <;> omega

/-! ### CBC: decryption undoes encryption (R150) -/

theorem cbcDecChain_cbcEncChain {enc dec : Block → Block} (h : ∀ b, dec (enc b) = b) (iv : Block) (xs : List Block) :
    cbcDecChain dec iv (cbcEncChain enc iv xs) = xs := by
  induction xs generalizing iv with
  | nil => rfl
  | cons x xs ih => simp [cbcEncChain, cbcDecChain, h, xorBlock_cancel, ih]

theorem cbcDecBytes_cbcEncBytes {enc dec : Block → Block} (h : ∀ b, dec (enc b) = b) (iv : Block) (pad : Nat)
    (m : List Byte) (hm : pad = 0 → m.length % 16 = 0) :
    cbcDecBytes dec iv (cbcEncBytes enc iv pad m) = cbcPadded pad m := by
  unfold cbcDecBytes cbcEncBytes
  rw [toBlocks_joinBlocks, cbcDecChain_cbcEncChain h, joinBlocks_toBlocks]
  rw [length_cbcPadded]; unfold cbcEncOutLen
  split
  · next hp => exact hm hp
  · exact (padLength_bounds _).2.2

/-- The last byte of a padded message is its pad length (R153). -/
theorem getD_last_padLenPad (m : List Byte) :
    ((padLenPad m).getD ((padLenPad m).length - 1) 0).toNat = padLength m.length := by
  have hb := padLength_bounds m.length
  rw [length_padLenPad, padLenPad, List.getD_eq_getElem?_getD,
    List.getElem?_append_right (by omega), List.getElem?_replicate, if_pos (by omega)]
  simp; omega

/-! ### CTR: the stream is its own inverse (R170) -/

theorem ctrStream_nil (enc : Block → Block) (c0 : Block) : ctrStream enc c0 [] = [] := rfl

theorem ctrStream_cons (enc : Block → Block) (c0 : Block) (d : List Byte) (h : d ≠ []) :
    ctrStream enc c0 d = xorBytes (d.take 16) (enc c0).toList ++ ctrStream enc (inc16 c0) (d.drop 16) := by
  unfold ctrStream
  rw [blocks_cons d h]; rfl

end Sys2Proof.Machine
end

