-- ==== Sys2Proof/Laws/Decode.lean ====
section
/-! SUPPORT. Decoding and encoding in the arithmetic of the command word: its fields, when it matches a row, which command
it is, and the words of the encoder (30_encoding R91 to R97). Proofs cite `decode_eq` and never unfold `decode`. -/

namespace Sys2Proof

/-! ### Fields -/

theorem fieldPad_eq (w : Word) : fieldPad w = w.toNat / 256 % 4 := by
  simp [fieldPad, BitVec.extractLsb'_toNat, Nat.shiftRight_eq_div_pow]

theorem fieldLegacy_iff (w : Word) : fieldLegacy w = true ↔ w.toNat / 256 % 2 = 1 := by
  simp [fieldLegacy, BitVec.getLsbD, Nat.testBit, Nat.shiftRight_eq_div_pow]

theorem toNat_fieldNfb (w : Word) : (fieldNfb w).toNat = w.toNat / 65536 % 256 := by
  simp [fieldNfb, BitVec.extractLsb'_toNat, Nat.shiftRight_eq_div_pow]

theorem toNat_fieldOpc (w : Word) : (fieldOpc w).toNat = w.toNat % 256 := by
  simp [fieldOpc, BitVec.extractLsb'_toNat]

/-! ### Rows -/

/-- Format N keeps every bit. -/
theorem and_maskN (w : Word) : w &&& maskN = w := by
  have : maskN = BitVec.allOnes 32 := by decide
  rw [this, BitVec.and_allOnes]

/-- The bits that format P fixes (R91). -/
theorem getLsbD_maskP : ∀ i, i < 32 → maskP.getLsbD i = decide (i < 8 ∨ 10 ≤ i) := by decide

/-- The bits that format W fixes (R91). -/
theorem getLsbD_maskW : ∀ i, i < 32 → maskW.getLsbD i = decide (i < 8 ∨ (9 ≤ i ∧ i < 16) ∨ 24 ≤ i) := by decide

/-- A field of a word is zero iff its bits are. -/
theorem extract_eq_zero_iff (w : Word) (k n : Nat) :
    w.toNat / 2 ^ k % 2 ^ n = 0 ↔ ∀ i, k ≤ i → i < k + n → w.getLsbD i = false := by
  have e : (w.extractLsb' k n).toNat = w.toNat / 2 ^ k % 2 ^ n := by
    simp [BitVec.extractLsb'_toNat, Nat.shiftRight_eq_div_pow]
  rw [← e]
  constructor
  · intro hz i h1 h2
    have hz' : w.extractLsb' k n = 0 := BitVec.eq_of_toNat_eq (by simpa using hz)
    have := congrArg (BitVec.getLsbD · (i - k)) hz'
    simpa [show i - k < n by omega, show k + (i - k) = i by omega] using this
  · intro hb
    have : w.extractLsb' k n = 0 := by
      apply BitVec.eq_of_getLsbD_eq
      intro i hi
      simp only [BitVec.getLsbD_extractLsb', hi, decide_true, Bool.true_and]
      rw [hb (k + i) (by omega) (by omega)]; simp
    rw [this]; rfl

/-- The opcode, bit by bit. -/
theorem opc_eq_iff (w : Word) (p : Byte) : w.toNat % 256 = p.toNat ↔ ∀ i, i < 8 → w.getLsbD i = p.getLsbD i := by
  have e : w.toNat % 256 = (w.extractLsb' 0 8).toNat := by simp [BitVec.extractLsb'_toNat]
  rw [e, BitVec.toNat_inj]
  constructor
  · rintro rfl i hi; simp [hi]
  · intro hb
    apply BitVec.eq_of_getLsbD_eq
    intro i hi
    simp only [BitVec.getLsbD_extractLsb', hi, decide_true, Bool.true_and, Nat.zero_add, hb i hi]

/-- A word under a mask that keeps the opcode bits. -/
theorem and_eq_iff (w m : Word) (p : Byte) (hm : ∀ i, i < 8 → m.getLsbD i = true) :
    w &&& m = p.setWidth 32 ↔
      w.toNat % 256 = p.toNat ∧ ∀ i, 8 ≤ i → i < 32 → m.getLsbD i = true → w.getLsbD i = false := by
  rw [opc_eq_iff]
  constructor
  · intro h
    have hb := fun i => congrArg (BitVec.getLsbD · i) h
    simp only [BitVec.getLsbD_and, BitVec.getLsbD_setWidth] at hb
    refine ⟨fun i hi => ?_, fun i h1 h2 h3 => ?_⟩
    · simpa only [hm i hi, Bool.and_true, show i < 32 by omega, decide_true, Bool.true_and] using hb i
    · simpa only [h3, Bool.and_true, BitVec.getLsbD_of_ge p i h1, Bool.and_false] using hb i
  · rintro ⟨h1, h2⟩
    apply BitVec.eq_of_getLsbD_eq
    intro i hi
    rw [BitVec.getLsbD_and, BitVec.getLsbD_setWidth]
    by_cases h8 : i < 8
    · simp only [hm i h8, h1 i h8, hi, decide_true, Bool.and_true, Bool.true_and]
    · rw [BitVec.getLsbD_of_ge p i (by omega), Bool.and_false]
      cases hmi : m.getLsbD i
      · simp
      · rw [h2 i (by omega) hi hmi]; rfl

/-- A word matches a row of format P iff it has the opcode and zeros in bits 31:10 (R91). -/
theorem and_maskP_iff (w : Word) (p : Byte) :
    w &&& maskP = p.setWidth 32 ↔ w.toNat % 256 = p.toNat ∧ w.toNat / 1024 = 0 := by
  have h1 := extract_eq_zero_iff w 10 22
  have hw := w.isLt
  rw [and_eq_iff w maskP p (by decide), show w.toNat / 1024 = w.toNat / 2 ^ 10 % 2 ^ 22 by omega, h1]
  refine and_congr_right fun _ => ⟨fun h i a b => h i (by omega) (by omega) ?_, fun h i a b c => ?_⟩
  · rw [getLsbD_maskP i (by omega)]; simp; omega
  · rw [getLsbD_maskP i b] at c; simp at c; exact h i (by omega) (by omega)

/-- A word matches a row of format W iff it has the opcode and zeros in bits 31:24 and 15:9 (R91). -/
theorem and_maskW_iff (w : Word) (p : Byte) :
    w &&& maskW = p.setWidth 32 ↔ w.toNat % 256 = p.toNat ∧ w.toNat / 512 % 128 = 0 ∧ w.toNat / 2 ^ 24 = 0 := by
  have h1 := extract_eq_zero_iff w 9 7
  have h2 := extract_eq_zero_iff w 24 8
  have hw := w.isLt
  rw [and_eq_iff w maskW p (by decide), show w.toNat / 512 % 128 = w.toNat / 2 ^ 9 % 2 ^ 7 by omega,
    show w.toNat / 2 ^ 24 = w.toNat / 2 ^ 24 % 2 ^ 8 by omega, h1, h2]
  refine and_congr_right fun _ => ⟨fun h => ⟨fun i a b => h i (by omega) (by omega) ?_,
    fun i a b => h i (by omega) (by omega) ?_⟩, fun h i a b c => ?_⟩
  · rw [getLsbD_maskW i (by omega)]; simp; omega
  · rw [getLsbD_maskW i (by omega)]; simp; omega
  · rw [getLsbD_maskW i b] at c; simp at c
    rcases c with c | c | c
    · omega
    · exact h.1 i (by omega) (by omega)
    · exact h.2 i (by omega) (by omega)

/-! ### The encoder's words -/

/-- The number of a word of format P (R91). -/
theorem encodeP_toNat {opc : Byte} {pad : Nat} (hp : pad < 4) :
    (encodeP (opc.setWidth 32) pad).toNat = opc.toNat + 256 * pad := by
  have h : ∀ p : BitVec 2, (p.setWidth 32 <<< 8 : Word).toNat = 256 * p.toNat := by decide
  have h0 : (opc.setWidth 32 : Word) &&& (BitVec.ofNat 2 pad).setWidth 32 <<< 8 = 0 := by
    apply BitVec.eq_of_getLsbD_eq
    intro i hi
    by_cases h8 : i < 8
    · simp [h8]
    · simp [BitVec.getLsbD_of_ge opc i (by omega)]
  rw [encodeP, ← BitVec.add_eq_or_of_and_eq_zero _ _ h0, BitVec.toNat_add, h]
  simp; omega

/-- The number of a word of format W (R91). -/
theorem encodeW_toNat (opc : Byte) (legacy : Bool) (nfb : Byte) :
    (encodeW (opc.setWidth 32) legacy nfb).toNat = opc.toNat + 256 * legacy.toNat + 65536 * nfb.toNat := by
  have h : ∀ b : Bool, ((BitVec.ofBool b).setWidth 32 <<< 8 : Word).toNat = 256 * b.toNat := by decide
  have hn : (nfb.setWidth 32 <<< 16 : Word).toNat = 65536 * nfb.toNat := by
    simp [BitVec.toNat_shiftLeft, Nat.shiftLeft_eq]; omega
  have h0 : (opc.setWidth 32 : Word) &&& (BitVec.ofBool legacy).setWidth 32 <<< 8 = 0 := by
    apply BitVec.eq_of_getLsbD_eq
    intro i hi
    by_cases h8 : i < 8
    · simp [h8]
    · simp [BitVec.getLsbD_of_ge opc i (by omega)]
  have hs : ((opc.setWidth 32 : Word) ||| (BitVec.ofBool legacy).setWidth 32 <<< 8).toNat =
      opc.toNat + 256 * legacy.toNat := by
    rw [← BitVec.add_eq_or_of_and_eq_zero _ _ h0, BitVec.toNat_add, h]
    cases legacy <;> simp <;> omega
  have h1 : ((opc.setWidth 32 : Word) ||| (BitVec.ofBool legacy).setWidth 32 <<< 8) &&& nfb.setWidth 32 <<< 16 = 0 := by
    apply BitVec.eq_of_getLsbD_eq
    intro i hi
    by_cases h8 : i < 16
    · simp [h8]
    · have : opc.getLsbD i = false := BitVec.getLsbD_of_ge opc i (by omega)
      have h1 : i ≠ 8 := by omega
      have h2 : (BitVec.ofBool legacy).getLsbD (i - 8) = false := BitVec.getLsbD_of_ge _ _ (by omega)
      simp [this, h2]
  rw [encodeW, ← BitVec.add_eq_or_of_and_eq_zero _ _ h1, BitVec.toNat_add, hs, hn]
  cases legacy <;> simp <;> omega

/-! ### The decoder -/

/-- A word below 256 is its low byte. -/
theorem setWidth_of_lt {q : Word} (h : q.toNat < 256) : q = (q.setWidth 8).setWidth 32 := by
  apply BitVec.eq_of_toNat_eq; simp; omega

/-- When a word matches a row of format N. -/
theorem accepts_N (w q : Word) (m : String) (b : Word → Instr) :
    OpRow.accepts ⟨m, maskN, q, b⟩ w = decide (w.toNat = q.toNat) := by
  rw [Bool.eq_iff_iff]; simp [OpRow.accepts, and_maskN, ← BitVec.toNat_inj]

/-- When a word matches a row of format P. -/
theorem accepts_P (w q : Word) (m : String) (b : Word → Instr) (h : q.toNat < 256) :
    OpRow.accepts ⟨m, maskP, q, b⟩ w = decide (w.toNat % 256 = q.toNat ∧ w.toNat / 1024 = 0) := by
  have e := and_maskP_iff w (q.setWidth 8)
  rw [← setWidth_of_lt h, BitVec.toNat_setWidth, Nat.mod_eq_of_lt h] at e
  rw [Bool.eq_iff_iff, decide_eq_true_eq, ← e]; simp [OpRow.accepts]

/-- When a word matches a row of format W. -/
theorem accepts_W (w q : Word) (m : String) (b : Word → Instr) (h : q.toNat < 256) :
    OpRow.accepts ⟨m, maskW, q, b⟩ w =
      decide (w.toNat % 256 = q.toNat ∧ w.toNat / 512 % 128 = 0 ∧ w.toNat / 2 ^ 24 = 0) := by
  have e := and_maskW_iff w (q.setWidth 8)
  rw [← setWidth_of_lt h, BitVec.toNat_setWidth, Nat.mod_eq_of_lt h] at e
  rw [Bool.eq_iff_iff, decide_eq_true_eq, ← e]; simp [OpRow.accepts]

/-- Decoding, said once in arithmetic (R93, R94, R97). -/
theorem decode_eq (w : Word) :
    decode w =
      if w.toNat = 0 then .ok .nop
      else if w.toNat % 256 = 1 ∧ w.toNat / 1024 = 0 then .ok (.cbcEnc (fieldPad w))
      else if w.toNat % 256 = 2 ∧ w.toNat / 1024 = 0 then .ok (.cbcDec (fieldPad w))
      else if w.toNat = 3 then .ok .ctrCrypt
      else if w.toNat = 4 then .ok .ccmMac
      else if w.toNat = 5 then .ok .ccmEnc
      else if w.toNat = 6 then .ok .ccmDec
      else if w.toNat % 256 = 7 ∧ w.toNat / 512 % 128 = 0 ∧ w.toNat / 2 ^ 24 = 0 then
        .ok (.ccmpDerive (fieldLegacy w) (fieldNfb w))
      else if w.toNat % 256 = 8 ∧ w.toNat / 512 % 128 = 0 ∧ w.toNat / 2 ^ 24 = 0 then
        .ok (.ccmpEnc (fieldLegacy w) (fieldNfb w))
      else if w.toNat % 256 = 9 ∧ w.toNat / 512 % 128 = 0 ∧ w.toNat / 2 ^ 24 = 0 then
        .ok (.ccmpDec (fieldLegacy w) (fieldNfb w))
      else if w.toNat = 10 then .ok .cmacSubkeys
      else if w.toNat = 11 then .ok .cmac
      else if w.toNat % 256 ≤ 11 then .error (.reservedFieldNotZero (fieldOpc w))
      else .error (.unknownOpcode (fieldOpc w)) := by
  have hle : (fieldOpc w ≤ 0x0B) = (w.toNat % 256 ≤ 11) := by
    rw [BitVec.le_def, toNat_fieldOpc]; rfl
  have peel : ∀ (f : Option OpRow → Except DecodeError Instr) (r : OpRow) (rs : List OpRow),
      f ((r :: rs).find? (fun r => r.accepts w)) =
        if r.accepts w = true then f (some r) else f (rs.find? (fun r => r.accepts w)) := by
    intro f r rs; rw [List.find?_cons]; cases r.accepts w <;> rfl
  generalize hf : (fun o : Option OpRow => match o with
    | some r => Except.ok (r.build w)
    | none => if decide (fieldOpc w ≤ 0x0B) then Except.error (DecodeError.reservedFieldNotZero (fieldOpc w))
      else Except.error (DecodeError.unknownOpcode (fieldOpc w))) = f
  have hs : ∀ r, f (some r) = .ok (r.build w) := by subst hf; intro r; rfl
  have hn : f none = if w.toNat % 256 ≤ 11 then Except.error (DecodeError.reservedFieldNotZero (fieldOpc w))
      else Except.error (DecodeError.unknownOpcode (fieldOpc w)) := by
    subst hf; simp only [decide_eq_true_eq, hle]
  have hd : decode w = f (opTable.find? (fun r => r.accepts w)) := by subst hf; rfl
  rw [hd, opTable]
  simp only [peel f, hs, List.find?_nil, hn, accepts_N, accepts_P w 1 _ _ (by decide), accepts_P w 2 _ _ (by decide),
    accepts_W w 7 _ _ (by decide), accepts_W w 8 _ _ (by decide), accepts_W w 9 _ _ (by decide), decide_eq_true_eq]
  rfl

end Sys2Proof
end

