-- ==== Sys2Proof/Laws/Effects.lean ====
section
/-! SUPPORT. Once for every command what it can do: its effect as an update of the state before it, and that it has this
effect when its operands are legal (Safety.lean). Proofs cite these lemmas and never unfold an effect: comparing two
effects by `rfl` would evaluate the data they compute. -/

namespace Sys2Proof.Machine

/-! ### The effects as updates -/

theorem cbcEncEffect_eq (cfg : Config) (pad : Nat) (s : State) :
    cbcEncEffect cfg pad s =
      let x := cbcEncBytes (cfg.aesEnc (keyBytes s)) s.ivctr pad (srcBytes s)
      { s with buf := s.buf.writeBytes s.dst.toNat x, outLen := lengthWord x.length,
               errcode := .none, err := false, busy := false, done := true } := by
  unfold cbcEncEffect
  generalize cbcEncBytes (cfg.aesEnc (keyBytes s)) s.ivctr pad (srcBytes s) = x
  rfl

theorem cbcDecEffect_eq (cfg : Config) (pad : Nat) (s : State) :
    cbcDecEffect cfg pad s =
      let x := cbcDecResult cfg s
      { s with buf := s.buf.writeBytes s.dst.toNat x, outLen := lengthWord (s.len.toNat - cbcDecPad pad x),
               errcode := .none, err := false, busy := false, done := true } := by
  unfold cbcDecEffect
  generalize cbcDecResult cfg s = x
  rfl

theorem ctrCryptEffect_eq (cfg : Config) (s : State) :
    ctrCryptEffect cfg s =
      { s with buf := s.buf.writeBytes s.dst.toNat (ctrStream (cfg.aesEnc (keyBytes s)) s.ivctr (srcBytes s)),
               outLen := s.len, errcode := .none, err := false, busy := false, done := true } := by
  unfold ctrCryptEffect
  generalize ctrStream (cfg.aesEnc (keyBytes s)) s.ivctr (srcBytes s) = x
  rfl

theorem ccmMacEffect_eq (cfg : Config) (s : State) :
    ccmMacEffect cfg s =
      { s with tag := ofBytes 16 (ccmMacTag cfg (cfg.aesEnc (keyBytes s)) s.nonce (aadBytes s) (srcBytes s)),
               outLen := 0, errcode := .none, err := false, busy := false, done := true } := by
  unfold ccmMacEffect
  generalize ofBytes 16 (ccmMacTag cfg (cfg.aesEnc (keyBytes s)) s.nonce (aadBytes s) (srcBytes s)) = x
  rfl

theorem ccmEncEffect_eq (cfg : Config) (s : State) :
    ccmEncEffect cfg s =
      let cu := ccmEncrypt cfg (cfg.aesEnc (keyBytes s)) s.nonce (aadBytes s) (srcBytes s)
      { s with buf := s.buf.writeBytes s.dst.toNat (cu.1 ++ cu.2), tag := ofBytes 16 cu.2,
               outLen := lengthWord (s.len.toNat + cfg.ccmAuthLen),
               errcode := .none, err := false, busy := false, done := true } := by
  unfold ccmEncEffect
  generalize ccmEncrypt cfg (cfg.aesEnc (keyBytes s)) s.nonce (aadBytes s) (srcBytes s) = cu
  rfl

theorem ccmDecEffect_eq (cfg : Config) (s : State) :
    ccmDecEffect cfg s =
      let r := ccmDecrypt cfg (cfg.aesEnc (keyBytes s)) s.nonce (aadBytes s) (srcBytes s)
      { s with buf := s.buf.writeBytes s.dst.toNat r.1, tag := ofBytes 16 [],
               outLen := if r.2 then lengthWord (s.len.toNat - cfg.ccmAuthLen) else 0,
               errcode := if r.2 then .none else .authFailed, err := !r.2, busy := false, done := true } := by
  unfold ccmDecEffect
  generalize ccmDecrypt cfg (cfg.aesEnc (keyBytes s)) s.nonce (aadBytes s) (srcBytes s) = r
  obtain ⟨p, ok⟩ := r
  cases ok <;> rfl

theorem ccmpDeriveEffect_eq (cfg : Config) (legacy : Bool) (nfb : Byte) (s : State) :
    ccmpDeriveEffect cfg legacy nfb s =
      let d := mpduDerived cfg legacy nfb s
      { s with dnonce := d.nonce, daad := ofBytes 30 d.aad, dHdrLen := lengthWord d.headerLen,
               dAadLen := lengthWord d.aadLen, errcode := .none, err := false, busy := false, done := true } := by
  unfold ccmpDeriveEffect
  generalize mpduDerived cfg legacy nfb s = d
  rfl

theorem ccmpEncEffect_eq (cfg : Config) (legacy : Bool) (nfb : Byte) (s : State) :
    ccmpEncEffect cfg legacy nfb s =
      let d := mpduDerived cfg legacy nfb s
      let cu := ccmpEncResult cfg legacy nfb s
      { s with dnonce := d.nonce, daad := ofBytes 30 d.aad, dHdrLen := lengthWord d.headerLen,
               dAadLen := lengthWord d.aadLen, buf := s.buf.writeBytes (bodyAddr s) (cu.1 ++ cu.2),
               tag := ofBytes 16 cu.2, outLen := lengthWord (s.len.toNat + cfg.ccmAuthLen),
               errcode := .none, err := false, busy := false, done := true } := by
  unfold ccmpEncEffect
  generalize ccmpEncResult cfg legacy nfb s = cu
  generalize mpduDerived cfg legacy nfb s = d
  generalize bodyAddr s = a
  rfl

theorem ccmpDecEffect_eq (cfg : Config) (legacy : Bool) (nfb : Byte) (s : State) :
    ccmpDecEffect cfg legacy nfb s =
      let d := mpduDerived cfg legacy nfb s
      let r := ccmpDecResult cfg legacy nfb s
      { s with dnonce := d.nonce, daad := ofBytes 30 d.aad, dHdrLen := lengthWord d.headerLen,
               dAadLen := lengthWord d.aadLen, buf := s.buf.writeBytes (bodyAddr s) r.1, tag := ofBytes 16 [],
               outLen := if r.2 then lengthWord (s.len.toNat - cfg.ccmAuthLen) else 0,
               errcode := if r.2 then .none else .micFailure, err := !r.2, busy := false, done := true } := by
  unfold ccmpDecEffect
  generalize ccmpDecResult cfg legacy nfb s = r
  generalize mpduDerived cfg legacy nfb s = d
  generalize bodyAddr s = a
  obtain ⟨p, ok⟩ := r
  cases ok <;> rfl

theorem cmacSubkeysEffect_eq (cfg : Config) (s : State) :
    cmacSubkeysEffect cfg s =
      let ks := cmacSubkeyPair (cfg.aesEnc (keyBytes s))
      { s with k1 := ks.1, k2 := ks.2, errcode := .none, err := false, busy := false, done := true } := by
  unfold cmacSubkeysEffect
  generalize cmacSubkeyPair (cfg.aesEnc (keyBytes s)) = ks
  rfl

theorem cmacEffect_eq (cfg : Config) (s : State) :
    cmacEffect cfg s =
      let ks := cmacSubkeyPair (cfg.aesEnc (keyBytes s))
      { s with k1 := ks.1, k2 := ks.2, tag := ofBytes 16 (cmacTag cfg (cfg.aesEnc (keyBytes s)) (srcBytes s)),
               outLen := 0, errcode := .none, err := false, busy := false, done := true } := by
  unfold cmacEffect
  dsimp only
  generalize ofBytes 16 (cmacTag cfg (cfg.aesEnc (keyBytes s)) (srcBytes s)) = t
  generalize cmacSubkeyPair (cfg.aesEnc (keyBytes s)) = ks
  rfl

/-! ### Legal operands: the effect happens -/

@[simp] theorem length_srcBytes (s : State) : (srcBytes s).length = s.len.toNat := by simp [srcBytes]
@[simp] theorem length_aadBytes (s : State) : (aadBytes s).length = s.aadLen.toNat := by simp [aadBytes]

theorem cbcEnc_of_legal {cfg : Config} {pad : Nat} {s : State} (h : CbcEncLegal cfg pad s) :
    cbcEnc cfg pad s = cbcEncEffect cfg pad s := by
  apply runChecked_of_none
  rw [firstError_eq_none]
  obtain ⟨h1, h2, h3, h4, h5, h6⟩ := h
  simp only [cbcEncChecks, List.forall_mem_cons, checkKey_fails, checkRegions_src_out, checkPadding, notWholeBlocks]
  refine ⟨decide_eq_false (by omega), decide_eq_false h2, ?_,
    decide_eq_false (not_not_intro ⟨h4, h5, h6⟩), by simp⟩
  simp; intro hp; have := h3 hp; omega

theorem cbcDec_of_legal {cfg : Config} {pad : Nat} {s : State} (h : CbcDecLegal cfg pad s)
    (hp : cbcDecPad pad (cbcDecResult cfg s) ≤ s.len.toNat) : cbcDec cfg pad s = cbcDecEffect cfg pad s := by
  apply runChecked_of_none
  rw [firstError_eq_none]
  obtain ⟨h1, h2, h3, h3', h4, h5, h6⟩ := h
  simp only [cbcDecChecks, List.forall_mem_cons, checkKey_fails, checkRegions_src_out, checkPadding, notWholeBlocks]
  exact ⟨decide_eq_false (by omega), decide_eq_false h2, by simp; omega,
    decide_eq_false (not_not_intro ⟨h4, h5, h6⟩), decide_eq_false (by omega), by simp⟩

theorem ctrCrypt_of_legal {cfg : Config} {s : State} (h : CtrLegal cfg s) : ctrCrypt cfg s = ctrCryptEffect cfg s := by
  apply runChecked_of_none
  rw [firstError_eq_none]
  obtain ⟨h2, h3, h4, h5, h6⟩ := h
  simp only [ctrCryptChecks, List.forall_mem_cons, checkKey_fails, checkRegions_src_out]
  exact ⟨decide_eq_false h2, decide_eq_false (by unfold ctrMaxLen; omega),
    decide_eq_false (not_not_intro ⟨h4, h5, h6⟩), by simp⟩

theorem ccmMac_of_legal {cfg : Config} {s : State} (h : CcmMacLegal cfg s) : ccmMac cfg s = ccmMacEffect cfg s := by
  apply runChecked_of_none
  rw [firstError_eq_none]
  obtain ⟨h1, h2, h3, h4, h5⟩ := h
  simp only [ccmMacChecks, ccmChecks, List.forall_mem_cons, checkKey_fails, checkRegions_src_aad]
  exact ⟨decide_eq_false h1, by simp; omega, decide_eq_false (by unfold ccmMsgMaxLen; omega),
    decide_eq_false (not_not_intro ⟨h4, h5⟩), by simp⟩

theorem ccmEnc_of_legal {cfg : Config} {s : State} (h : CcmEncLegal cfg s) : ccmEnc cfg s = ccmEncEffect cfg s := by
  apply runChecked_of_none
  rw [firstError_eq_none]
  obtain ⟨⟨h1, h2, h3, h4, h5⟩, h6, h7, h8⟩ := h
  simp only [ccmEncChecks, ccmChecks, List.forall_mem_cons, checkKey_fails, checkRegions_src_aad_out]
  exact ⟨decide_eq_false h1, by simp; omega, decide_eq_false (by unfold ccmMsgMaxLen; omega),
    decide_eq_false (not_not_intro ⟨h4, h5, h6, h7, h8⟩), by simp⟩

theorem ccmDec_of_legal {cfg : Config} {s : State} (h : CcmDecLegal cfg s) : ccmDec cfg s = ccmDecEffect cfg s := by
  apply runChecked_of_none
  rw [firstError_eq_none]
  obtain ⟨h0, ⟨h1, h2, h3, h4, h5⟩, h6, h7, h8⟩ := h
  simp only [ccmDecChecks, ccmChecks, List.forall_mem_cons, checkKey_fails, checkRegions_src_aad_out]
  exact ⟨decide_eq_false h1, by simp; omega, decide_eq_false (by unfold ccmMsgMaxLen; omega),
    decide_eq_false (not_not_intro ⟨h4, h5, h6, h7, h8⟩), by simp⟩

theorem ccmpDerive_of_legal {cfg : Config} {s : State} (legacy : Bool) (nfb : Byte) (h : CcmpDeriveLegal cfg s) :
    ccmpDerive cfg legacy nfb s = ccmpDeriveEffect cfg legacy nfb s := by
  apply runChecked_of_none
  rw [firstError_eq_none]
  obtain ⟨h1, h2, h3⟩ := h
  simp only [mpduChecks, List.forall_mem_cons, checkRegions_src]
  exact ⟨decide_eq_false (by omega), decide_eq_false (not_not_intro h2), decide_eq_false (by omega), by simp⟩

theorem ccmpEnc_of_legal {cfg : Config} {s : State} (legacy : Bool) (nfb : Byte) (h : CcmpEncLegal cfg s) :
    ccmpEnc cfg legacy nfb s = ccmpEncEffect cfg legacy nfb s := by
  apply runChecked_of_none
  rw [firstError_eq_none]
  obtain ⟨h0, ⟨h1, h2, h3⟩, h4, h5⟩ := h
  simp only [ccmpCryptChecks, mpduChecks, List.cons_append, List.nil_append, List.forall_mem_cons, checkKey_fails,
    checkRegions_src_out]
  exact ⟨decide_eq_false h0, decide_eq_false (by omega), decide_eq_false (not_not_intro ⟨h2, .inr h4, .inr rfl⟩),
    decide_eq_false (by omega), decide_eq_false (by unfold ccmMsgMaxLen payloadLen; omega), by simp⟩

theorem ccmpDec_of_legal {cfg : Config} {s : State} (legacy : Bool) (nfb : Byte) (h : CcmpDecLegal cfg s) :
    ccmpDec cfg legacy nfb s = ccmpDecEffect cfg legacy nfb s := by
  apply runChecked_of_none
  rw [firstError_eq_none]
  obtain ⟨h0, ⟨h1, h2, h3⟩, h5⟩ := h
  simp only [ccmpCryptChecks, mpduChecks, List.cons_append, List.nil_append, List.forall_mem_cons, checkKey_fails,
    checkRegions_src]
  exact ⟨decide_eq_false h0, decide_eq_false (by omega), decide_eq_false (not_not_intro h2),
    decide_eq_false (by omega), decide_eq_false (by unfold ccmMsgMaxLen payloadLen; omega), by simp⟩

theorem cmacSubkeys_of_legal {cfg : Config} {s : State} (h : s.keysel ≠ 3) :
    cmacSubkeys cfg s = cmacSubkeysEffect cfg s := by
  apply runChecked_of_none
  rw [firstError_eq_none]
  simp only [List.forall_mem_cons, checkKey_fails]
  exact ⟨decide_eq_false h, by simp⟩

theorem cmac_of_legal {cfg : Config} {s : State} (h : CmacLegal cfg s) : cmac cfg s = cmacEffect cfg s := by
  apply runChecked_of_none
  rw [firstError_eq_none]
  simp only [cmacChecks, List.forall_mem_cons, checkKey_fails, checkRegions_src]
  exact ⟨decide_eq_false h.1, decide_eq_false (not_not_intro h.2), by simp⟩

/-! ### The derived header (44_ccmp R215, R218) -/

theorem getD_memRead (s : State) (a n i : Nat) (h : i < n) : (memRead s a n).getD i 0 = s.byteAt (a + i) := by
  rw [List.getD_eq_getElem?_getD, List.getElem?_eq_getElem (by simpa using h), getElem_memRead]; rfl

/-- Frame Control is the first two bytes, the second one high (R211). -/
theorem frameControl_memRead (s : State) (a n : Nat) (h : 2 ≤ n) :
    frameControl (memRead s a n) = s.byteAt (a + 1) ++ s.byteAt a := by
  simp only [frameControl, le16]
  rw [getD_memRead _ _ _ _ (by omega), getD_memRead _ _ _ _ (by omega)]; rfl

/-- The two lengths are one of four pairs (R215). -/
theorem headerLen_aadLength_mem (fc : Half) :
    (headerLen fc, aadLength fc) ∈ [(32, 22), (34, 24), (38, 28), (40, 30)] := by
  unfold headerLen aadLength optionalLen; split <;> split <;> simp

theorem headerLen_bounds (fc : Half) : 32 ≤ headerLen fc ∧ headerLen fc ≤ 40 := by
  have := headerLen_aadLength_mem fc; simp at this; omega

theorem aadLength_bounds (fc : Half) : 22 ≤ aadLength fc ∧ aadLength fc ≤ 30 := by
  have := headerLen_aadLength_mem fc; simp at this; omega

/-- The header's own Frame Control is the one that gave its length. -/
theorem frameControl_mpduHeader (s : State) :
    frameControl (mpduHeader s) = frameControl (memRead s s.src.toNat 2) := by
  have := headerLen_bounds (frameControl (memRead s s.src.toNat 2))
  rw [mpduHeader, frameControl_memRead, frameControl_memRead] <;> (try unfold mpduHeaderLen) <;> omega

/-- The AAD derived from an MPDU has the derived length (R214, R215). -/
theorem length_mpduDerived_aad (cfg : Config) (legacy : Bool) (nfb : Byte) (s : State) :
    (mpduDerived cfg legacy nfb s).aad.length = (mpduDerived cfg legacy nfb s).aadLen := by
  apply length_derivedAad
  rw [frameControl_mpduHeader]; simp [mpduHeader, mpduHeaderLen]

theorem mpduDerived_aadLen_bounds (cfg : Config) (legacy : Bool) (nfb : Byte) (s : State) :
    22 ≤ (mpduDerived cfg legacy nfb s).aadLen ∧ (mpduDerived cfg legacy nfb s).aadLen ≤ 30 :=
  aadLength_bounds _

end Sys2Proof.Machine
end

