-- ==== Sys2Proof/Laws/HostPort.lean ====
section
/-! SUPPORT. What a host access can do (20_memory R64 to R68): reads only answer, and may set `ACCERR` and use up a free
value; writes do what one of a few named operations does. -/

namespace Sys2Proof.Machine

/-! ### The register map (R21, R44) -/

/-- From 0x0E0 on every offset is reserved (R44). -/
theorem regAt_beyond {o : Nat} (h : 0x0E0 ≤ o) : regAt o = none := by
  unfold regAt
  iterate 14 rw [if_neg (by omega)]
  iterate 9 rw [if_neg (by omega)]

/-- Below 0x0E0 exactly the two offsets 0x038 and 0x03C are reserved (R21, R44). -/
theorem regAt_below : ∀ k, k < 56 → ((regAt (4 * k)).isSome = true ↔ k ≠ 14 ∧ k ≠ 15) := by decide

/-- A `REG` access reaches no register exactly when it is illegal or its offset reserved (R44, R64). -/
theorem accessedReg_eq_none_iff (w o : Nat) :
    accessedReg w o = none ↔ w ≠ 4 ∨ o % 4 ≠ 0 ∨ o = 0x038 ∨ o = 0x03C ∨ 0x0E0 ≤ o := by
  by_cases hw : w = 4
  · by_cases h4 : o % 4 = 0
    · by_cases ho : o < 0x0E0
      · have hl : regAccessLegal w o = true := by simp [regAccessLegal, hw, h4]; omega
        have hk := regAt_below (o / 4) (by omega)
        rw [show 4 * (o / 4) = o by omega] at hk
        rw [accessedReg, if_pos hl, ← Option.not_isSome_iff_eq_none, hk]
        omega
      · have : accessedReg w o = none := by
          unfold accessedReg; split
          · exact regAt_beyond (by omega)
          · rfl
        simp [this]; omega
    · simp [accessedReg, regAccessLegal, h4]
  · simp [accessedReg, regAccessLegal, hw]

/-- Only a 32-bit access at 0x004 reaches `CTRL`, only one at 0x008 reaches `STATUS` (R23, R24). -/
theorem accessedReg_ctrl_status {w o : Nat} {r : Reg} (h : accessedReg w o = some r) :
    w = 4 ∧ (r = .ctrl → o = 0x004) ∧ (r = .status → o = 0x008) := by
  have hn : ¬accessedReg w o = none := by simp [h]
  rw [accessedReg_eq_none_iff] at hn
  have hw : w = 4 := by omega
  subst hw
  have hk : ∀ k, k < 56 → ∀ r, accessedReg 4 (4 * k) = some r → (r = .ctrl → k = 1) ∧ (r = .status → k = 2) := by
    intro k hk r h
    interval_cases k <;> simp [accessedReg, regAccessLegal, regAt] at h <;> subst h <;> simp
  have hr := hk (o / 4) (by omega) r (by rw [show 4 * (o / 4) = o by omega]; exact h)
  exact ⟨rfl, fun hc => by have := hr.1 hc; omega, fun hs => by have := hr.2 hs; omega⟩

/-! ### The accesses, case by case -/

/-- Everything a read of `REG` can do (R64, R67). -/
theorem hostRegRead_cases (cfg : Config) (w o : Nat) (s : State) :
    (accessedReg w o = none ∧ hostRegRead cfg w o s = respond 0 (setAccErr s)) ∨
    (∃ r, accessedReg w o = some r ∧ s.busy = true ∧ r.isResult = true ∧
      hostRegRead cfg w o s = respondUnspecified 4 s) ∨
    (∃ r, accessedReg w o = some r ∧ ¬(s.busy = true ∧ r.isResult = true) ∧
      hostRegRead cfg w o s = respond (readReg cfg r s) s) := by
  unfold hostRegRead
  cases h : accessedReg w o with
  | none => exact .inl ⟨rfl, rfl⟩
  | some r =>
    by_cases hb : s.busy = true ∧ r.isResult = true
    · exact .inr (.inl ⟨r, rfl, hb.1, hb.2, by simp [hb]⟩)
    · refine .inr (.inr ⟨r, rfl, hb, ?_⟩)
      have : (s.busy && r.isResult) = false := by
        cases h1 : s.busy <;> cases h2 : r.isResult <;> simp_all
      simp [this]

/-- A read that reaches a register and finds its value specified answers it and does nothing else (R64, R67, R75). -/
theorem hostRegRead_eq_respond {cfg : Config} {w o : Nat} {r : Reg} {s : State} (h : accessedReg w o = some r)
    (hb : r.isResult = true → s.busy = false) : hostRegRead cfg w o s = respond (readReg cfg r s) s := by
  unfold hostRegRead
  simp only [h]
  rw [if_neg]
  intro hc
  simp only [Bool.and_eq_true] at hc
  simp [hb hc.2] at hc

/-- A write that reaches a register while no command is in flight (R65, R75). -/
theorem hostRegWrite_idle {w o : Nat} {r : Reg} {v : Word} {s : State} (h : accessedReg w o = some r)
    (hb : s.busy = false) : hostRegWrite w o v s = writeIdleReg r v s := by
  simp [hostRegWrite, h, hb]

/-- Everything a write of `REG` can do (R64 to R66). -/
theorem hostRegWrite_cases (w o : Nat) (v : Word) (s : State) :
    (accessedReg w o = none ∧ hostRegWrite w o v s = setAccErr s) ∨
    (∃ r, accessedReg w o = some r ∧ s.busy = true ∧ hostRegWrite w o v s = writeBusyReg r v s) ∨
    (∃ r, accessedReg w o = some r ∧ s.busy = false ∧ hostRegWrite w o v s = writeIdleReg r v s) := by
  unfold hostRegWrite
  cases h : accessedReg w o with
  | none => exact .inl ⟨rfl, rfl⟩
  | some r =>
    cases hb : s.busy
    · exact .inr (.inr ⟨r, rfl, rfl, by simp⟩)
    · exact .inr (.inl ⟨r, rfl, rfl, by simp⟩)

/-- Everything a read of `BUF` can do (R68). -/
theorem hostBufRead_cases (cfg : Config) (w a : Nat) (s : State) :
    (s.busy = true ∧ hostBufRead cfg w a s = respondUnspecified w (setAccErr s)) ∨
    (s.busy = false ∧ bufAccessLegal cfg w a = true ∧
      hostBufRead cfg w a s = respond (leWord (memRead s a w)) s) ∨
    (s.busy = false ∧ bufAccessLegal cfg w a = false ∧ hostBufRead cfg w a s = respond 0 (setAccErr s)) := by
  unfold hostBufRead
  cases hb : s.busy <;> cases hl : bufAccessLegal cfg w a <;> simp

/-- Everything a write of `BUF` can do (R68). -/
theorem hostBufWrite_cases (cfg : Config) (w a : Nat) (v : Word) (s : State) :
    (s.busy = false ∧ bufAccessLegal cfg w a = true ∧
      hostBufWrite cfg w a v s = memWrite s a ((List.range w).map (wordByte v))) ∨
    ((s.busy = true ∨ bufAccessLegal cfg w a = false) ∧ hostBufWrite cfg w a v s = setAccErr s) := by
  unfold hostBufWrite
  cases hb : s.busy <;> cases hl : bufAccessLegal cfg w a <;> simp

/-- A legal `BUF` access in arithmetic (R68). -/
theorem bufAccessLegal_iff (cfg : Config) (w a : Nat) :
    bufAccessLegal cfg w a = true ↔ (w = 1 ∨ w = 2 ∨ w = 4) ∧ a % w = 0 ∧ a + w ≤ cfg.bufBytes := by
  simp [bufAccessLegal, or_assoc, and_assoc]

/-- A write to `CTRL` (R23, R291, R292): `IE` alone, a refused reset, or a soft reset. -/
theorem writeCtrl_cases (v : Word) (s : State) :
    (v.getLsbD 1 = false ∧ writeCtrl v s = { s with ie := v.getLsbD 0 }) ∨
    (v.getLsbD 1 = true ∧ s.busy = true ∧ writeCtrl v s = setAccErr { s with ie := v.getLsbD 0 }) ∨
    (v.getLsbD 1 = true ∧ s.busy = false ∧ writeCtrl v s = softReset s) := by
  unfold writeCtrl
  cases h1 : v.getLsbD 1 <;> cases hb : s.busy <;> simp [softReset, resetRegisters]

/-! ### Little-endian lanes (R20, R68) -/

/-- The four bytes of a word, lowest lane first, make it up again. -/
theorem leWord_wordBytes (v : Word) : leWord [wordByte v 0, wordByte v 1, wordByte v 2, wordByte v 3] = v := by
  simp only [leWord, wordByte, List.getD_cons_zero, List.getD_cons_succ]
  apply BitVec.eq_of_getLsbD_eq
  intro i hi
  simp only [BitVec.getLsbD_append, BitVec.getLsbD_extractLsb']
  grind

/-- Word `k` of a byte-array register is its bytes `4k` to `4k + 3`, zeros past its end (R20, R38, R42, R43). -/
theorem arrayWord_eq (b : List Byte) (k : Nat) :
    arrayWord b k = b.getD (4 * k + 3) 0 ++ b.getD (4 * k + 2) 0 ++ b.getD (4 * k + 1) 0 ++ b.getD (4 * k) 0 := by
  have h : ∀ j, j < 4 → (slice b (4 * k) (4 * k + 4)).getD j 0 = b.getD (4 * k + j) 0 := by
    intro j hj
    simp [slice, List.getD_eq_getElem?_getD, hj]
  unfold arrayWord leWord
  rw [h 3 (by omega), h 2 (by omega), h 1 (by omega), h 0 (by omega)]; rfl

/-- A write to word `k` of a byte-array register stores its four lanes and leaves the other bytes (R20, R38). -/
theorem getElem_arrayWrite {n : Nat} (r : Vector Byte n) (k : Nat) (v : Word) (i : Nat) (h : i < n) :
    (arrayWrite r k v)[i] = if i / 4 = k then v.extractLsb' (8 * (i % 4)) 8 else r[i] := by
  have hg : ∀ (x : Vector Byte n), x[i] = x.toList.getD i 0 := by
    intro x; simp [List.getD_eq_getElem?_getD, h]
  rw [hg, hg, arrayWrite, getD_toList_ofBytes _ _ _ h]
  simp only [List.getD_eq_getElem?_getD, List.getElem?_append, List.getElem?_take, List.length_append, List.length_take,
    List.length_cons, List.length_nil, Vector.length_toList, List.getElem?_drop]
  by_cases h1 : i < 4 * k
  · rw [if_pos (by omega), if_pos (by omega), if_pos h1, if_neg (by omega)]
  · rw [show min (4 * k) n = 4 * k by omega]
    by_cases h2 : i < 4 * k + 4
    · rw [if_pos (by omega), if_neg (by omega), if_pos (by omega)]
      obtain ⟨j, hj, rfl⟩ : ∃ j, j < 4 ∧ i = 4 * k + j := ⟨i - 4 * k, by omega, by omega⟩
      rw [show 4 * k + j - 4 * k = j by omega, show (4 * k + j) % 4 = j by omega]
      interval_cases j <;> rfl
    · rw [if_neg (by omega), if_neg (by omega)]
      congr 2; omega

end Sys2Proof.Machine
end

