-- ==== Sys2Proof/Laws/PerInstr.lean ====
section
/-! SUPPORT. Facts about every instruction as syntax, one lemma per constructor: the word of a well-formed instruction
carries the opcode, and zeros where its format says "zero" (30_encoding R91, R93). -/

namespace Sys2Proof

/-- The mask of an instruction's format (R93). -/
def formatMask : Instr → Word
  | .cbcEnc _ | .cbcDec _ => maskP
  | .ccmpDerive _ _ | .ccmpEnc _ _ | .ccmpDec _ _ => maskW
  | .nop | .ctrCrypt | .ccmMac | .ccmEnc | .ccmDec | .cmacSubkeys | .cmac => maskN

/-- The row's match value of an instruction (R93). -/
def formatMatch : Instr → Word
  | .nop => 0x00
  | .cbcEnc _ => 0x01
  | .cbcDec _ => 0x02
  | .ctrCrypt => 0x03
  | .ccmMac => 0x04
  | .ccmEnc => 0x05
  | .ccmDec => 0x06
  | .ccmpDerive _ _ => 0x07
  | .ccmpEnc _ _ => 0x08
  | .ccmpDec _ _ => 0x09
  | .cmacSubkeys => 0x0A
  | .cmac => 0x0B

/-- A format P word under its mask (R91). -/
theorem encodeP_and_maskP (opc : Word) (pad : Nat) (h : opc &&& maskP = opc) : encodeP opc pad &&& maskP = opc := by
  have hz : ∀ p : BitVec 2, p.setWidth 32 <<< 8 &&& maskP = 0 := by decide
  simp [encodeP, BitVec.and_or_distrib_right, h, hz]

/-- A format W word under its mask (R91). -/
theorem encodeW_and_maskW (opc : Word) (legacy : Bool) (nfb : Byte) (h : opc &&& maskW = opc) :
    encodeW opc legacy nfb &&& maskW = opc := by
  have hl : ∀ b : Bool, (BitVec.ofBool b).setWidth 32 <<< 8 &&& maskW = 0 := by decide
  have hn : ∀ n : Byte, n.setWidth 32 <<< 16 &&& maskW = 0 := by decide
  simp [encodeW, BitVec.and_or_distrib_right, h, hl, hn]

namespace Laws.EncodingMatchesRow

/-- A well-formed instruction's word matches its row of the opcode map. -/
def Statement (i : Instr) : Prop := i.wf = true → encode i &&& formatMask i = formatMatch i

theorem nop : Statement .nop := fun _ => rfl
theorem cbcEnc (pad : Nat) : Statement (.cbcEnc pad) := fun _ => encodeP_and_maskP _ _ rfl
theorem cbcDec (pad : Nat) : Statement (.cbcDec pad) := fun _ => encodeP_and_maskP _ _ rfl
theorem ctrCrypt : Statement .ctrCrypt := fun _ => rfl
theorem ccmMac : Statement .ccmMac := fun _ => rfl
theorem ccmEnc : Statement .ccmEnc := fun _ => rfl
theorem ccmDec : Statement .ccmDec := fun _ => rfl
theorem ccmpDerive (legacy : Bool) (nfb : Byte) : Statement (.ccmpDerive legacy nfb) :=
  fun _ => encodeW_and_maskW _ _ _ rfl
theorem ccmpEnc (legacy : Bool) (nfb : Byte) : Statement (.ccmpEnc legacy nfb) :=
  fun _ => encodeW_and_maskW _ _ _ rfl
theorem ccmpDec (legacy : Bool) (nfb : Byte) : Statement (.ccmpDec legacy nfb) :=
  fun _ => encodeW_and_maskW _ _ _ rfl
theorem cmacSubkeys : Statement .cmacSubkeys := fun _ => rfl
theorem cmac : Statement .cmac := fun _ => rfl

end Laws.EncodingMatchesRow

end Sys2Proof
end

