-- ==== Sys2Proof/Laws/Step.lean ====
section
/-! SUPPORT. What one step can do (40_block_primitives R132; 60_exceptions R274), by what is next. -/

namespace Sys2Proof.Machine

/-- Nothing to come and no command in flight: the machine keeps all state (R278). -/
theorem step_idle {s : State} (hi : s.inputs = []) (hb : s.busy = false) : step s = .next s := by
  simp [step, advance, hi, engineTurn, hb]

/-- Nothing to come and a command in flight: it completes. -/
theorem step_engine_last {s : State} (hi : s.inputs = []) (hb : s.busy = true) : step s = engineStep s := by
  simp [step, advance, hi, engineTurn, hb]

/-- The engine's turn, with a command in flight: it completes. -/
theorem step_engine {s : State} {rest : List Input} (hi : s.inputs = .engineTurn :: rest) (hb : s.busy = true) :
    step s = engineStep { s with inputs := rest } := by
  simp [step, advance, hi, engineTurn, hb]

/-- The engine's turn, with no command in flight: nothing but the turn is used up. -/
theorem step_engine_idle {s : State} {rest : List Input} (hi : s.inputs = .engineTurn :: rest)
    (hb : s.busy = false) : step s = .next { s with inputs := rest } := by
  simp [step, advance, hi, engineTurn, hb]

/-- The host's access is next. -/
theorem step_access {s : State} {a : HostAccess} {rest : List Input} (hi : s.inputs = .access a :: rest) :
    step s = .next (hostAccess hw a { s with inputs := rest }) := by
  simp [step, advance, hi]

/-- A hard reset is next. -/
theorem step_hardReset {s : State} {rest : List Input} (hi : s.inputs = .hardReset :: rest) :
    step s = .next (hardReset { s with inputs := rest }) := by
  simp [step, advance, hi]

/-- The completion of a word that decodes. -/
theorem engineStep_of_decode {s : State} {i : Instr} (h : decode s.cmd = .ok i) : engineStep s = exec i s := by
  simp [engineStep, h]

/-- The completion of an illegal word (R263). -/
theorem engineStep_of_illegal {s : State} {e : DecodeError} (h : decode s.cmd = .error e) :
    engineStep s = .next (raiseError .badCommand s) := by
  simp [engineStep, h]

end Sys2Proof.Machine
end

