-- ==== Sys2Proof/Tests/Slice0.lean ====
section
/-! SUPPORT. Tests: the smoke test of WellFormed, one written-out word for every command, the vectors of
95_test_vectors.md run with its toy cipher, and a witness for every statement that has hypotheses. Expected values are
the spec's, never the model's own answers. -/

namespace Sys2Proof.Tests

open Sys2Proof Sys2Proof.Machine

/-! ### Helpers -/

/-- `n` bytes counting up from `first`. -/
def countUp (first n : Nat) : List Byte := (List.range n).map fun i => BitVec.ofNat 8 (first + i)

/-- The folded key of the toy cipher (95_test_vectors section 2). -/
def foldKey (k : List Byte) : List Byte :=
  (List.range (k.length - 16)).foldl (fun f i => f.set i (f.getD i 0 ^^^ k.getD (i + 16) 0)) (k.take 16)

/-- `TOYENC` (95_test_vectors section 2). -/
def toyEnc (k : List Byte) (x : Block) : Block :=
  ofBytes 16 ((List.range 16).map fun i =>
    (x.toList.getD ((i + 1) % 16) 0 ^^^ (foldKey k).getD ((i + 1) % 16) 0) + BitVec.ofNat 8 (7 * i + k.length))

/-- `TOYDEC` (95_test_vectors section 2). -/
def toyDec (k : List Byte) (y : Block) : Block :=
  ofBytes 16 ((List.range 16).map fun j =>
    (y.toList.getD ((j + 15) % 16) 0 - BitVec.ofNat 8 (7 * ((j + 15) % 16) + k.length)) ^^^ (foldKey k).getD j 0)

/-- The machine of the derived vectors: the defaults with the toy cipher. -/
def toy : Config := { hw with aesEnc := toyEnc, aesDec := toyDec }

/-- The defaults with a cipher that changes nothing, which satisfies R121(b). -/
def plain : Config := { hw with aesEnc := fun _ b => b, aesDec := fun _ b => b }

/-- The start of the vectors: `K16` and `IVA` loaded, and the operand registers `SRC`, `DST`, `LEN`. -/
def start (src dst len : Word) : State :=
  { State.reset with
    key := ofBytes 32 (countUp 0 16), ivctr := ofBytes 16 (countUp 0xa0 16), src := src, dst := dst, len := len }

/-- The start of the CCM vectors: nonce `NA`, the AAD operands. -/
def startCcm (src dst len aadPtr aadLen : Word) : State :=
  { start src dst len with
    nonce := ofBytes 13 [0, 0, 0, 3, 2, 1, 0, 0xa0, 0xa1, 0xa2, 0xa3, 0xa4, 0xa5], aadPtr := aadPtr, aadLen := aadLen }

/-- The MPDU header of D20: a QoS data frame. -/
def qosHeader : List Byte :=
  [0x88, 0x79, 0x2c, 0x00, 0xa1, 0xa1, 0xa1, 0xa1, 0xa1, 0x01, 0xa2, 0xa2, 0xa2, 0xa2, 0xa2, 0x02] ++
  [0xa3, 0xa3, 0xa3, 0xa3, 0xa3, 0x03, 0x34, 0x12, 0x85, 0x01, 0x01, 0x02, 0x00, 0x20, 0x03, 0x04, 0x05, 0x06]

/-- The MPDU of the CCMP vectors at 0x400, with `len` as `LEN`. -/
def startMpdu (len : Word) : State := memWrite (start 0x400 0 len) 0x400 (qosHeader ++ countUp 0x50 20)

/-- A machine with a command in flight. -/
def inFlight : State := acceptCommand 0x00000003 State.reset

/-! ### WellFormed -/

theorem test_wf_refuses_cbcEnc_pad_four : (Instr.cbcEnc 4).wf = false := by decide
theorem test_wf_refuses_cbcDec_pad_four : (Instr.cbcDec 4).wf = false := by decide
theorem test_wf_takes_pad_three : (Instr.cbcEnc 3).wf = true ∧ (Instr.cbcDec 3).wf = true := by decide

/-! ### Decoding: words written out from R91, R93 and R100 -/

theorem test_decode_nop : decode 0b00000000000000000000000000000000 = .ok .nop := by decide
theorem test_decode_cbcEnc : decode 0b00000000000000000000000100000001 = .ok (.cbcEnc 1) := by decide
theorem test_decode_cbcDec : decode 0b00000000000000000000001000000010 = .ok (.cbcDec 2) := by decide
theorem test_decode_ctrCrypt : decode 0b00000000000000000000000000000011 = .ok .ctrCrypt := by decide
theorem test_decode_ccmMac : decode 0b00000000000000000000000000000100 = .ok .ccmMac := by decide
theorem test_decode_ccmEnc : decode 0b00000000000000000000000000000101 = .ok .ccmEnc := by decide
theorem test_decode_ccmDec : decode 0b00000000000000000000000000000110 = .ok .ccmDec := by decide
theorem test_decode_ccmpDerive : decode 0b00000000111111110000000100000111 = .ok (.ccmpDerive true 0xff) := by decide
theorem test_decode_ccmpEnc : decode 0b00000000000101010000000000001000 = .ok (.ccmpEnc false 0x15) := by decide
theorem test_decode_ccmpDec : decode 0b00000000000100000000000100001001 = .ok (.ccmpDec true 0x10) := by decide
theorem test_decode_cmacSubkeys : decode 0b00000000000000000000000000001010 = .ok .cmacSubkeys := by decide
theorem test_decode_cmac : decode 0b00000000000000000000000000001011 = .ok .cmac := by decide

/-- The illegal words of 95_test_vectors E1. -/
theorem test_decode_refuses_illegal_words :
    ([0xc, 0x10, 0x7f, 0xff, 0x100, 0x103, 0x10b, 0x401, 0x801, 0x10001, 0x207, 0x1007, 0x01000008, 0x80000009,
      0xffffffff, 0x00ff010a].all fun w => decodeTableWord 32 w == none) = true := by decide
theorem test_decode_names_the_reason :
    decode 0x0000000C = .error (.unknownOpcode 0x0C) ∧
    decode 0x00000401 = .error (.reservedFieldNotZero 0x01) := by decide

/-! ### Primitives (95_test_vectors section 3) -/

theorem test_inc16_X4_X6 :
    (inc16 (ofBytes 16 (countUp 0xf0 14 ++ [0xfe, 0xff]))).toList = countUp 0xf0 14 ++ [0xff, 0x00] ∧
    (inc16 (ofBytes 16 (List.replicate 14 0xaa ++ [0xff, 0xff]))).toList = List.replicate 14 0xaa ++ [0, 0] := by decide
theorem test_dbl_X9_X11 :
    (dbl (ofBytes 16 [0x80])).toList = List.replicate 15 0 ++ [0x87] ∧
    (dbl (ofBytes 16 (0x40 :: List.replicate 14 0 ++ [0x80]))).toList =
      0x80 :: List.replicate 13 0 ++ [0x01, 0x00] := by decide
theorem test_blocks_X14_zpad_X16 :
    (blocks (countUp 0 40)).map List.length = [16, 16, 8] ∧
    zpad [0x61, 0x62, 0x63] = [0x61, 0x62, 0x63] ++ List.replicate 13 0 ∧ zpad (countUp 0 32) = countUp 0 32 := by decide

/-! ### Commands with the toy cipher (95_test_vectors sections 4 to 8) -/

theorem test_nop_completes : exec .nop inFlight = .next { inFlight with busy := false, done := true } := by rfl

/-- V23. -/
theorem test_cbcEnc_V23 :
    let t := cbcEnc toy 1 (memWrite (start 0x100 0x200 5) 0x100 [0x61, 0x62, 0x63, 0x64, 0x65])
    t.errcode = .none ∧ t.outLen = 16 ∧
    memRead t 0x200 16 =
      [0xd2, 0xda, 0xe2, 0xea, 0xd7, 0xde, 0xe5, 0xec, 0xf3, 0xfa, 0x01, 0x08, 0x0f, 0x16, 0x1d, 0x3a] := by decide +kernel

/-- V20, its second block. -/
theorem test_cbcEnc_V20 :
    let t := cbcEnc toy 0 (memWrite (start 0x100 0x200 32) 0x100
      ([0x00, 0x11, 0x22, 0x33, 0x44, 0x55, 0x66, 0x77, 0x88, 0x99, 0xaa, 0xbb, 0xcc, 0xdd, 0xee, 0xff] ++
       [0x0f, 0x1e, 0x2d, 0x3c, 0x4b, 0x5a, 0x69, 0x78, 0x87, 0x96, 0xa5, 0xb4, 0xc3, 0xd2, 0xe1, 0xf0]))
    t.outLen = 32 ∧ t.ivctr.toList = countUp 0xa0 16 ∧
    memRead t 0x210 16 =
      [0x96, 0xb5, 0x54, 0x93, 0xd2, 0xb1, 0x50, 0x4f, 0x0e, 0x2d, 0xcc, 0x8b, 0xca, 0xa9, 0x58, 0x47] := by
  decide +kernel

/-- V25. -/
theorem test_cbcDec_V25 :
    let t := cbcDec toy 1 (memWrite (start 0x200 0x300 16) 0x200
      [0xd2, 0xda, 0xe2, 0xea, 0xd7, 0xde, 0xe5, 0xec, 0xf3, 0xfa, 0x01, 0x08, 0x0f, 0x16, 0x1d, 0x3a])
    t.errcode = .none ∧ t.outLen = 5 ∧
    memRead t 0x300 16 = [0x61, 0x62, 0x63, 0x64, 0x65] ++ List.replicate 11 0x0b := by decide +kernel

/-- V31: the pad byte 17 exceeds `LEN`. -/
theorem test_cbcDec_V31 :
    let t := cbcDec toy 1 (memWrite (start 0x200 0x300 16) 0x200
      [0xa1, 0xa9, 0xb1, 0xb9, 0xc1, 0xc9, 0xd1, 0xd9, 0xe1, 0xe9, 0xf1, 0xf9, 0x01, 0x09, 0x23, 0x09])
    t.errcode = .invalidLength ∧ t.err = true ∧ t.buf.read 0x300 = none := by decide +kernel

/-- V42: the counter wraps inside the command. -/
theorem test_ctrCrypt_V42 :
    let t := ctrCrypt toy (memWrite { start 0x100 0x200 17 with
      ivctr := ofBytes 16 (List.replicate 14 0xaa ++ [0xff, 0xff]) } 0x100 (List.replicate 17 0x55))
    t.errcode = .none ∧ t.outLen = 17 ∧
    memRead t 0x200 17 =
      [0xee, 0xea, 0x92, 0x86, 0x8e, 0x8a, 0xb2, 0xb6, 0xbe, 0xba, 0xa2, 0x56, 0x5e, 0x09, 0x37, 0x76, 0xee] := by
  decide +kernel

/-- V45: one byte over the cap, before the region check. -/
theorem test_ctrCrypt_V45 : (ctrCrypt toy (start 0x300000 0 1048577)).errcode = .tooLong := by decide

/-- The AAD and the message of V50. -/
def ccmInput : State := memWrite (memWrite (startCcm 0x100 0x200 23 0x80 8) 0x80 (countUp 0 8)) 0x100 (countUp 8 23)

/-- V50. -/
theorem test_ccmMac_V50 :
    let t := ccmMac toy ccmInput
    t.errcode = .none ∧ t.outLen = 0 ∧
    t.tag.toList = [0x53, 0x7f, 0xbb, 0xd7, 0xa4, 0x9c, 0xd7, 0xec, 0, 0, 0, 0, 0, 0, 0, 0] := by decide +kernel

/-- V57: AAD of 15 bytes spills into a second block. -/
theorem test_ccmMac_V57 :
    (ccmMac toy (memWrite (startCcm 0 0 0 0x80 15) 0x80 (countUp 0x40 15))).tag.toList.take 8 =
      [0x8b, 0xa5, 0xb7, 0xd1, 0x5f, 0x16, 0x32, 0x4a] := by decide +kernel

/-- The output of V51. -/
def ccmOutput : List Byte :=
  [0x19, 0x10, 0x2b, 0x27, 0x3f, 0x37, 0x4f, 0xe6, 0xe0, 0xe6, 0xec, 0x16, 0x18, 0x6c, 0x96, 0x6d] ++
  [0x09, 0x00, 0x3b, 0x37, 0x2f, 0x27, 0x5f, 0x42, 0x66, 0x9a, 0xfb, 0x97, 0xa6, 0x96, 0x05]

/-- V51. -/
theorem test_ccmEnc_V51 :
    let t := ccmEnc toy ccmInput
    t.errcode = .none ∧ t.outLen = 31 ∧ memRead t 0x200 31 = ccmOutput ∧ t.tag.toList.take 8 = ccmOutput.drop 23 := by
  decide +kernel

/-- V59: the output would overlap the AAD. -/
theorem test_ccmEnc_V59 : (ccmEnc toy (startCcm 0x100 0x80 16 0x90 8)).errcode = .bufRange := by decide

/-- V52. -/
theorem test_ccmDec_V52 :
    let t := ccmDec toy (memWrite (memWrite (startCcm 0x200 0x300 31 0x80 8) 0x80 (countUp 0 8)) 0x200 ccmOutput)
    t.errcode = .none ∧ t.outLen = 23 ∧ memRead t 0x300 23 = countUp 8 23 ∧ t.tag.toList = List.replicate 16 0 := by
  decide +kernel

/-- V53: the last bit of the tag flipped. -/
theorem test_ccmDec_V53 :
    let t := ccmDec toy (memWrite (memWrite { startCcm 0x200 0x300 31 0x80 8 with outLen := 77 } 0x80 (countUp 0 8))
      0x200 (ccmOutput.take 30 ++ [0x04]))
    t.errcode = .authFailed ∧ t.err = true ∧ t.outLen = 0 ∧ memRead t 0x300 23 = countUp 8 23 := by decide +kernel

/-- D20. -/
theorem test_ccmpDerive_D20 :
    let t := ccmpDerive toy false 0x05 (startMpdu 38)
    t.dHdrLen = 34 ∧ t.dAadLen = 24 ∧
    t.dnonce.toList = [0x05, 0xa2, 0xa2, 0xa2, 0xa2, 0xa2, 0x02, 0x06, 0x05, 0x04, 0x03, 0x02, 0x01] ∧
    t.daad.toList =
      [0x88, 0x41, 0xa1, 0xa1, 0xa1, 0xa1, 0xa1, 0x01, 0xa2, 0xa2, 0xa2, 0xa2, 0xa2, 0x02, 0xa3, 0xa3] ++
      [0xa3, 0xa3, 0xa3, 0x03, 0x04, 0x00, 0x05, 0x00, 0, 0, 0, 0, 0, 0] := by decide +kernel

/-- D24: a management frame keeps its subtype bits when `NFB` marks it, and D25, when it does not. -/
theorem test_ccmpDerive_D24_D25 :
    let s := memWrite (start 0x400 0 36) 0x400
      ([0xc0, 0x58, 0x2c, 0x00, 0xa1, 0xa1, 0xa1, 0xa1, 0xa1, 0x01, 0xa2, 0xa2, 0xa2, 0xa2, 0xa2, 0x02] ++
       [0xa3, 0xa3, 0xa3, 0xa3, 0xa3, 0x03, 0x73, 0x07, 0x01, 0x02, 0x00, 0x20, 0x03, 0x04, 0x05, 0x06])
    (ccmpDerive toy false 0x10 s).dHdrLen = 32 ∧
    (ccmpDerive toy false 0x10 s).daad.toList.take 2 = [0xc0, 0x40] ∧
    (ccmpDerive toy false 0x00 s).daad.toList.take 2 = [0x80, 0x40] := by decide +kernel

/-- The body and tag of V70. -/
def mpduOutput : List Byte :=
  [0x44, 0xe6, 0xed, 0x98, 0x87, 0x82, 0x69, 0x18, 0x0c, 0x04, 0x04, 0x30, 0x2c, 0x24, 0xde, 0x25] ++
  [0x74, 0xd6, 0xdd, 0xa8, 0x44, 0xd5, 0x73, 0x92, 0xac, 0x27, 0x03, 0xfd]

/-- V70. -/
theorem test_ccmpEnc_V70 :
    let t := ccmpEnc toy false 0x05 (startMpdu 54)
    t.errcode = .none ∧ t.outLen = 62 ∧ memRead t 0x422 28 = mpduOutput ∧ memRead t 0x400 34 = qosHeader := by
  decide +kernel

/-- V75: `LEN` below the header length. -/
theorem test_ccmpEnc_V75 : (ccmpEnc toy false 0x05 (startMpdu 33)).errcode = .invalidLength := by decide

/-- V71 and V72: the right and a wrong nonce first byte. -/
theorem test_ccmpDec_V71 :
    let t := ccmpDec toy false 0x05 (memWrite (startMpdu 62) 0x422 mpduOutput)
    t.errcode = .none ∧ t.outLen = 54 ∧ memRead t 0x422 20 = countUp 0x50 20 := by decide +kernel
theorem test_ccmpDec_V72 :
    let t := ccmpDec toy false 0x06 (memWrite (startMpdu 62) 0x422 mpduOutput)
    t.errcode = .micFailure ∧ t.outLen = 0 ∧ memRead t 0x422 3 = [0x53, 0x51, 0x52] := by decide +kernel

/-- V80. -/
theorem test_cmacSubkeys_V80 :
    let t := cmacSubkeys toy (start 0 0 0)
    t.k1.toList =
      [0x22, 0x32, 0x42, 0x52, 0x62, 0x72, 0x82, 0x92, 0xa2, 0xb2, 0xc2, 0xd2, 0xe2, 0xf3, 0x02, 0xf2] ∧
    t.k2.toList =
      [0x44, 0x64, 0x84, 0xa4, 0xc4, 0xe5, 0x05, 0x25, 0x45, 0x65, 0x85, 0xa5, 0xc5, 0xe6, 0x05, 0xe4] := by
  decide +kernel

/-- V82: the empty message, at an address outside `BUF`. -/
theorem test_cmac_V82 :
    (cmac toy (start 0xf0000000 0 0)).tag.toList =
      [0x75, 0x9d, 0xc5, 0xe5, 0x0c, 0x36, 0x5c, 0x8e, 0xb4, 0xde, 0x04, 0x26, 0x4f, 0x76, 0x5d, 0x3d] := by
  decide +kernel

/-- V83: one full block. -/
theorem test_cmac_V83 :
    (cmac toy (memWrite (start 0x500 0 16) 0x500
      [0x6b, 0xc1, 0xbe, 0xe2, 0x2e, 0x40, 0x9f, 0x96, 0xe9, 0x3d, 0x7e, 0x11, 0x73, 0x93, 0x17, 0x2a])).tag.toList =
      [0x02, 0x15, 0xd1, 0x6d, 0x63, 0x4e, 0x3d, 0x84, 0xce, 0x05, 0x1e, 0xfa, 0xd1, 0x86, 0x49, 0xc2] := by
  decide +kernel

/-! ### The host port and one step (95_test_vectors section 11) -/

/-- H8, H9 and the edges of the reserved offsets: 0xDC is legal; 0xE0, 0x38, 0xFFC are not. -/
theorem test_reg_edges :
    ((([0x000, 0x034, 0x07C, 0x0DC].map fun o => (hostAccess hw (.regRead 4 o) State.reset).accErr) =
      [false, false, false, false]) ∧
     ([0x038, 0x03C, 0x0E0, 0xFFC].map fun o => (hostAccess hw (.regWrite 4 o 5) State.reset).accErr) =
      [true, true, true, true]) ∧
    (hostAccess hw (.regRead 2 0x008) State.reset).accErr = true ∧
    (hostAccess hw (.regRead 4 0x00A) State.reset).accErr = true := by decide

/-- H2, H3, H5. -/
theorem test_reg_read_back :
    let rw := fun o v => (hostAccess hw (.regRead 4 o) (hostAccess hw (.regWrite 4 o v) State.reset)).responses
    rw 0x064 0x07060504 = [0x07060504] ∧ rw 0x07C 0xDDCCBBAA = [0xAA] ∧ rw 0x014 0xFFFFFFFF = [3] ∧ rw 0x000 0 = [0x424D4501] := by
  decide

/-- H2: byte `4k` of the register is the low byte of word `k`. -/
theorem test_reg_array_bytes :
    (hostAccess hw (.regWrite 4 0x064 0x07060504) State.reset).ivctr.toList =
      [0, 0, 0, 0, 4, 5, 6, 7, 0, 0, 0, 0, 0, 0, 0, 0] := by decide

/-- H4: a write to `KEY` stores its bytes, the low one first, and `KEY` reads 0. -/
theorem test_key_bytes :
    let t := hostAccess hw (.regWrite 4 0x040 0x03020100) State.reset
    t.key.toList = [0, 1, 2, 3] ++ List.replicate 28 0 ∧ (hostAccess hw (.regRead 4 0x040) t).responses = [0] ∧
    t.accErr = false := by decide

/-- H22: `STATUS` of a finished command with an error, `DONE` cleared. -/
theorem test_status_error_bit :
    let s := { State.reset with done := true, err := true, errcode := .authFailed }
    (hostAccess hw (.regRead 4 0x008) s).responses = [6] ∧ (hostAccess hw (.regRead 4 0x00C) s).responses = [3] ∧
    (hostAccess hw (.regRead 4 0x008) (hostAccess hw (.regWrite 4 0x008 6) s)).responses = [4] := by decide

/-- H10 to H12: little-endian lanes, and the last word of `BUF`. -/
theorem test_buf_port :
    let t := hostAccess hw (.bufWrite 4 0x1FFFFC 0x03020100) State.reset
    (hostAccess hw (.bufRead 1 0x1FFFFD) t).responses = [1] ∧ (hostAccess hw (.bufRead 2 0x1FFFFE) t).responses = [0x0302] ∧
    (hostAccess hw (.bufRead 4 0x200000) t) = { t with accErr := true, responses := [0] } ∧
    hostAccess hw (.bufWrite 2 0x11 0xBEEF) t = { t with accErr := true } := by decide

/-- H15 to H19: while a command is in flight. -/
theorem test_busy_accesses :
    hostAccess hw (.regWrite 4 0x020 5) inFlight = { inFlight with accErr := true } ∧
    hostAccess hw (.regWrite 4 0x010 0) inFlight = { inFlight with accErr := true } ∧
    hostAccess hw (.bufWrite 1 0 0x55) inFlight = { inFlight with accErr := true } ∧
    hostAccess hw (.regWrite 4 0x004 3) inFlight = { inFlight with accErr := true, ie := true } ∧
    (hostAccess hw (.regRead 4 0x008) inFlight).responses = [1] := by decide

/-- An illegal word placed after reset completes with `BAD_COMMAND` (R263, E3). -/
theorem test_step_illegal_word :
    step (State.reset.withFetchWord 32 0x00000401) =
      .next { State.reset with cmd := 0x00000401, errcode := .badCommand, err := true, done := true } := by rfl

/-- The first instruction after reset: `CBC_ENC.NOPAD` with `LEN` 0 (V34). -/
theorem test_step_first_command :
    step (State.reset.withFetchWord 32 0x00000001) =
      .next { State.reset with cmd := 0x00000001, errcode := .invalidLength, err := true, done := true } := by rfl

/-! ### Witnesses: states and operands that meet the hypotheses of the statements -/

theorem witness_DecodeOfEncodeIsTheCommand : (Instr.cbcEnc 3).wf = true ∧ (Instr.ccmpDec true 0xff).wf = true := by decide

theorem witness_EncodeOfDecodeIsTheWord : decode 0x00FF0109 = .ok (.ccmpDec true 0xff) := by decide

theorem witness_StepRunsTheDecodedCommand :
    ({ State.reset with inputs := [.access (.bufRead 4 0)] }.inputs = .access (.bufRead 4 0) :: []) ∧
    (inFlight.busy = true ∧ decode inFlight.cmd = .ok .ctrCrypt ∧ inFlight.inputs = []) ∧
    let s := State.reset.withFetchWord 32 0x00000101
    s.busy = true ∧ decode s.cmd = .ok (.cbcEnc 1) ∧ s.inputs = .engineTurn :: [] := by decide

theorem witness_IllegalWordRaisesBadCommand :
    let s := State.reset.withFetchWord 32 0x0000000C
    (s.busy = true ∧ decode s.cmd = .error (.unknownOpcode 0x0C) ∧ s.inputs = .engineTurn :: []) ∧
    (let u := { s with inputs := [] }
     u.busy = true ∧ decode u.cmd = .error (.unknownOpcode 0x0C) ∧ u.inputs = []) := by decide

theorem witness_WriteToCmdAcceptsTheCommand :
    let s := { State.reset with inputs := [.access (.regWrite 4 0x010 0x00000003)] }
    s.busy = false ∧ s.inputs = .access (.regWrite 4 0x010 0x00000003) :: [] := by decide

theorem witness_CompletionSetsTheStatus : ∃ t, exec (.cbcEnc 0) inFlight = .next t := ⟨_, rfl⟩

/-- A command in flight, with an access and a hard reset before its turn. -/
theorem witness_EveryCommandCompletes :
    inFlight.busy = true ∧
    { inFlight with inputs := [.access (.regRead 4 0x008), .hardReset, .engineTurn] }.busy = true := by decide

/-- `CBC_ENC` with `PAD` 2: its error, and no `AUTH_FAILED` or `MIC_FAILURE`. -/
theorem witness_PreconditionErrorChangesOnlyTheStatus :
    ∃ t, exec (.cbcEnc 2) inFlight = .next t ∧ t.errcode ≠ .none ∧ t.errcode ≠ .authFailed ∧ t.errcode ≠ .micFailure :=
  ⟨_, rfl, by decide⟩

theorem witness_CommandsWriteNoOperandRegister : ∃ t, exec .cmacSubkeys inFlight = .next t := ⟨_, rfl⟩

/-- One command of each clause. -/
theorem witness_UnlistedRegistersAreNeitherReadNorWritten :
    (∃ t, exec .nop inFlight = .next t) ∧ (∃ t, exec (.cbcDec 0) inFlight = .next t) ∧
    (∃ t, exec .ctrCrypt inFlight = .next t) ∧ (∃ t, exec .ccmMac inFlight = .next t) ∧
    (∃ t, exec .ccmEnc inFlight = .next t) ∧ (∃ t, exec (.ccmpDerive false 0) inFlight = .next t) ∧
    (∃ t, exec (.ccmpEnc true 0) inFlight = .next t) ∧ (∃ t, exec .cmacSubkeys inFlight = .next t) ∧
    (∃ t, exec .cmac inFlight = .next t) :=
  ⟨⟨_, rfl⟩, ⟨_, rfl⟩, ⟨_, rfl⟩, ⟨_, rfl⟩, ⟨_, rfl⟩, ⟨_, rfl⟩, ⟨_, rfl⟩, ⟨_, rfl⟩, ⟨_, rfl⟩⟩

/-- A key that differs from byte 16 on, under the selector of 16-byte keys. -/
theorem witness_KeyBytesBeyondTheSelectedLengthAreIgnored :
    let s := start 0 0 16
    let key := ofBytes 32 (countUp 0 16 ++ List.replicate 16 0xFF)
    (∃ t, exec .cmac s = .next t) ∧ key ≠ s.key ∧
    key.toList.take ((keyLength s.keysel).getD 0) = s.key.toList.take ((keyLength s.keysel).getD 0) :=
  ⟨⟨_, rfl⟩, by decide, by decide⟩

/-- The cipher that changes nothing satisfies R121(b). -/
theorem plain_aesInverse : plain.AesInverse := fun _ _ _ => ⟨rfl, rfl⟩

theorem witness_CbcChainsAreTheRecurrences :
    (1 : Nat) < [start 0 0 0].length + 1 ∧ plain.AesInverse ∧ (countUp 0 16).length = 16 ∧ (countUp 0 24).length = 24 ∧
    (countUp 0 32).length = 32 := ⟨by decide, plain_aesInverse, by decide, by decide, by decide⟩

/-- `NOPAD` in place on one block, `PADLEN` on no byte at an address outside `BUF`, `PADLEN` up to the end of `BUF`. -/
theorem witness_CbcEncWritesTheCiphertext :
    CbcEncLegal hw 0 (start 0x100 0x100 16) ∧ CbcEncLegal hw 1 (start 0xFFFFFFFF 0x200 0) ∧
    CbcEncLegal hw 1 (start 0 0x1FFFE0 31) := by decide

/-- `NOPAD` on one block; `PADLEN` on 256 bytes, which no pad byte can exceed. -/
theorem witness_CbcDecWritesThePlaintext :
    CbcDecLegal hw 0 (start 0x100 0x100 16) ∧ CbcDecLegal hw 1 (start 0x100 0x200 256) ∧
    ∀ x : List Byte, (x.getD (256 - 1) 0).toNat ≤ (start 0x100 0x200 256).len.toNat := by
  refine ⟨by decide, by decide, fun x => ?_⟩
  have h : (start 0x100 0x200 256).len.toNat = 256 := by decide
  have := (x.getD (256 - 1) 0).isLt
  omega

theorem witness_CbcReportsTheFirstFailingCheck :
    (∃ t, exec (.cbcEnc 1) inFlight = .next t) ∧ ∃ t, exec (.cbcDec 0) inFlight = .next t := ⟨⟨_, rfl⟩, ⟨_, rfl⟩⟩

/-- Encrypt 32 bytes from 0x100 to 0x200, decrypt them to 0x300. -/
theorem witness_CbcDecUndoesCbcEnc :
    let s := start 0x100 0x200 32
    let s2 := { cbcEnc plain 0 s with src := s.dst, dst := 0x300, len := (cbcEnc plain 0 s).outLen }
    plain.AesInverse ∧ plain.bufBytes < 2 ^ 32 ∧ CbcEncLegal plain 0 s ∧
    (dstRegion s2 (cbcEnc plain 0 s).outLen.toNat).Fits plain ∧
    (dstRegion s2 (cbcEnc plain 0 s).outLen.toNat).OutputOk (srcRegion s2) := by
  have hl : CbcEncLegal plain 0 (start 0x100 0x200 32) := by decide
  have ho : (cbcEnc plain 0 (start 0x100 0x200 32)).outLen = 32 := by
    rw [cbcEnc_of_legal hl, cbcEncEffect_eq]; decide +kernel
  refine ⟨plain_aesInverse, by decide, hl, ?_, ?_⟩ <;> simp only [ho] <;> simp [srcRegion] <;> decide

/-- The cap of 1,048,576 bytes, the two halves of `BUF`. -/
theorem witness_CtrCryptWritesTheStream :
    CtrLegal hw (start 0 0x100000 0x100000) ∧ CtrLegal hw (start 0xFFFFFFF0 0xFFFFFFF0 0) := by decide

/-- Both clauses: at the cap, and one byte above it. -/
theorem witness_CtrCryptTwiceRestores :
    (let s := start 0 0x100000 0x100000
     CtrLegal hw s ∧ (dstRegion { s with dst := 0 } s.len.toNat).Fits hw ∧
     (dstRegion { s with dst := 0 } s.len.toNat).OutputOk (srcRegion { s with src := s.dst })) ∧
    (let s := start 0 0 0x100001
     s.keysel ≠ 3 ∧ 16 * 65536 < s.len.toNat ∧ ∃ t, exec .ctrCrypt s = .next t) :=
  ⟨by decide, by decide, by decide, _, rfl⟩

theorem witness_CcmMacLeavesTheTag :
    CcmMacLegal hw (startCcm 0 0 65535 0 65279) ∧ CcmMacLegal hw (startCcm 0xDEAD0000 0 0 0xDEAD0000 0) := by decide

/-- The longest message, and the empty message with no AAD at the end of `BUF`. -/
theorem witness_CcmEncWritesCiphertextAndTag :
    CcmEncLegal hw (startCcm 0 0x100000 65535 0x90000 65279) ∧ CcmEncLegal hw (startCcm 0 0x1FFFF8 0 0 0) := by decide

/-- A tag and nothing else, and the longest message. -/
theorem witness_CcmDecWritesPlaintextAndJudgesTheTag :
    CcmDecLegal hw (startCcm 0x200 0xDEAD0000 8 0 0) ∧ CcmDecLegal hw (startCcm 0x100000 0 65543 0x90000 65279) := by decide

theorem witness_CcmReportsTheFirstFailingCheck :
    (∃ t, exec .ccmMac inFlight = .next t) ∧ (∃ t, exec .ccmEnc inFlight = .next t) ∧
    ∃ t, exec .ccmDec { start 0 0 0 with keysel := 3 } = .next t := ⟨⟨_, rfl⟩, ⟨_, rfl⟩, ⟨_, rfl⟩⟩

/-- Encrypt from 0x100 to 0x200, decrypt to 0x300. -/
theorem witness_CcmDecUndoesCcmEnc :
    let s := startCcm 0x100 0x200 23 0x80 8
    CcmEncLegal hw s ∧
    ∀ t, exec .ccmEnc s = .next t →
      let s2 := { t with src := s.dst, dst := 0x300, len := t.outLen }
      CcmOutputOk hw (dstRegion s2 s.len.toNat) s2 := by
  have hl : CcmEncLegal hw (startCcm 0x100 0x200 23 0x80 8) := by decide
  refine ⟨hl, fun t ht => ?_⟩
  obtain rfl : ccmEnc hw (startCcm 0x100 0x200 23 0x80 8) = t := by
    simpa [exec, execCcmEnc] using ht
  rw [ccmEnc_of_legal hl, ccmEncEffect_eq]
  simp [CcmOutputOk, dstRegion, srcRegion, aadRegion]; decide

/-- The same, with the tag replaced by one that differs in its first byte. -/
theorem witness_CcmDecRejectsAChangedTag :
    let s := startCcm 0x100 0x200 23 0x80 8
    CcmEncLegal hw s ∧
    ∀ t, exec .ccmEnc s = .next t → ∃ u' : List Byte, u'.length = 8 ∧ u' ≠ t.tag.toList.take 8 ∧
      let s2 := { memWrite t (s.dst.toNat + s.len.toNat) u' with src := s.dst, dst := 0x300, len := t.outLen }
      CcmOutputOk hw (dstRegion s2 s.len.toNat) s2 := by
  have hl : CcmEncLegal hw (startCcm 0x100 0x200 23 0x80 8) := by decide
  refine ⟨hl, fun t ht => ?_⟩
  obtain rfl : ccmEnc hw (startCcm 0x100 0x200 23 0x80 8) = t := by
    simpa [exec, execCcmEnc] using ht
  generalize htag : (ccmEnc hw (startCcm 0x100 0x200 23 0x80 8)).tag = tag
  refine ⟨(tag[0] + 1) :: List.replicate 7 0, by simp, fun h => ?_, ?_⟩
  · have h0 := congrArg (fun l => l.getD 0 0) h
    simp at h0
  · rw [ccmEnc_of_legal hl, ccmEncEffect_eq]
    simp [CcmOutputOk, dstRegion, srcRegion, aadRegion]; decide

theorem witness_CcmEncTagIsTheMacEncrypted : CcmEncLegal hw (startCcm 0x100 0x200 23 0x80 8) := by decide

/-- `LEN` is the header length, 34. -/
theorem witness_CcmpDeriveLeavesNonceAndAad : CcmpDeriveLegal hw (startMpdu 34) := by decide

theorem witness_CcmpLengthsAreOneOfFour : hw.Legal := by decide

theorem witness_CcmpEncProtectsTheBody : CcmpEncLegal hw (startMpdu 34) ∧ CcmpEncLegal hw (startMpdu 65569) := by decide

theorem witness_CcmpDecOpensTheBodyAndJudgesTheTag :
    CcmpDecLegal hw (startMpdu 42) ∧ CcmpDecLegal hw (startMpdu 65577) := by decide

theorem witness_CcmpReportsTheFirstFailingCheck :
    (∃ t, exec (.ccmpDerive false 5) inFlight = .next t) ∧ (∃ t, exec (.ccmpEnc false 5) inFlight = .next t) ∧
    ∃ t, exec (.ccmpDec false 5) (startMpdu 39) = .next t := ⟨⟨_, rfl⟩, ⟨_, rfl⟩, ⟨_, rfl⟩⟩

/-- 512 zero bytes at 0: an MPDU with a zero header, and at 64 its derived AAD, which is 22 zero bytes. -/
def zeroMpdu (len : Word) : State := memWrite (start 0 0 len) 0 (List.replicate 512 0)

theorem witness_CcmpIsCcmOverTheBody :
    let p : Word := 64
    let s2 := fun (len : Word) (t : State) => { zeroMpdu len with
      nonce := t.dnonce, aadPtr := p, aadLen := t.dAadLen, src := BitVec.ofNat 32 32, dst := BitVec.ofNat 32 32,
      len := BitVec.ofNat 32 (len.toNat - 32) }
    mpduHeaderLen (zeroMpdu 40) = 32 ∧ CcmpEncLegal hw (zeroMpdu 40) ∧ CcmpDecLegal hw (zeroMpdu 40) ∧
    (∀ t, exec (.ccmpEnc false 0) (zeroMpdu 40) = .next t →
      (aadRegion (s2 40 t)).Fits hw ∧ (dstRegion (s2 40 t) ((s2 40 t).len.toNat + 8)).Apart (aadRegion (s2 40 t)) ∧
      memRead (zeroMpdu 40) p.toNat t.dAadLen.toNat = t.daad.toList.take t.dAadLen.toNat) ∧
    (∀ t, exec (.ccmpDec false 0) (zeroMpdu 40) = .next t →
      (aadRegion (s2 40 t)).Fits hw ∧ (dstRegion (s2 40 t) ((s2 40 t).len.toNat - 8)).Apart (aadRegion (s2 40 t)) ∧
      memRead (zeroMpdu 40) p.toNat t.dAadLen.toNat = t.daad.toList.take t.dAadLen.toNat) := by
  have he : CcmpEncLegal hw (zeroMpdu 40) := by decide +kernel
  have hd : CcmpDecLegal hw (zeroMpdu 40) := by decide +kernel
  have hn : lengthWord (mpduDerived hw false 0 (zeroMpdu 40)).aadLen = 22 := by decide +kernel
  have ha : memRead (zeroMpdu 40) 64 22 =
      (ofBytes 30 (mpduDerived hw false 0 (zeroMpdu 40)).aad).toList.take 22 := by decide +kernel
  refine ⟨by decide +kernel, he, hd, fun t ht => ?_, fun t ht => ?_⟩
  · obtain rfl : ccmpEnc hw false 0 (zeroMpdu 40) = t := by simpa [exec, execCcmpEnc] using ht
    rw [ccmpEnc_of_legal _ _ he, ccmpEncEffect_eq]
    simp only [hn]
    exact ⟨by decide, by decide, ha⟩
  · obtain rfl : ccmpDec hw false 0 (zeroMpdu 40) = t := by simpa [exec, execCcmpDec] using ht
    rw [ccmpDec_of_legal _ _ hd, ccmpDecEffect_eq]
    simp only [hn]
    exact ⟨by decide, by decide, ha⟩

theorem witness_CcmpDecUndoesCcmpEnc : CcmpEncLegal hw (startMpdu 54) := by decide

theorem witness_CmacSubkeysAreDoubled : (start 0 0 0).keysel ≠ 3 ∧ { start 0 0 0 with keysel := 2 }.keysel ≠ 3 := by decide

/-- The empty message anywhere, one block up to the end of `BUF`, all of `BUF`. -/
theorem witness_CmacLeavesTheTag :
    CmacLegal hw (start 0xF0000000 0 0) ∧ CmacLegal hw (start 0x1FFFF0 0 16) ∧ CmacLegal hw (start 0 0 0x200000) := by
  decide

theorem witness_CtrAndCmacReportTheFirstFailingCheck :
    (∃ t, exec .ctrCrypt inFlight = .next t) ∧ (∃ t, exec .cmacSubkeys inFlight = .next t) ∧
    ∃ t, exec .cmac inFlight = .next t := ⟨⟨_, rfl⟩, ⟨_, rfl⟩, ⟨_, rfl⟩⟩

/-- Every kind of register is reached by some offset. -/
theorem witness_ResetValues :
    accessedReg 4 0x000 = some .id ∧ accessedReg 4 0x05C = some (.key 7) ∧ accessedReg 4 0x0DC = some (.daad 7) := by
  decide

/-- A state with a command in flight meets the invariant, and its step answers. -/
theorem witness_EveryStepKeepsTheInvariant : inFlight.Inv ∧ ∃ t, step inFlight = .next t :=
  ⟨⟨by decide, by decide, ⟨by decide, by intro a h; simp [inFlight, acceptCommand, State.reset, Memory.read] at h⟩,
    by decide, fun i _ => by
      rw [show inFlight.daad.toList = List.replicate 30 0 by decide, List.getD_eq_getElem?_getD, List.getElem?_replicate]
      split <;> rfl⟩, _, rfl⟩

/-- Every clause: bit 1 clear, and set while idle and while a command is in flight. -/
theorem witness_SoftResetClearsEveryRegisterOrIsRefused :
    ((1 : Word).getLsbD 1 = false ∧
      { inFlight with inputs := [.access (.regWrite 4 0x004 1)] }.inputs = .access (.regWrite 4 0x004 1) :: []) ∧
    (3 : Word).getLsbD 1 = true ∧ (2 : Word).getLsbD 1 = true ∧
    (let s := { start 1 2 3 with inputs := [.access (.regWrite 4 0x004 3)] }
     s.inputs = .access (.regWrite 4 0x004 3) :: [] ∧ s.busy = false) ∧
    (let s := { inFlight with inputs := [.access (.regWrite 4 0x004 2)] }
     s.inputs = .access (.regWrite 4 0x004 2) :: [] ∧ s.busy = true) := by decide

theorem witness_HardResetAbandonsEverything :
    { inFlight with inputs := [.hardReset] }.inputs = .hardReset :: [] := by decide

/-- A busy machine, and an access for each clause. -/
theorem witness_BusyHostAccessTouchesOnlyControlAndStatus :
    inFlight.busy = true ∧ (hostAccess hw (.regWrite 4 0x004 1) inFlight).ie ≠ inFlight.ie ∧
    (let s := { inFlight with done := true }
     s.busy = true ∧ (hostAccess hw (.regWrite 4 0x008 2) s).done ≠ s.done) ∧
    (let s := { inFlight with accErr := true }
     s.busy = true ∧ (hostAccess hw (.regWrite 4 0x008 8) s).accErr = false) ∧
    ¬(4 = 4 ∧ (0x00C = 0x004 ∨ 0x00C = 0x008)) := by decide

theorem witness_KeyCannotBeRead : 0 < 8 ∧ 7 < 8 := by decide

theorem witness_WrittenRegistersReadBack :
    State.reset.busy = false ∧ (7 < 8 ∧ 31 < 32 ∧ 31 / 4 = 7) ∧ (3 < 4 ∧ 12 < 13 ∧ 12 / 4 = 3) ∧ 0x0DC % 4 = 0 ∧
    (0x080 ≤ 0x0DC ∧ 0x0DC < 0x0E0) := by decide

/-- An access for each clause, at the edges of the ranges. -/
theorem witness_IllegalAccessSetsAccErr :
    ((2 : Nat) ≠ 4 ∧ (0x0DE : Nat) % 4 ≠ 0 ∧ (0x0E0 ≤ 0x0E0 ∧ 0x0E0 ≤ 0xFFC) ∧ (0x0E0 ≤ 0xFFC ∧ 0xFFC ≤ 0xFFC)) ∧
    (0x0DC % 4 = 0 ∧ 0x0DC ≤ 0xFFC ∧ ¬(0x0DC = 0x038 ∨ 0x0DC = 0x03C ∨ (0x0E0 ≤ 0x0DC ∧ 0x0DC ≤ 0xFFC))) ∧
    (State.reset.busy = false ∧ ¬((4 = 1 ∨ 4 = 2 ∨ 4 = 4) ∧ 2097152 % 4 = 0 ∧ 2097152 + 4 ≤ 2097152)) := by decide

/-- The last word of `BUF`. -/
theorem witness_BufferPortStoresLittleEndian :
    State.reset.busy = false ∧ ((4 : Nat) = 1 ∨ 4 = 2 ∨ 4 = 4) ∧ 2097148 % 4 = 0 ∧ 2097148 + 4 ≤ 2097152 := by decide

/-- A step that clears `ACCERR`. -/
theorem witness_StatusIsWriteOneToClearAndAccErrSticky :
    let s := { State.reset with accErr := true, inputs := [.access (.regWrite 4 0x008 8)] }
    ∃ t, step s = .next t ∧ s.accErr = true ∧ t.accErr = false := ⟨_, rfl, by decide⟩

/-- A completion with interrupts enabled, and enabling them after one. -/
theorem witness_IrqRisesOnlyAtCompletionOrEnable :
    (let s := { acceptCommand 0x00000000 State.reset with ie := true }
     ∃ t, step s = .next t ∧ s.irq = false ∧ t.irq = true) ∧
    (let s := { State.reset with done := true, inputs := [.access (.regWrite 4 0x004 1)] }
     ∃ t, step s = .next t ∧ s.irq = false ∧ t.irq = true) := ⟨⟨_, rfl, by decide⟩, ⟨_, rfl, by decide⟩⟩

/-- Idle, and each error code held by a state; the last words of `NONCE` and `DAAD`. -/
theorem witness_ReadsAnswerTheRegister :
    State.reset.busy = false ∧ { State.reset with errcode := .none }.errcode = .none ∧
    { State.reset with err := true, errcode := .badKeylen }.errcode = .badKeylen ∧ 3 < 4 ∧ 7 < 8 := by decide

end Sys2Proof.Tests
end

section
/-! The words the mnemonics assemble to (30_encoding R100). Without `nfb` each word is a closed value of `encode`; with
it, the word is the opcode, 0x100 where `LEGACY` is set, and `nfb` shifted into bits 23:16. -/

namespace Sys2Proof

/-- The word of `<mnemonic> nfb` (R100). -/
theorem encodeW_false_toNat (opc nfb : Byte) :
    (encodeW (opc.setWidth 32) false nfb).toNat = opc.toNat + nfb.toNat * 2 ^ 16 := by
  rw [encodeW_toNat, Bool.toNat_false]
  omega

/-- The word of `<mnemonic>.LEGACY nfb` (R100). -/
theorem encodeW_true_toNat (opc nfb : Byte) :
    (encodeW (opc.setWidth 32) true nfb).toNat = opc.toNat + 0x100 + nfb.toNat * 2 ^ 16 := by
  rw [encodeW_toNat, Bool.toNat_true]
  omega

/-- Settles O5: the words of formats N and P are closed values, those of format W are `encodeW_false_toNat` and
`encodeW_true_toNat` at the opcodes 0x07, 0x08 and 0x09. -/
theorem mnemonicsAssembleToTheirWords : Obligations.MnemonicsAssembleToTheirWords := by
  unfold Obligations.MnemonicsAssembleToTheirWords
  exact ⟨rfl,
    rfl, rfl, rfl, rfl,
    rfl, rfl, rfl, rfl,
    rfl, rfl, rfl, rfl,
    fun nfb => ⟨
      encodeW_false_toNat 0x07 nfb, encodeW_true_toNat 0x07 nfb,
      encodeW_false_toNat 0x08 nfb, encodeW_true_toNat 0x08 nfb,
      encodeW_false_toNat 0x09 nfb, encodeW_true_toNat 0x09 nfb⟩,
    rfl, rfl⟩

end Sys2Proof
end

section
/-! The value of a big-endian byte string (20_memory R73(b), 40_block_primitives R127): its recursion from the right,
its bytes, and the string of a given value. -/

namespace Sys2Proof.Machine

theorem beValue_concat (s : List Byte) (b : Byte) : beValue (s ++ [b]) = beValue s * 256 + b.toNat := by
  simp [beValue, List.foldl_append]

/-- Cutting `k` bytes off the right divides the value by `256 ^ k`. -/
theorem beValue_take (s : List Byte) (k : Nat) (h : k ≤ s.length) :
    beValue (s.take (s.length - k)) = beValue s / 256 ^ k := by
  induction k with
  | zero => simp
  | succ k ih =>
    have hlast : s.take (s.length - k) = s.take (s.length - (k + 1)) ++ [s[s.length - (k + 1)]] := by
      rw [List.take_append_getElem, show s.length - (k + 1) + 1 = s.length - k by omega]
    have hlt := s[s.length - (k + 1)].isLt
    rw [Nat.pow_succ, ← Nat.div_div_eq_div_mul, ← ih (by omega), hlast, beValue_concat]
    omega

/-- A byte of a string is a digit of its value to the base 256. -/
theorem getElem_eq_ofNat_beValue (s : List Byte) (i : Nat) (h : i < s.length) :
    s[i] = BitVec.ofNat 8 (beValue s / 256 ^ (s.length - 1 - i)) := by
  have hval : beValue s / 256 ^ (s.length - 1 - i) = beValue (s.take i) * 256 + s[i].toNat := by
    rw [← beValue_take s _ (by omega), show s.length - (s.length - 1 - i) = i + 1 by omega,
      ← List.take_append_getElem h, beValue_concat]
  apply BitVec.eq_of_toNat_eq
  rw [hval, BitVec.toNat_ofNat]
  omega

/-- The same for a block (R127). -/
theorem getElem_block_eq_ofNat_beValue (x : Block) (i : Nat) (h : i < 16) :
    x[i] = BitVec.ofNat 8 (beValue x.toList / 256 ^ (15 - i)) := by
  rw [← Vector.getElem_toList (by simpa using h), getElem_eq_ofNat_beValue, Vector.length_toList]

/-- The string of a value ends in its low byte, after the string of the rest. -/
theorem beBytes_succ (n v : Nat) : beBytes (n + 1) v = beBytes n (v / 256) ++ [BitVec.ofNat 8 v] := by
  have hlow : v / 256 ^ (n + 1 - 1 - n) = v := by simp
  rw [beBytes, List.range_succ, List.map_append, List.map_singleton, hlow, beBytes]
  congr 1
  apply List.map_congr_left
  intro i hi
  have hi := List.mem_range.1 hi
  rw [Nat.div_div_eq_div_mul, ← Nat.pow_succ', show (n - 1 - i).succ = n + 1 - 1 - i by omega]

/-- The string of `n` bytes holds the value modulo `256 ^ n` (R127). -/
theorem beValue_beBytes (n v : Nat) : beValue (beBytes n v) = v % 256 ^ n := by
  induction n generalizing v with
  | zero => simp [beBytes, beValue, Nat.mod_one]
  | succ n ih =>
    rw [beBytes_succ, beValue_concat, ih, Nat.pow_succ', Nat.mod_mul, BitVec.toNat_ofNat]
    omega

theorem beBytes_mod (n v : Nat) : beBytes n (v % 256 ^ n) = beBytes n v := by
  induction n generalizing v with
  | zero => rfl
  | succ n ih =>
    rw [beBytes_succ, beBytes_succ, Nat.pow_succ', Nat.mod_mul_right_div_self, ih]
    congr 2
    apply BitVec.eq_of_toNat_eq
    simp

end Sys2Proof.Machine
end

section
/-! `inc16` (40_block_primitives R126): what it does to the value of the low two bytes and to the rest of the block,
once and `n` times. -/

namespace Sys2Proof.Machine

/-- The value of bytes 14 and 15, big-endian: the part of a counter block that `inc16` counts in (R126). -/
def lowValue (x : Block) : Nat := 256 * x[14].toNat + x[15].toNat

theorem lowValue_eq_beValue_slice (x : Block) : lowValue x = beValue (slice x.toList 14 16) := by
  have hlow : slice x.toList 14 16 = [x[14], x[15]] := by
    apply List.ext_getElem (by simp)
    intro i h1 h2
    have hi : i < 2 := by simpa using h2
    interval_cases i <;> simp [slice]
  simp [hlow, beValue, lowValue, Nat.mul_comm]

theorem lowValue_lt (x : Block) : lowValue x < 65536 := by
  have h14 := x[14].isLt
  have h15 := x[15].isLt
  unfold lowValue
  omega

/-- A block is its bytes 0 to 13 and the value of the other two. -/
theorem block_ext_lowValue {x y : Block} (hhigh : ∀ (i : Nat) (h : i < 14), x[i] = y[i])
    (hlow : lowValue x = lowValue y) : x = y := by
  have h14 := x[14].isLt
  have h15 := x[15].isLt
  have g14 := y[14].isLt
  have g15 := y[15].isLt
  unfold lowValue at hlow
  apply Vector.ext
  intro i hi
  by_cases hi14 : i < 14
  · exact hhigh i hi14
  · apply BitVec.eq_of_toNat_eq
    obtain rfl | rfl : i = 14 ∨ i = 15 := by omega
    · omega
    · omega

/-- `inc16` leaves bytes 0 to 13 (R126). -/
theorem getElem_inc16_of_lt (x : Block) (i : Nat) (h : i < 14) : (inc16 x)[i] = x[i] := by
  rw [← Vector.getElem_toList (by simp; omega), ← Vector.getElem_toList (xs := x) (by simp; omega)]
  simp [toList_inc16, h]

theorem getElem_inc16_14 (x : Block) : (inc16 x)[14] = BitVec.ofNat 8 ((lowValue x + 1) % 65536 / 256) := by
  rw [← Vector.getElem_toList (by simp)]
  simp [toList_inc16, be16, lowValue_eq_beValue_slice]

theorem getElem_inc16_15 (x : Block) : (inc16 x)[15] = BitVec.ofNat 8 ((lowValue x + 1) % 65536) := by
  rw [← Vector.getElem_toList (by simp)]
  simp [toList_inc16, be16, lowValue_eq_beValue_slice]

theorem lowValue_inc16 (x : Block) : lowValue (inc16 x) = (lowValue x + 1) % 65536 := by
  rw [lowValue, getElem_inc16_14, getElem_inc16_15, BitVec.toNat_ofNat, BitVec.toNat_ofNat]
  omega

/-- Byte 15 counts by itself: it never sees byte 14 (R126). -/
theorem getElem_inc16_15_eq_add_one (x : Block) : (inc16 x)[15] = x[15] + 1 := by
  rw [getElem_inc16_15, lowValue]
  bv_omega

/-- Byte 14 takes the carry out of byte 15, and its own carry is dropped (R126). -/
theorem getElem_inc16_14_eq_carry (x : Block) : (inc16 x)[14] = if x[15] + 1 = 0 then x[14] + 1 else x[14] := by
  rw [getElem_inc16_14, lowValue]
  split
  · bv_omega
  · bv_omega

theorem getElem_iterate_inc16_of_lt (n : Nat) (x : Block) (i : Nat) (h : i < 14) : (inc16^[n] x)[i] = x[i] := by
  induction n with
  | zero => rfl
  | succ n ih => simp only [Function.iterate_succ_apply', getElem_inc16_of_lt _ i h, ih]

theorem lowValue_iterate_inc16 (n : Nat) (x : Block) : lowValue (inc16^[n] x) = (lowValue x + n) % 65536 := by
  induction n with
  | zero => exact (Nat.mod_eq_of_lt (lowValue_lt x)).symm
  | succ n ih =>
    rw [Function.iterate_succ_apply', lowValue_inc16, ih]
    omega

/-- The counter comes back to where it was exactly after a multiple of 65536 steps (42_ctr R171). -/
theorem iterate_inc16_eq_self_iff (n : Nat) (x : Block) : inc16^[n] x = x ↔ n % 65536 = 0 := by
  have hlt := lowValue_lt x
  have hlow := lowValue_iterate_inc16 n x
  constructor
  · intro h
    rw [h] at hlow
    omega
  · intro h
    exact block_ext_lowValue (fun i hi => getElem_iterate_inc16_of_lt n x i hi) (by omega)

/-- Settles O7, from what `inc16` does to `lowValue` and to the other bytes. -/
theorem inc16IncrementsTheLowTwoBytes : Obligations.Inc16IncrementsTheLowTwoBytes := by
  unfold Obligations.Inc16IncrementsTheLowTwoBytes
  exact fun x => ⟨getElem_inc16_of_lt x, lowValue_inc16 x, getElem_inc16_15_eq_add_one x, getElem_inc16_14_eq_carry x,
    fun n => iterate_inc16_eq_self_iff n x⟩

end Sys2Proof.Machine
end

section
/-! `dbl` (40_block_primitives R127). With `V` the value of the block, its bytes 0 to 14 are those of `V / 128` and
byte 15 is the low byte of `2 * V` with the conditional XOR; the bytewise and the integer form both follow. -/

namespace Sys2Proof.Machine

/-- What `dbl` XORs into the last byte: 0x87 iff the most significant bit of the input is 1 (R127). -/
def dblReduction (x : Block) : Byte := if x[0].getLsbD 7 then 0x87 else 0

theorem toNat_dblReduction (x : Block) : (dblReduction x).toNat = if x[0].getLsbD 7 then 0x87 else 0 := by
  unfold dblReduction
  split <;> rfl

theorem toList_dbl (x : Block) :
    (dbl x).toList =
      beBytes 15 (beValue x.toList / 128) ++ [BitVec.ofNat 8 (2 * beValue x.toList) ^^^ dblReduction x] := by
  have hdouble : beBytes 16 (2 * beValue x.toList % 2 ^ 128) =
      beBytes 15 (beValue x.toList / 128) ++ [BitVec.ofNat 8 (2 * beValue x.toList)] := by
    rw [show (2 : Nat) ^ 128 = 256 ^ 16 by norm_num, beBytes_mod, beBytes_succ,
      show 2 * beValue x.toList / 256 = beValue x.toList / 128 by omega]
  have hmsb : x.toList.getD 0 0 = x[0] := by simp [List.getD_eq_getElem?_getD]
  have hlen := length_beBytes 15 (beValue x.toList / 128)
  unfold dbl dblReduction
  rw [hdouble, hmsb]
  split
  · rw [toList_ofBytes_of_length (by simp [slice, hlen])]
    simp [slice, hlen, List.getD_eq_getElem?_getD]
  · rw [toList_ofBytes_of_length (by simp [hlen])]
    simp

/-- The left shift by one of the second lowest byte of a number, with the top bit of the lowest shifted in (R127). -/
theorem shiftLeft_or_shiftRight_eq_ofNat (v : Nat) :
    (BitVec.ofNat 8 (v / 256) <<< 1) ||| (BitVec.ofNat 8 v >>> 7) = BitVec.ofNat 8 (v / 128) := by
  apply BitVec.eq_of_getLsbD_eq
  intro j hj
  simp only [BitVec.getLsbD_or, BitVec.getLsbD_shiftLeft, BitVec.getLsbD_ushiftRight, BitVec.getLsbD_ofNat,
    show (256 : Nat) = 2 ^ 8 by rfl, show (128 : Nat) = 2 ^ 7 by rfl, Nat.testBit_div_two_pow]
  cases j with
  | zero => simp
  | succ j => simp [show j < 8 by omega, hj, Nat.add_assoc, Nat.add_comm 7]

/-- The shift, byte by byte (R127). -/
theorem getElem_dbl_of_lt (x : Block) (i : Nat) (h : i < 15) : (dbl x)[i] = (x[i] <<< 1) ||| (x[i + 1] >>> 7) := by
  have hdbl : (dbl x)[i] = BitVec.ofNat 8 (beValue x.toList / 256 ^ (14 - i) / 128) := by
    rw [← Vector.getElem_toList (by simp; omega)]
    simp [toList_dbl, h, beBytes, Nat.div_div_eq_div_mul, Nat.mul_comm]
  have hx : x[i] = BitVec.ofNat 8 (beValue x.toList / 256 ^ (14 - i) / 256) := by
    rw [getElem_block_eq_ofNat_beValue, Nat.div_div_eq_div_mul, ← Nat.pow_succ, show (14 - i).succ = 15 - i by omega]
  have hnext : x[i + 1] = BitVec.ofNat 8 (beValue x.toList / 256 ^ (14 - i)) := by
    rw [getElem_block_eq_ofNat_beValue, show 15 - (i + 1) = 14 - i by omega]
  rw [hdbl, hx, hnext, shiftLeft_or_shiftRight_eq_ofNat]

/-- The last byte: nothing is shifted in, and the conditional XOR (R127). -/
theorem getElem_dbl_15 (x : Block) : (dbl x)[15] = (x[15] <<< 1) ^^^ dblReduction x := by
  have hdbl : (dbl x)[15] = BitVec.ofNat 8 (2 * beValue x.toList) ^^^ dblReduction x := by
    rw [← Vector.getElem_toList (by simp)]
    simp [toList_dbl, length_beBytes]
  have hx : x[15] = BitVec.ofNat 8 (beValue x.toList) := by
    simp [getElem_block_eq_ofNat_beValue]
  have hshift : BitVec.ofNat 8 (2 * beValue x.toList) = BitVec.ofNat 8 (beValue x.toList) <<< 1 := by
    bv_omega
  rw [hdbl, hx, hshift]

/-- An XOR into the low byte of a number changes no other. -/
theorem mul_256_add_toNat_xor (a : Nat) (b r : Byte) :
    a * 256 + (b ^^^ r).toNat = (a * 256 + b.toNat) ^^^ r.toNat := by
  have hb := b.isLt
  have hr := r.isLt
  have hdiv : ((a * 256 + b.toNat) ^^^ r.toNat) / 2 ^ 8 = a := by
    rw [Nat.xor_div_two_pow, Nat.div_eq_of_lt hr, Nat.xor_zero]
    omega
  have hmod : ((a * 256 + b.toNat) ^^^ r.toNat) % 2 ^ 8 = (b ^^^ r).toNat := by
    rw [Nat.xor_mod_two_pow, Nat.mod_eq_of_lt hr, show (a * 256 + b.toNat) % 2 ^ 8 = b.toNat by omega, BitVec.toNat_xor]
  omega

/-- The integer form (R127). -/
theorem beValue_dbl (x : Block) :
    beValue (dbl x).toList = (2 * beValue x.toList % 2 ^ 128) ^^^ (dblReduction x).toNat := by
  have hdouble : 2 * beValue x.toList % 2 ^ 128 =
      beValue x.toList / 128 % 256 ^ 15 * 256 + (BitVec.ofNat 8 (2 * beValue x.toList)).toNat := by
    rw [BitVec.toNat_ofNat]
    omega
  rw [toList_dbl, beValue_concat, beValue_beBytes, mul_256_add_toNat_xor, hdouble]

/-- Settles O8, from the bytes of `dbl` and its value. -/
theorem dblIsShiftWithConditionalXor : Obligations.DblIsShiftWithConditionalXor := by
  unfold Obligations.DblIsShiftWithConditionalXor
  intro x
  refine ⟨getElem_dbl_of_lt x, getElem_dbl_15 x, ?_⟩
  rw [beValue_dbl, toNat_dblReduction]

end Sys2Proof.Machine
end

section
/-! `blocks` and `zpad` (40_block_primitives R128). -/

namespace Sys2Proof.Machine

/-- Up to the next multiple of 16 or up to the end of the string: the same 16 bytes at most (R128). -/
theorem slice_min_length (s : List Byte) (i : Nat) : slice s i (min (i + 16) s.length) = (s.drop i).take 16 := by
  rw [slice, List.take_eq_take_iff, List.length_drop]
  omega

theorem getElem_blocks (s : List Byte) (j : Nat) (h : j < (blocks s).length) :
    (blocks s)[j] = (s.drop (16 * j)).take 16 := by
  induction s using chunk_induction generalizing j with
  | nil => simp at h
  | cons s hs ih =>
    simp only [blocks_cons s hs] at h ⊢
    cases j with
    | zero => simp
    | succ j =>
      rw [List.getElem_cons_succ, ih j (by simpa using h), List.drop_drop, show 16 + 16 * j = 16 * (j + 1) by omega]

/-- A string of whole blocks is not padded (R128). -/
theorem zpad_of_length_mod (s : List Byte) (h : s.length % 16 = 0) : zpad s = s := by simp [zpad, h]

/-- Settles O9: the number and the place of the chunks, and the length that `zpad` pads to. -/
theorem blocksSplitAndZpadPads : Obligations.BlocksSplitAndZpadPads := by
  unfold Obligations.BlocksSplitAndZpadPads
  exact fun s => ⟨length_blocks s, fun j h => by rw [slice_min_length, getElem_blocks], rfl, length_zpad s,
    zpad_of_length_mod s⟩

end Sys2Proof.Machine
end

section
/-! The acceptance of a command (40_block_primitives R131). -/

namespace Sys2Proof.Machine

/-- The host's write to `CMD` while idle is `acceptCommand` (R26, R131). -/
theorem step_write_cmd {s : State} {w : Word} {rest : List Input} (hb : s.busy = false)
    (hi : s.inputs = .access (.regWrite 4 0x010 w) :: rest) :
    step s = .next (acceptCommand w { s with inputs := rest }) := by
  have hreg : accessedReg 4 0x010 = some .cmd := rfl
  have hwrite : hostAccess hw (.regWrite 4 0x010 w) { s with inputs := rest } =
      writeIdleReg .cmd w { s with inputs := rest } := hostRegWrite_idle hreg hb
  rw [step_access hi, hwrite, writeIdleReg]

/-- A command just accepted does not request an interrupt, whatever `IE` is (R131, R272). -/
theorem irq_acceptCommand (w : Word) (s : State) : (acceptCommand w s).irq = false := by simp [State.irq]

/-- Settles O12: the step is `acceptCommand`. -/
theorem writeToCmdAcceptsTheCommand : Obligations.WriteToCmdAcceptsTheCommand := by
  unfold Obligations.WriteToCmdAcceptsTheCommand
  exact fun s w rest hb hi => ⟨_, step_write_cmd hb hi, irq_acceptCommand w _, rfl⟩

end Sys2Proof.Machine
end

section
/-! The CBC engine (41_cbc R150 to R158): the chains block by block, what `CBC_ENC` leaves in `BUF` on legal operands, and
what `CBC_DEC` makes of a ciphertext. The statements of R158 hold on any configuration, so the lemmas do too. -/

namespace Sys2Proof.Machine

/-! ### The chains, block by block (R150) -/

/-- The chaining value of block `i` stands at place `i` of the IV followed by the ciphertext (R150). -/
theorem getElem_cbcEncChain (enc : Block → Block) (iv : Block) (xs : List Block) (i : Nat) (h : i < xs.length) :
    (cbcEncChain enc iv xs)[i]'(by simpa using h) =
      enc (xorBlock xs[i] ((iv :: cbcEncChain enc iv xs)[i]'(by simp; omega))) := by
  induction xs generalizing iv i with
  | nil => simp at h
  | cons x xs ih =>
    cases i with
    | zero => rfl
    | succ i => exact ih (enc (xorBlock x iv)) i (by simpa using h)

/-- The chaining value of block `i` stands at place `i` of the IV followed by the input (R150). -/
theorem getElem_cbcDecChain (dec : Block → Block) (iv : Block) (xs : List Block) (i : Nat) (h : i < xs.length) :
    (cbcDecChain dec iv xs)[i]'(by simpa using h) = xorBlock (dec xs[i]) ((iv :: xs)[i]'(by simp; omega)) := by
  induction xs generalizing iv i with
  | nil => simp at h
  | cons x xs ih =>
    cases i with
    | zero => rfl
    | succ i => exact ih x i (by simpa using h)

/-- Settles O20: the blocks of the two chains, and decryption block by block with R121(b) at the key. -/
theorem cbcChainsAreTheRecurrences : Obligations.CbcChainsAreTheRecurrences := by
  unfold Obligations.CbcChainsAreTheRecurrences
  refine ⟨fun enc iv xs i h => ?_, fun dec iv xs i h => ?_, fun cfg k iv xs haes hk => ?_⟩
  · have hc : i < (iv :: cbcEncChain enc iv xs).length := by simp; omega
    rw [List.getElem?_eq_getElem (by simpa using h), getElem_cbcEncChain enc iv xs i h, List.getD_eq_getElem _ _ hc]
  · have hc : i < (iv :: xs).length := by simp; omega
    rw [List.getElem?_eq_getElem (by simpa using h), getElem_cbcDecChain dec iv xs i h, List.getD_eq_getElem _ _ hc]
  · exact cbcDecChain_cbcEncChain (fun b => (haes k b hk).1) iv xs

/-! ### `PadLen` (R153) -/

/-- Settles O21: the length `p` is `padLength`. -/
theorem padLenAppendsItsLength : Obligations.PadLenAppendsItsLength := by
  unfold Obligations.PadLenAppendsItsLength
  intro m
  obtain ⟨hpos, hle, hmod⟩ := padLength_bounds m.length
  exact ⟨padLength m.length, hpos, hle, rfl, rfl, length_padLenPad m, by rwa [length_padLenPad],
    by rw [length_padLenPad]; omega⟩

/-- The plaintext stands first in what `CBC_ENC` chains, whatever the policy (R152). -/
theorem exists_cbcPadded_eq_append (pad : Nat) (m : List Byte) : ∃ q, cbcPadded pad m = m ++ q := by
  unfold cbcPadded
  split
  · exact ⟨[], (List.append_nil m).symm⟩
  · exact ⟨_, rfl⟩

/-- What `CBC_DEC` truncates is what the padding added (R156). -/
theorem cbcDecPad_cbcPadded (pad : Nat) (m : List Byte) :
    m.length + cbcDecPad pad (cbcPadded pad m) = (cbcPadded pad m).length := by
  unfold cbcDecPad cbcPadded
  split
  · rfl
  · rw [getD_last_padLenPad, length_padLenPad]

/-! ### Reading the first bytes of what was written (R62) -/

theorem memRead_memWrite_append (s : State) (a : Nat) (v w : List Byte) :
    memRead (memWrite s a (v ++ w)) a v.length = v := by
  have hall := memRead_memWrite_same s a (v ++ w)
  rw [List.length_append, memRead_append] at hall
  exact List.append_inj_left hall (length_memRead _ _ _)

/-! ### Lengths in their registers (R33) -/

/-- The length that a register holds goes back into a register unchanged. -/
theorem lengthWord_toNat (w : Word) : lengthWord w.toNat = w := by simp [lengthWord]

/-! ### `CBC_ENC` on legal operands (R152, R154) -/

section
variable {cfg : Config} {pad : Nat} {s : State}

/-- The ciphertext that `CBC_ENC` computes in state `s` (R152). -/
def cbcEncResult (cfg : Config) (pad : Nat) (s : State) : List Byte :=
  cbcEncBytes (cfg.aesEnc (keyBytes s)) s.ivctr pad (srcBytes s)

theorem length_cbcEncResult (h : CbcEncLegal cfg pad s) :
    (cbcEncResult cfg pad s).length = cbcEncOutLen pad s.len.toNat := by
  obtain ⟨-, -, hlen, -⟩ := h
  rw [cbcEncResult, length_cbcEncBytes _ _ _ _ (fun hp => by simpa using (hlen hp).2), length_srcBytes]

/-- The ciphertext is a positive number of whole blocks (R154). -/
theorem cbcEncOutLen_pos_and_mod (h : CbcEncLegal cfg pad s) :
    0 < cbcEncOutLen pad s.len.toNat ∧ cbcEncOutLen pad s.len.toNat % 16 = 0 := by
  obtain ⟨-, -, hlen, -⟩ := h
  unfold cbcEncOutLen
  split
  · next hp => exact hlen hp
  · obtain ⟨hpos, -, hmod⟩ := padLength_bounds s.len.toNat
    exact ⟨by omega, hmod⟩

/-- `CBC_ENC` as an update of the state before it (R152). -/
theorem cbcEnc_eq (h : CbcEncLegal cfg pad s) :
    cbcEnc cfg pad s =
      { s with buf := s.buf.writeBytes s.dst.toNat (cbcEncResult cfg pad s),
               outLen := lengthWord (cbcEncOutLen pad s.len.toNat),
               errcode := .none, err := false, busy := false, done := true } := by
  rw [← length_cbcEncResult h, cbcEnc_of_legal h, cbcEncEffect_eq]
  rfl

/-- `OUTLEN` holds the ciphertext's length, which lies inside `BUF` and so fits the register (R154). -/
theorem toNat_outLen_cbcEnc (h : CbcEncLegal cfg pad s) (hbuf : cfg.bufBytes < 2 ^ 32) :
    (cbcEnc cfg pad s).outLen.toNat = cbcEncOutLen pad s.len.toNat := by
  obtain ⟨hpos, -⟩ := cbcEncOutLen_pos_and_mod h
  rw [cbcEnc_eq h]
  obtain ⟨-, -, -, -, hfits, -⟩ := h
  exact toNat_lengthWord (by simp only [Region.Fits] at hfits; omega)

theorem keysel_cbcEnc (h : CbcEncLegal cfg pad s) : (cbcEnc cfg pad s).keysel = s.keysel := by
  rw [cbcEnc_eq h]

theorem keyBytes_cbcEnc (h : CbcEncLegal cfg pad s) : keyBytes (cbcEnc cfg pad s) = keyBytes s := by
  rw [cbcEnc_eq h]
  rfl

theorem ivctr_cbcEnc (h : CbcEncLegal cfg pad s) : (cbcEnc cfg pad s).ivctr = s.ivctr := by
  rw [cbcEnc_eq h]

theorem byteAt_cbcEnc (h : CbcEncLegal cfg pad s) (a : Nat) :
    (cbcEnc cfg pad s).byteAt a = (memWrite s s.dst.toNat (cbcEncResult cfg pad s)).byteAt a := by
  rw [cbcEnc_eq h]
  exact byteAt_congr rfl rfl a

/-- The ciphertext stands at `DST` (R152). -/
theorem memRead_cbcEnc (h : CbcEncLegal cfg pad s) :
    memRead (cbcEnc cfg pad s) s.dst.toNat (cbcEncOutLen pad s.len.toNat) = cbcEncResult cfg pad s := by
  rw [memRead_congr fun i _ => byteAt_cbcEnc h _, ← length_cbcEncResult h, memRead_memWrite_same]

theorem byteAt_cbcEnc_outside (h : CbcEncLegal cfg pad s) {a : Nat}
    (ha : a < s.dst.toNat ∨ s.dst.toNat + cbcEncOutLen pad s.len.toNat ≤ a) :
    (cbcEnc cfg pad s).byteAt a = s.byteAt a := by
  rw [byteAt_cbcEnc h, byteAt_memWrite_outside]
  rwa [length_cbcEncResult h]

end

/-- Settles O22, from what `CBC_ENC` leaves in `OUTLEN` and in `BUF`. -/
theorem cbcEncWritesTheCiphertext : Obligations.CbcEncWritesTheCiphertext := by
  unfold Obligations.CbcEncWritesTheCiphertext
  intro pad s h
  obtain ⟨hpos, hmod⟩ := cbcEncOutLen_pos_and_mod h
  have hout := toNat_outLen_cbcEnc h (by decide)
  refine ⟨cbcEnc hw pad s, exec_cbcEnc pad s, ?frame, ?outLen, ?pos, ?mod, ?result, ?outside⟩
  case frame => rw [cbcEnc_eq h]
  case outLen => exact hout
  case pos => rwa [hout]
  case mod => rwa [hout]
  case result => rw [hout, memRead_cbcEnc h]; rfl
  case outside => rw [hout]; exact fun a ha => byteAt_cbcEnc_outside h ha

/-! ### `CBC_DEC` of a ciphertext (R156, R158) -/

section
variable {cfg : Config} {pad : Nat} {u : State}

/-- In a state with the key and the IV of `s` and the ciphertext of `s` at `SRC`, `CBC_DEC` computes the padded
plaintext. -/
theorem cbcDecResult_of_cbcEncResult {s : State} (haes : cfg.AesInverse) (h : CbcEncLegal cfg pad s)
    (hkey : keyBytes u = keyBytes s) (hiv : u.ivctr = s.ivctr) (hsrc : srcBytes u = cbcEncResult cfg pad s) :
    cbcDecResult cfg u = cbcPadded pad (srcBytes s) := by
  obtain ⟨-, hsel, hlen, -⟩ := h
  rw [cbcDecResult, hkey, hiv, hsrc]
  exact cbcDecBytes_cbcEncBytes (fun b => (haes _ b (length_keyBytes s hsel)).1) _ _ _
    (fun hp => by simpa using (hlen hp).2)

/-- When the decrypted bytes are a padded message, `CBC_DEC` gives the message back (R156). -/
theorem cbcDec_of_cbcDecResult_padded {m : List Byte} (h : CbcDecLegal cfg pad u)
    (hx : cbcDecResult cfg u = cbcPadded pad m) :
    (cbcDec cfg pad u).errcode = .none ∧ (cbcDec cfg pad u).outLen = lengthWord m.length ∧
    memRead (cbcDec cfg pad u) u.dst.toNat m.length = m := by
  have hlen : (cbcPadded pad m).length = u.len.toNat := by
    obtain ⟨-, -, -, hmod, -⟩ := h
    rw [← hx, cbcDecResult, length_cbcDecBytes _ _ _ (by rwa [length_srcBytes]), length_srcBytes]
  have hpad := cbcDecPad_cbcPadded pad m
  have htrunc : u.len.toNat - cbcDecPad pad (cbcPadded pad m) = m.length := by omega
  obtain ⟨q, hq⟩ := exists_cbcPadded_eq_append pad m
  have hread : memRead (memWrite u u.dst.toNat (cbcPadded pad m)) u.dst.toNat m.length = m := by
    rw [hq, memRead_memWrite_append]
  rw [cbcDec_of_legal h (by rw [hx]; omega), cbcDecEffect_eq]
  simp only [hx, htrunc]
  exact ⟨trivial, trivial, (memRead_of_buf rfl rfl _ _).trans hread⟩

end

/-- Settles O25: the second command finds the first one's ciphertext at its `SRC`, with the same key and IV. -/
theorem cbcDecUndoesCbcEnc : Obligations.CbcDecUndoesCbcEnc := by
  unfold Obligations.CbcDecUndoesCbcEnc
  intro cfg pad s d haes hbuf h t s2 hfits hok
  obtain ⟨hpos, hmod⟩ := cbcEncOutLen_pos_and_mod h
  have hout : t.outLen.toNat = cbcEncOutLen pad s.len.toNat := toNat_outLen_cbcEnc h hbuf
  have hkey : keyBytes s2 = keyBytes s := keyBytes_cbcEnc h
  have hiv : s2.ivctr = s.ivctr := ivctr_cbcEnc h
  have hsrc : srcBytes s2 = cbcEncResult cfg pad s := by
    rw [← memRead_cbcEnc h, ← hout]
    exact memRead_of_buf rfl rfl _ _
  have hregion : srcRegion s2 = dstRegion s (cbcEncOutLen pad s.len.toNat) := congrArg (Region.mk s.dst.toNat) hout
  have hlegal : CbcDecLegal cfg pad s2 := by
    have hsel : s2.keysel = s.keysel := keysel_cbcEnc h
    obtain ⟨hpad, hsel3, -, -, hdst, -⟩ := h
    exact ⟨hpad, hsel ▸ hsel3, hout ▸ hpos, hout ▸ hmod, hregion ▸ hdst, hfits, hok⟩
  obtain ⟨herr, hlen, hread⟩ :=
    cbcDec_of_cbcDecResult_padded hlegal (cbcDecResult_of_cbcEncResult haes h hkey hiv hsrc)
  rw [length_srcBytes] at hlen hread
  exact ⟨herr, by rw [hlen, lengthWord_toNat], hread⟩

end Sys2Proof.Machine
end

section
/-! The keystream of CTR (42_ctr R170): the counter of each chunk, and `ctr_stream` byte by byte. -/

namespace Sys2Proof.Machine

/-! ### The counter after `k` chunks -/

/-- The counter block of chunk `k` (R170): `c0` with its last two bytes advanced by `k`. -/
def ctrCounter (c0 : Block) (k : Nat) : Block := ofBytes 16 (c0.toList.take 14 ++ be16 ((lowValue c0 + k) % 65536))

theorem toList_ctrCounter (c0 : Block) (k : Nat) :
    (ctrCounter c0 k).toList = c0.toList.take 14 ++ be16 ((lowValue c0 + k) % 65536) :=
  toList_ofBytes_of_length (by simp [length_be16])

theorem getElem_ctrCounter_of_lt (c0 : Block) (k i : Nat) (h : i < 14) : (ctrCounter c0 k)[i] = c0[i] := by
  rw [← Vector.getElem_toList (by simp; omega), ← Vector.getElem_toList (xs := c0) (by simp; omega)]
  simp [toList_ctrCounter, h]

theorem lowValue_ctrCounter (c0 : Block) (k : Nat) : lowValue (ctrCounter c0 k) = (lowValue c0 + k) % 65536 := by
  have h14 : (ctrCounter c0 k)[14] = BitVec.ofNat 8 ((lowValue c0 + k) % 65536 / 256) := by
    rw [← Vector.getElem_toList (by simp)]
    simp [toList_ctrCounter, be16]
  have h15 : (ctrCounter c0 k)[15] = BitVec.ofNat 8 ((lowValue c0 + k) % 65536) := by
    rw [← Vector.getElem_toList (by simp)]
    simp [toList_ctrCounter, be16]
  rw [lowValue, h14, h15, BitVec.toNat_ofNat, BitVec.toNat_ofNat]
  omega

/-- Incrementing after each chunk gives the counter that R170 writes out. -/
theorem iterate_inc16_eq_ctrCounter (k : Nat) (c0 : Block) : inc16^[k] c0 = ctrCounter c0 k := by
  apply block_ext_lowValue
  · intro i hi
    rw [getElem_iterate_inc16_of_lt k c0 i hi, getElem_ctrCounter_of_lt c0 k i hi]
  · rw [lowValue_iterate_inc16, lowValue_ctrCounter]

/-! ### The stream -/

/-- Byte `n` of the keystream from counter `c0` (R170). -/
def keystreamByte (enc : Block → Block) (c0 : Block) (n : Nat) : Byte :=
  (enc (ctrCounter c0 (n / 16))).toList.getD (n % 16) 0

/-- In the first chunk the keystream is the encryption of the counter itself. -/
theorem keystreamByte_of_lt (enc : Block → Block) (c0 : Block) (n : Nat) (h : n < 16) :
    keystreamByte enc c0 n = (enc c0)[n] := by
  have hc : ctrCounter c0 0 = c0 := (iterate_inc16_eq_ctrCounter 0 c0).symm
  rw [keystreamByte, Nat.div_eq_of_lt h, Nat.mod_eq_of_lt h, hc, List.getD_eq_getElem _ _ (by simpa using h),
    Vector.getElem_toList]

/-- The keystream 16 bytes on is that of the next counter. -/
theorem keystreamByte_add_16 (enc : Block → Block) (c0 : Block) (n : Nat) :
    keystreamByte enc c0 (n + 16) = keystreamByte enc (inc16 c0) n := by
  have hc : ctrCounter c0 (n / 16 + 1) = ctrCounter (inc16 c0) (n / 16) := by
    rw [← iterate_inc16_eq_ctrCounter, ← iterate_inc16_eq_ctrCounter, Function.iterate_succ_apply]
  rw [keystreamByte, Nat.add_div_right n (by omega), Nat.add_mod_right, hc, keystreamByte]

theorem getElem_ctrStream (enc : Block → Block) (c0 : Block) (d : List Byte) (n : Nat) (h : n < d.length) :
    (ctrStream enc c0 d)[n]'(by simpa using h) = d[n] ^^^ keystreamByte enc c0 n := by
  induction d using chunk_induction generalizing c0 n with
  | nil => simp at h
  | cons d hd ih =>
    simp only [ctrStream_cons enc c0 d hd]
    by_cases hn : n < 16
    · rw [List.getElem_append_left (by simp; omega), getElem_xorBytes, keystreamByte_of_lt enc c0 n hn,
        List.getElem_take, Vector.getElem_toList]
    · obtain ⟨m, rfl⟩ : ∃ m, n = m + 16 := ⟨n - 16, by omega⟩
      have hlen : (xorBytes (d.take 16) (enc c0).toList).length = 16 := by simp; omega
      rw [List.getElem_append_right (by omega), keystreamByte_add_16]
      simp only [hlen, Nat.add_sub_cancel]
      rw [ih (inc16 c0) m (by simp; omega), List.getElem_drop]
      simp only [Nat.add_comm 16 m]

/-- Each byte meets the same keystream byte twice (R170). -/
theorem ctrStream_ctrStream (enc : Block → Block) (c0 : Block) (d : List Byte) :
    ctrStream enc c0 (ctrStream enc c0 d) = d := by
  apply List.ext_getElem (by simp)
  intro n h1 h2
  rw [getElem_ctrStream _ _ _ _ (by simpa using h2), getElem_ctrStream _ _ _ _ h2, BitVec.xor_assoc, BitVec.xor_self,
    BitVec.xor_zero]

/-- Settles O26, from the stream byte by byte. -/
theorem ctrStreamXorsTheKeystream : Obligations.CtrStreamXorsTheKeystream := by
  unfold Obligations.CtrStreamXorsTheKeystream
  refine fun enc c0 d => ⟨length_ctrStream enc c0 d, fun n h => ?_, ctrStream_ctrStream enc c0 d⟩
  rw [List.getElem?_eq_getElem (by simpa using h), getElem_ctrStream enc c0 d n h,
    keystreamByte, ctrCounter, lowValue]

end Sys2Proof.Machine
end

section
/-! `CTR_CRYPT` (42_ctr R171, R172): what it leaves on legal operands, its second run on the first's output, and the
cap. -/

namespace Sys2Proof.Machine

section
variable {cfg : Config} {s : State}

/-- The bytes that `CTR_CRYPT` computes in state `s` (R171). -/
def ctrCryptResult (cfg : Config) (s : State) : List Byte := ctrStream (cfg.aesEnc (keyBytes s)) s.ivctr (srcBytes s)

theorem length_ctrCryptResult (cfg : Config) (s : State) : (ctrCryptResult cfg s).length = s.len.toNat := by
  simp [ctrCryptResult]

/-- `CTR_CRYPT` as an update of the state before it (R171). -/
theorem ctrCrypt_eq (h : CtrLegal cfg s) :
    ctrCrypt cfg s =
      { s with buf := s.buf.writeBytes s.dst.toNat (ctrCryptResult cfg s), outLen := s.len,
               errcode := .none, err := false, busy := false, done := true } := by
  rw [ctrCrypt_of_legal h, ctrCryptEffect_eq, ctrCryptResult]

theorem byteAt_ctrCrypt (h : CtrLegal cfg s) (a : Nat) :
    (ctrCrypt cfg s).byteAt a = (memWrite s s.dst.toNat (ctrCryptResult cfg s)).byteAt a := by
  rw [ctrCrypt_eq h]
  exact byteAt_congr rfl rfl a

/-- The result stands at `DST` (R171). -/
theorem memRead_ctrCrypt (h : CtrLegal cfg s) :
    memRead (ctrCrypt cfg s) s.dst.toNat s.len.toNat = ctrCryptResult cfg s := by
  rw [memRead_congr fun i _ => byteAt_ctrCrypt h _, ← length_ctrCryptResult cfg s, memRead_memWrite_same]

theorem errcode_ctrCrypt (h : CtrLegal cfg s) : (ctrCrypt cfg s).errcode = .none := by
  rw [ctrCrypt_eq h]

/-- With the key and the counter of `s`, and what `CTR_CRYPT` made of the input of `s` as its own input, it computes the
input of `s` (R172). -/
theorem ctrCryptResult_of_ctrCryptResult {u : State} (hkey : keyBytes u = keyBytes s) (hiv : u.ivctr = s.ivctr)
    (hsrc : srcBytes u = ctrCryptResult cfg s) : ctrCryptResult cfg u = srcBytes s := by
  rw [ctrCryptResult, hkey, hiv, hsrc, ctrCryptResult, ctrStream_ctrStream]

/-- Above the cap, with a legal key selector, the first failing check is the length's (R171, R172). -/
theorem ctrCrypt_of_tooLong (hkey : s.keysel ≠ 3) (hlen : 16 * 65536 < s.len.toNat) :
    ctrCrypt cfg s = raiseError .tooLong s := by
  apply runChecked_of_some
  have hcap : ctrMaxLen < s.len.toNat := hlen
  rw [ctrCryptChecks, firstError_cons, checkKey_fails, decide_eq_false hkey, if_neg (by decide), firstError_cons,
    decide_eq_true hcap, if_pos rfl]

/-! ### The second run -/

/-- The operands of the second run (R172): the first run's output is its input, `d` is where it writes. -/
def ctrSecondRun (cfg : Config) (s : State) (d : Word) : State := { ctrCrypt cfg s with src := s.dst, dst := d }

variable {d : Word}

/-- `CTR_CRYPT` and the host's writes to `SRC` and `DST` leave the key, the counter and `LEN`. -/
theorem ctrSecondRun_eq (h : CtrLegal cfg s) :
    ctrSecondRun cfg s d =
      { s with buf := s.buf.writeBytes s.dst.toNat (ctrCryptResult cfg s), outLen := s.len, src := s.dst, dst := d,
               errcode := .none, err := false, busy := false, done := true } := by
  rw [ctrSecondRun, ctrCrypt_eq h]

theorem len_ctrSecondRun (h : CtrLegal cfg s) : (ctrSecondRun cfg s d).len = s.len := by rw [ctrSecondRun_eq h]

theorem keyBytes_ctrSecondRun (h : CtrLegal cfg s) : keyBytes (ctrSecondRun cfg s d) = keyBytes s := by
  rw [ctrSecondRun_eq h]
  rfl

theorem ivctr_ctrSecondRun (h : CtrLegal cfg s) : (ctrSecondRun cfg s d).ivctr = s.ivctr := by rw [ctrSecondRun_eq h]

theorem srcBytes_ctrSecondRun (h : CtrLegal cfg s) : srcBytes (ctrSecondRun cfg s d) = ctrCryptResult cfg s := by
  rw [← memRead_ctrCrypt h, srcBytes, len_ctrSecondRun h]
  exact memRead_of_buf rfl rfl _ _

/-- Its input region is the first run's output region, which is legal; its output region is legal by hypothesis. -/
theorem ctrLegal_ctrSecondRun (h : CtrLegal cfg s) (hfits : (dstRegion { s with dst := d } s.len.toNat).Fits cfg)
    (hok : (dstRegion { s with dst := d } s.len.toNat).OutputOk (srcRegion { s with src := s.dst })) :
    CtrLegal cfg (ctrSecondRun cfg s d) := by
  rw [ctrSecondRun_eq h]
  obtain ⟨hkey, hlen, -, hdst, -⟩ := h
  exact ⟨hkey, hlen, hdst, hfits, hok⟩

end

/-- Settles O28: the second run meets each byte with the same keystream, and the cap is the first check that fails. -/
theorem ctrCryptTwiceRestores : Obligations.CtrCryptTwiceRestores := by
  unfold Obligations.CtrCryptTwiceRestores
  refine ⟨fun s d h hfits hok => ?twice, fun s t hkey hlen ht => ?cap⟩
  case twice =>
    have hlegal := ctrLegal_ctrSecondRun h hfits hok
    have hread := memRead_ctrCrypt hlegal
    rw [len_ctrSecondRun h, ctrCryptResult_of_ctrCryptResult (keyBytes_ctrSecondRun h) (ivctr_ctrSecondRun h)
      (srcBytes_ctrSecondRun h)] at hread
    exact ⟨_, _, exec_ctrCrypt s, exec_ctrCrypt (ctrSecondRun hw s d), errcode_ctrCrypt hlegal, hread⟩
  case cap =>
    obtain rfl : ctrCrypt hw s = t := by simpa using ht
    rw [ctrCrypt_of_tooLong hkey hlen]
    exact ⟨raiseError_errcode _ _, raiseError_buf _ _⟩

end Sys2Proof.Machine
end

section
/-! The CBC-MAC input blocks of CCM (43_ccm R183, R184): a zero-padded string is whole blocks, and both block lists are
those of one. -/

namespace Sys2Proof.Machine

/-- Zero padding fills the last block and adds no further one (R128). -/
theorem length_toBlocks_zpad (s : List Byte) : (toBlocks (zpad s)).length = (s.length + 15) / 16 := by
  rw [length_toBlocks, zpad, List.length_append, List.length_replicate]
  omega

theorem joinBlocks_toBlocks_zpad (s : List Byte) : joinBlocks (toBlocks (zpad s)) = zpad s :=
  joinBlocks_toBlocks (zpad s) (length_zpad s)

theorem aadBlocks_nil : aadBlocks [] = [] := rfl

/-- Nonempty AAD stands behind its 2-byte length (R183). -/
theorem aadBlocks_of_ne_nil {a : List Byte} (h : a ≠ []) : aadBlocks a = toBlocks (zpad (be16 a.length ++ a)) := if_neg h

theorem length_aadBlocks_of_ne_nil {a : List Byte} (h : a ≠ []) :
    (aadBlocks a).length = (a.length + 2 + 15) / 16 := by
  rw [aadBlocks_of_ne_nil h, length_toBlocks_zpad, List.length_append, length_be16, Nat.add_comm 2]

theorem joinBlocks_aadBlocks_of_ne_nil {a : List Byte} (h : a ≠ []) :
    joinBlocks (aadBlocks a) = zpad (be16 a.length ++ a) := by
  rw [aadBlocks_of_ne_nil h, joinBlocks_toBlocks_zpad]

theorem length_msgBlocks (m : List Byte) : (msgBlocks m).length = (m.length + 15) / 16 := length_toBlocks_zpad m

theorem joinBlocks_msgBlocks (m : List Byte) : joinBlocks (msgBlocks m) = zpad m := joinBlocks_toBlocks_zpad m

/-- Settles O30, from the number and the content of each list's blocks. -/
theorem ccmMacInputBlocks : Obligations.CcmMacInputBlocks := by
  unfold Obligations.CcmMacInputBlocks
  refine fun x => ⟨?empty, fun hne => ⟨length_aadBlocks_of_ne_nil hne, joinBlocks_aadBlocks_of_ne_nil hne⟩,
    length_msgBlocks x, joinBlocks_msgBlocks x⟩
  case empty =>
    rintro rfl
    exact aadBlocks_nil

end Sys2Proof.Machine
end

section
/-! `CMAC_SUBKEYS` (45_cmac R241, R242): the subkeys of a cipher, and the command as an update of the state. -/

namespace Sys2Proof.Machine

/-- `L` is the encryption of the zero block (R241). -/
theorem cmacSubkeyPair_fst (enc : Block → Block) : (cmacSubkeyPair enc).1 = dbl (enc (Vector.replicate 16 0)) := by
  rw [replicate_eq_ofBytes, cmacSubkeyPair]

theorem cmacSubkeyPair_snd (enc : Block → Block) : (cmacSubkeyPair enc).2 = dbl (cmacSubkeyPair enc).1 := rfl

/-- `CMAC_SUBKEYS` with a legal key selector as an update of the state before it (R242). -/
theorem cmacSubkeys_eq {cfg : Config} {s : State} (h : s.keysel ≠ 3) :
    cmacSubkeys cfg s =
      { s with k1 := (cmacSubkeyPair (cfg.aesEnc (keyBytes s))).1, k2 := (cmacSubkeyPair (cfg.aesEnc (keyBytes s))).2,
               errcode := .none, err := false, busy := false, done := true } := by
  rw [cmacSubkeys_of_legal h, cmacSubkeysEffect_eq]

/-- Settles O45: the command writes the subkey pair of the cipher at its key, and nothing else but the completion. -/
theorem cmacSubkeysAreDoubled : Obligations.CmacSubkeysAreDoubled := by
  unfold Obligations.CmacSubkeysAreDoubled
  intro s hkey
  refine ⟨cmacSubkeys hw s, exec_cmacSubkeys s, ?_⟩
  rw [cmacSubkeys_eq hkey]
  exact ⟨rfl, cmacSubkeyPair_fst _, cmacSubkeyPair_snd _⟩

end Sys2Proof.Machine
end

section
/-! The host's write to `CTRL` (10_state R23; 70_reset_and_hazards R291, R292). -/

namespace Sys2Proof.Machine

/-- A 32-bit write at 0x004 reaches `CTRL`, idle or busy (R21, R66). -/
theorem hostAccess_write_ctrl (cfg : Config) (v : Word) (s : State) :
    hostAccess cfg (.regWrite 4 0x004 v) s = writeCtrl v s := by
  have hreg : accessedReg 4 0x004 = some .ctrl := rfl
  rw [hostAccess, hostRegWrite, hreg]
  cases s.busy <;> rfl

theorem step_write_ctrl {s : State} {v : Word} {rest : List Input}
    (hi : s.inputs = .access (.regWrite 4 0x004 v) :: rest) :
    step s = .next (writeCtrl v { s with inputs := rest }) := by
  rw [step_access hi, hostAccess_write_ctrl]

section
variable {v : Word} {s : State}

/-- Without a request for a soft reset only `IE` changes (R23). -/
theorem writeCtrl_of_no_request (hv : v.getLsbD 1 = false) : writeCtrl v s = { s with ie := v.getLsbD 0 } := by
  simpa only [hv, Bool.false_eq_true, true_and, false_and, or_false] using writeCtrl_cases v s

/-- While idle the reset is performed, and `IE` is reset with the rest, whatever bit 0 says (R291). -/
theorem writeCtrl_of_idle (hv : v.getLsbD 1 = true) (hb : s.busy = false) : writeCtrl v s = softReset s := by
  simpa only [hv, hb, Bool.true_eq_false, Bool.false_eq_true, true_and, false_and, false_or]
    using writeCtrl_cases v s

/-- While a command is in flight the reset is refused (R292). -/
theorem writeCtrl_of_busy (hv : v.getLsbD 1 = true) (hb : s.busy = true) :
    writeCtrl v s = setAccErr { s with ie := v.getLsbD 0 } := by
  simpa only [hv, hb, Bool.true_eq_false, true_and, false_and, false_or, or_false] using writeCtrl_cases v s

end

/-! ### The state after a soft reset (R291) -/

theorem softReset_eq (s : State) :
    softReset s =
      { State.reset with
        buf := s.buf, bufEpoch := s.bufEpoch, draws := s.draws, inputs := s.inputs, responses := s.responses } := rfl

theorem byteAt_softReset (s : State) (a : Nat) : (softReset s).byteAt a = s.byteAt a :=
  byteAt_congr (softReset_buf s) (softReset_bufEpoch s) a

theorem readReg_ctrl_softReset (cfg : Config) (s : State) : readReg cfg .ctrl (softReset s) = 0 := by
  simp [readReg, State.ctrlWord, flagBit]

theorem irq_softReset (s : State) : (softReset s).irq = false := by simp [State.irq]

/-- Settles O51: the step is `writeCtrl`, by bit 1 of the word and by `BUSY`. -/
theorem softResetClearsEveryRegisterOrIsRefused : Obligations.SoftResetClearsEveryRegisterOrIsRefused := by
  unfold Obligations.SoftResetClearsEveryRegisterOrIsRefused
  intro s v rest hi
  rw [step_write_ctrl hi]
  refine ⟨fun hv => ?noRequest, fun hv hb => ?idle, fun hv hb => ?busy⟩
  case noRequest => rw [writeCtrl_of_no_request hv]
  case idle =>
    rw [writeCtrl_of_idle (s := { s with inputs := rest }) hv hb]
    exact ⟨_, rfl, softReset_eq _, byteAt_softReset _, readReg_ctrl_softReset hw _, irq_softReset _⟩
  case busy => rw [writeCtrl_of_busy (s := { s with inputs := rest }) hv hb, setAccErr]

end Sys2Proof.Machine
end

section
/-! The decoder and the encoder (30_encoding R90 to R97, R100). The opcode alone tells the twelve rows apart, so a word
decodes to the command of the one row it matches; the encoder fills that row's fields; all other words are illegal. -/

namespace Sys2Proof

/-! ### The rows (R93) -/

/-- Every row fixes the eight bits of `OPC` and asks for zeros in all others that it fixes. -/
theorem opTable_fixes_opc : ∀ r ∈ opTable, r.mask &&& 0xFF = 0xFF ∧ r.pattern &&& 0xFF = r.pattern := by
  simp [opTable, maskN, maskP, maskW]

theorem nodup_opTable_patterns : (opTable.map OpRow.pattern).Nodup := by decide

theorem and_0xFF_of_accepts {r : OpRow} {w : Word} (hr : r ∈ opTable) (h : r.accepts w = true) :
    w &&& 0xFF = r.pattern := by
  obtain ⟨hmask, hpattern⟩ := opTable_fixes_opc r hr
  have hw : w &&& r.mask = r.pattern := by simpa [OpRow.accepts] using h
  rw [← hpattern, ← hw, BitVec.and_assoc, hmask]

/-- Settles O3: two rows that match one word would have the same opcode. -/
theorem opcodeRowsAreExclusive : Obligations.OpcodeRowsAreExclusive := by
  unfold Obligations.OpcodeRowsAreExclusive
  refine ⟨rfl, (List.pairwise_map.1 nodup_opTable_patterns).imp_of_mem fun hr hq hne w => ?_⟩
  rintro ⟨hrw, hqw⟩
  exact hne ((and_0xFF_of_accepts hr hrw).symm.trans (and_0xFF_of_accepts hq hqw))

/-- A word that matches a row decodes to its command: no other row matches it (R94). -/
theorem decode_of_accepts {r : OpRow} {w : Word} (hr : r ∈ opTable) (h : r.accepts w = true) :
    decode w = .ok (r.build w) := by
  have hfind : opTable.find? (fun r => r.accepts w) = some r := by
    cases hf : opTable.find? (fun r => r.accepts w) with
    | none => exact absurd h (List.find?_eq_none.1 hf r hr)
    | some q =>
      have hq := List.mem_of_find?_eq_some hf
      have hqw : q.accepts w = true := List.find?_some (p := fun r : OpRow => r.accepts w) hf
      exact congrArg some (List.inj_on_of_nodup_map nodup_opTable_patterns hq hr
        ((and_0xFF_of_accepts hq hqw).symm.trans (and_0xFF_of_accepts hr h)))
  rw [decode, hfind]

/-- Everything the decoder can do (R94, R97): the command of a matching row, or an error where no row matches. -/
theorem decode_cases (w : Word) :
    (∃ r ∈ opTable, r.accepts w = true ∧ decode w = .ok (r.build w)) ∨
    ((∀ r ∈ opTable, r.accepts w = false) ∧ ∃ e, decode w = .error e) := by
  by_cases h : ∃ r ∈ opTable, r.accepts w = true
  · obtain ⟨r, hr, hw⟩ := h
    exact .inl ⟨r, hr, hw, decode_of_accepts hr hw⟩
  · have hnone : ∀ r ∈ opTable, r.accepts w = false := by simpa using h
    refine .inr ⟨hnone, ?_⟩
    rw [decode, List.find?_eq_none.2 (by simpa using hnone)]
    dsimp only
    split
    · exact ⟨_, rfl⟩
    · exact ⟨_, rfl⟩

/-! ### The fields of an encoded word (R91, R92) -/

theorem fieldPad_encodeP {opc : Byte} {pad : Nat} (hp : pad < 4) : fieldPad (encodeP (opc.setWidth 32) pad) = pad := by
  rw [fieldPad_eq, encodeP_toNat hp]
  omega

theorem fieldLegacy_encodeW (opc : Byte) (legacy : Bool) (nfb : Byte) :
    fieldLegacy (encodeW (opc.setWidth 32) legacy nfb) = legacy := by
  rw [Bool.eq_iff_iff, fieldLegacy_iff, encodeW_toNat]
  cases legacy
  · simp; omega
  · simp; omega

theorem fieldNfb_encodeW (opc : Byte) (legacy : Bool) (nfb : Byte) :
    fieldNfb (encodeW (opc.setWidth 32) legacy nfb) = nfb := by
  have hle := Bool.toNat_le legacy
  apply BitVec.eq_of_toNat_eq
  rw [toNat_fieldNfb, encodeW_toNat]
  omega

/-! ### Encoding, then decoding -/

/-- The row of a well-formed command builds it from its word (R93, R100). -/
theorem exists_row_of_wf {i : Instr} (hwf : i.wf = true) :
    ∃ r ∈ opTable, r.mask = formatMask i ∧ r.pattern = formatMatch i ∧ r.build (encode i) = i := by
  cases i with
  | cbcEnc pad =>
    have hp : pad < 4 := by simpa [Instr.wf, padInRange] using hwf
    exact ⟨_, List.getElem_mem (n := 1) (by decide), rfl, rfl, congrArg Instr.cbcEnc (fieldPad_encodeP (opc := 1) hp)⟩
  | cbcDec pad =>
    have hp : pad < 4 := by simpa [Instr.wf, padInRange] using hwf
    exact ⟨_, List.getElem_mem (n := 2) (by decide), rfl, rfl, congrArg Instr.cbcDec (fieldPad_encodeP (opc := 2) hp)⟩
  | ccmpDerive legacy nfb =>
    exact ⟨_, List.getElem_mem (n := 7) (by decide), rfl, rfl,
      congrArg₂ Instr.ccmpDerive (fieldLegacy_encodeW 7 legacy nfb) (fieldNfb_encodeW 7 legacy nfb)⟩
  | ccmpEnc legacy nfb =>
    exact ⟨_, List.getElem_mem (n := 8) (by decide), rfl, rfl,
      congrArg₂ Instr.ccmpEnc (fieldLegacy_encodeW 8 legacy nfb) (fieldNfb_encodeW 8 legacy nfb)⟩
  | ccmpDec legacy nfb =>
    exact ⟨_, List.getElem_mem (n := 9) (by decide), rfl, rfl,
      congrArg₂ Instr.ccmpDec (fieldLegacy_encodeW 9 legacy nfb) (fieldNfb_encodeW 9 legacy nfb)⟩
  | nop => exact ⟨_, List.getElem_mem (n := 0) (by decide), rfl, rfl, rfl⟩
  | ctrCrypt => exact ⟨_, List.getElem_mem (n := 3) (by decide), rfl, rfl, rfl⟩
  | ccmMac => exact ⟨_, List.getElem_mem (n := 4) (by decide), rfl, rfl, rfl⟩
  | ccmEnc => exact ⟨_, List.getElem_mem (n := 5) (by decide), rfl, rfl, rfl⟩
  | ccmDec => exact ⟨_, List.getElem_mem (n := 6) (by decide), rfl, rfl, rfl⟩
  | cmacSubkeys => exact ⟨_, List.getElem_mem (n := 10) (by decide), rfl, rfl, rfl⟩
  | cmac => exact ⟨_, List.getElem_mem (n := 11) (by decide), rfl, rfl, rfl⟩

open Laws.EncodingMatchesRow in
/-- The word of a well-formed command matches its row (R91, R93). -/
theorem encode_and_formatMask (i : Instr) (hwf : i.wf = true) : encode i &&& formatMask i = formatMatch i := by
  cases i with
  | nop => exact nop hwf
  | cbcEnc pad => exact cbcEnc pad hwf
  | cbcDec pad => exact cbcDec pad hwf
  | ctrCrypt => exact ctrCrypt hwf
  | ccmMac => exact ccmMac hwf
  | ccmEnc => exact ccmEnc hwf
  | ccmDec => exact ccmDec hwf
  | ccmpDerive legacy nfb => exact ccmpDerive legacy nfb hwf
  | ccmpEnc legacy nfb => exact ccmpEnc legacy nfb hwf
  | ccmpDec legacy nfb => exact ccmpDec legacy nfb hwf
  | cmacSubkeys => exact cmacSubkeys hwf
  | cmac => exact cmac hwf

/-- Decoding undoes encoding on well-formed commands. -/
theorem decode_encode {i : Instr} (hwf : i.wf = true) : decode (encode i) = .ok i := by
  obtain ⟨r, hr, hmask, hpattern, hbuild⟩ := exists_row_of_wf hwf
  have haccepts : r.accepts (encode i) = true := by
    rw [OpRow.accepts, hmask, hpattern, encode_and_formatMask i hwf, beq_self_eq_true]
  rw [decode_of_accepts hr haccepts, hbuild]

/-- Settles O1: the word of a well-formed command matches its row, and the row builds the command from it. -/
theorem decodeOfEncodeIsTheCommand : Obligations.DecodeOfEncodeIsTheCommand := by
  unfold Obligations.DecodeOfEncodeIsTheCommand
  exact fun _ hwf => decode_encode hwf

/-- Settles O6: each word is the encoding of its command. -/
theorem sampleWordsDecode : Obligations.SampleWordsDecode := by
  unfold Obligations.SampleWordsDecode
  exact ⟨decode_encode (i := .nop) rfl, decode_encode (i := .cbcEnc 3) rfl, decode_encode (i := .cbcDec 1) rfl,
    decode_encode (i := .ctrCrypt) rfl, decode_encode (i := .ccmEnc) rfl,
    decode_encode (i := .ccmpDerive true 0xFF) rfl, decode_encode (i := .ccmpEnc true 0x15) rfl,
    decode_encode (i := .ccmpDec false 0x10) rfl, decode_encode (i := .cmacSubkeys) rfl,
    decode_encode (i := .cmac) rfl⟩

/-! ### Decoding, then encoding -/

/-- A word with the opcode of a format P row and zeros above `PAD` is that opcode with its `PAD` (R91). -/
theorem encodeP_fieldPad {w : Word} {opc : Byte} (hopc : w.toNat % 256 = opc.toNat) (hzero : w.toNat / 1024 = 0) :
    padInRange (fieldPad w) = true ∧ encodeP (opc.setWidth 32) (fieldPad w) = w := by
  have hlt : fieldPad w < 4 := by
    rw [fieldPad_eq]
    omega
  refine ⟨decide_eq_true hlt, BitVec.eq_of_toNat_eq ?_⟩
  rw [encodeP_toNat hlt, fieldPad_eq]
  omega

theorem toNat_fieldLegacy (w : Word) : (fieldLegacy w).toNat = w.toNat / 256 % 2 := by
  have hiff := fieldLegacy_iff w
  cases hl : fieldLegacy w
  · have hne : ¬w.toNat / 256 % 2 = 1 := by simp [← hiff, hl]
    rw [Bool.toNat_false]
    omega
  · exact (hiff.1 hl).symm

/-- A word with the opcode of a format W row and zeros outside its fields is that opcode with its fields (R91). -/
theorem encodeW_fields {w : Word} {opc : Byte} (hopc : w.toNat % 256 = opc.toNat) (hlow : w.toNat / 512 % 128 = 0)
    (hhigh : w.toNat / 2 ^ 24 = 0) : encodeW (opc.setWidth 32) (fieldLegacy w) (fieldNfb w) = w := by
  apply BitVec.eq_of_toNat_eq
  rw [encodeW_toNat, toNat_fieldLegacy, toNat_fieldNfb]
  omega

/-- What a row builds from a word that matches it is well-formed and has that word, format by format. -/
theorem wf_and_encode_build {r : OpRow} (hr : r ∈ opTable) {w : Word} (h : r.accepts w = true) :
    (r.build w).wf = true ∧ encode (r.build w) = w := by
  have formatN : ∀ {m b} (q : Word), OpRow.accepts ⟨m, maskN, q, b⟩ w = true → true = true ∧ q = w := by
    intro m b q ha
    rw [accepts_N, decide_eq_true_eq] at ha
    exact ⟨rfl, (BitVec.eq_of_toNat_eq ha).symm⟩
  have formatP : ∀ {m b} (opc : Byte), OpRow.accepts ⟨m, maskP, opc.setWidth 32, b⟩ w = true →
      padInRange (fieldPad w) = true ∧ encodeP (opc.setWidth 32) (fieldPad w) = w := by
    intro m b opc ha
    rw [accepts_P _ _ _ _ (by simp; omega), decide_eq_true_eq] at ha
    obtain ⟨hopc, hzero⟩ := ha
    exact encodeP_fieldPad (by rw [hopc]; simp; omega) hzero
  have formatW : ∀ {m b} (opc : Byte), OpRow.accepts ⟨m, maskW, opc.setWidth 32, b⟩ w = true →
      true = true ∧ encodeW (opc.setWidth 32) (fieldLegacy w) (fieldNfb w) = w := by
    intro m b opc ha
    rw [accepts_W _ _ _ _ (by simp; omega), decide_eq_true_eq] at ha
    obtain ⟨hopc, hlow, hhigh⟩ := ha
    exact ⟨rfl, encodeW_fields (by rw [hopc]; simp; omega) hlow hhigh⟩
  simp only [opTable, List.mem_cons, List.not_mem_nil, or_false] at hr
  rcases hr with rfl | rfl | rfl | rfl | rfl | rfl | rfl | rfl | rfl | rfl | rfl | rfl
  · exact formatN 0 h
  · exact formatP 1 h
  · exact formatP 2 h
  · exact formatN 3 h
  · exact formatN 4 h
  · exact formatN 5 h
  · exact formatN 6 h
  · exact formatW 7 h
  · exact formatW 8 h
  · exact formatW 9 h
  · exact formatN 10 h
  · exact formatN 11 h

/-- Settles O2: the command is what the row that the word matches builds. -/
theorem encodeOfDecodeIsTheWord : Obligations.EncodeOfDecodeIsTheWord := by
  unfold Obligations.EncodeOfDecodeIsTheWord
  intro w i h
  obtain ⟨r, hr, hw, hok⟩ | ⟨-, e, he⟩ := decode_cases w
  · obtain rfl : r.build w = i := by simpa [hok] using h
    exact wf_and_encode_build hr hw
  · simp [he] at h

/-! ### Illegal words (R97) -/

theorem decode_error_iff (w : Word) : (∃ e, decode w = .error e) ↔ ∀ r ∈ opTable, r.accepts w = false := by
  obtain ⟨r, hr, hw, hok⟩ | ⟨hnone, herr⟩ := decode_cases w
  · have hnot : ¬∀ r ∈ opTable, r.accepts w = false := fun hall => by simp [hall r hr] at hw
    simp [hok, hnot]
  · exact ⟨fun _ => hnone, fun _ => herr⟩

/-- Settles O4: a word that no row accepts, row by row in arithmetic. -/
theorem illegalWordsAreReservedOnes : Obligations.IllegalWordsAreReservedOnes := by
  unfold Obligations.IllegalWordsAreReservedOnes
  intro w
  rw [decode_error_iff]
  simp only [opTable, List.forall_mem_cons, accepts_N, accepts_P w 1 _ _ (by decide), accepts_P w 2 _ _ (by decide),
    accepts_W w 7 _ _ (by decide), accepts_W w 8 _ _ (by decide), accepts_W w 9 _ _ (by decide),
    decide_eq_false_iff_not]
  simp only [BitVec.ofNat_eq_ofNat, BitVec.toNat_ofNat, List.mem_cons, List.not_mem_nil, or_false, false_imp_iff,
    implies_true, and_true]
  omega

end Sys2Proof
end

section
/-! What the completion step of a command can do (40_block_primitives R130 to R133; 60_exceptions R264 to R268): every
command is a checked run, so it raises the error of a check and does nothing else, or it has its effect. -/

namespace Sys2Proof.Machine

/-! ### Every command is a checked run (R132) -/

/-- The checks of a command on this hardware, in order (R264). -/
def commandChecks (i : Instr) (s : State) : List Check :=
  match i with
  | .nop => []
  | .cbcEnc pad => cbcEncChecks hw pad s
  | .cbcDec pad => cbcDecChecks hw pad s
  | .ctrCrypt => ctrCryptChecks hw s
  | .ccmMac => ccmMacChecks hw s
  | .ccmEnc => ccmEncChecks hw s
  | .ccmDec => ccmDecChecks hw s
  | .ccmpDerive _ _ => mpduChecks hw 0 none s
  | .ccmpEnc _ _ => ccmpCryptChecks hw 0 (some (ccmpEncRegion hw s)) s
  | .ccmpDec _ _ => ccmpCryptChecks hw hw.ccmAuthLen none s
  | .cmacSubkeys => [checkKey s]
  | .cmac => cmacChecks hw s

/-- The effect of a command on this hardware once its checks have passed (R133). -/
def commandEffect (i : Instr) : State → State :=
  match i with
  | .nop => complete
  | .cbcEnc pad => cbcEncEffect hw pad
  | .cbcDec pad => cbcDecEffect hw pad
  | .ctrCrypt => ctrCryptEffect hw
  | .ccmMac => ccmMacEffect hw
  | .ccmEnc => ccmEncEffect hw
  | .ccmDec => ccmDecEffect hw
  | .ccmpDerive legacy nfb => ccmpDeriveEffect hw legacy nfb
  | .ccmpEnc legacy nfb => ccmpEncEffect hw legacy nfb
  | .ccmpDec legacy nfb => ccmpDecEffect hw legacy nfb
  | .cmacSubkeys => cmacSubkeysEffect hw
  | .cmac => cmacEffect hw

theorem exec_eq_runChecked (i : Instr) (s : State) :
    exec i s = .next (runChecked (commandChecks i s) (commandEffect i) s) := by
  cases i <;> rfl

/-! ### Its errors (R260, R264) -/

/-- An error that a precondition check can raise: not the verdict on a tag. -/
abbrev ErrCode.IsPrecondition (e : ErrCode) : Prop := e ≠ .none ∧ e ≠ .authFailed ∧ e ≠ .micFailure

theorem isPrecondition_of_mem_commandChecks (i : Instr) (s : State) :
    ∀ c ∈ commandChecks i s, c.error.IsPrecondition := by
  cases i with
  | nop => simp [commandChecks]
  | cbcEnc pad => simp [commandChecks, cbcEncChecks, checkPadding, ErrCode.IsPrecondition]
  | cbcDec pad => simp [commandChecks, cbcDecChecks, checkPadding, ErrCode.IsPrecondition]
  | ctrCrypt => simp [commandChecks, ctrCryptChecks, ErrCode.IsPrecondition]
  | ccmMac => simp [commandChecks, ccmMacChecks, ccmChecks, ErrCode.IsPrecondition]
  | ccmEnc => simp [commandChecks, ccmEncChecks, ccmChecks, ErrCode.IsPrecondition]
  | ccmDec => simp [commandChecks, ccmDecChecks, ccmChecks, ErrCode.IsPrecondition]
  | ccmpDerive legacy nfb => simp [commandChecks, mpduChecks, ErrCode.IsPrecondition]
  | ccmpEnc legacy nfb => simp [commandChecks, ccmpCryptChecks, mpduChecks, ErrCode.IsPrecondition]
  | ccmpDec legacy nfb => simp [commandChecks, ccmpCryptChecks, mpduChecks, ErrCode.IsPrecondition]
  | cmacSubkeys => simp [commandChecks, ErrCode.IsPrecondition]
  | cmac => simp [commandChecks, cmacChecks, ErrCode.IsPrecondition]

/-- A command that passed its checks ends without error, or with the verdict that a tag does not match (R196, R230). -/
theorem commandEffect_errcode (i : Instr) (s : State) :
    ((commandEffect i s).errcode = .none ∧ (commandEffect i s).err = false) ∨
    (((commandEffect i s).errcode = .authFailed ∨ (commandEffect i s).errcode = .micFailure) ∧
      (commandEffect i s).err = true) := by
  cases i with
  | nop => exact .inl ⟨rfl, rfl⟩
  | cbcEnc pad => rw [commandEffect, cbcEncEffect_eq]; exact .inl ⟨rfl, rfl⟩
  | cbcDec pad => rw [commandEffect, cbcDecEffect_eq]; exact .inl ⟨rfl, rfl⟩
  | ctrCrypt => rw [commandEffect, ctrCryptEffect_eq]; exact .inl ⟨rfl, rfl⟩
  | ccmMac => rw [commandEffect, ccmMacEffect_eq]; exact .inl ⟨rfl, rfl⟩
  | ccmEnc => rw [commandEffect, ccmEncEffect_eq]; exact .inl ⟨rfl, rfl⟩
  | ccmDec =>
    rw [commandEffect, ccmDecEffect_eq]
    cases hok : (ccmDecrypt hw (hw.aesEnc (keyBytes s)) s.nonce (aadBytes s) (srcBytes s)).2 <;> simp [hok]
  | ccmpDerive legacy nfb => rw [commandEffect, ccmpDeriveEffect_eq]; exact .inl ⟨rfl, rfl⟩
  | ccmpEnc legacy nfb => rw [commandEffect, ccmpEncEffect_eq]; exact .inl ⟨rfl, rfl⟩
  | ccmpDec legacy nfb =>
    rw [commandEffect, ccmpDecEffect_eq]
    cases hok : (ccmpDecResult hw legacy nfb s).2 <;> simp [hok]
  | cmacSubkeys => rw [commandEffect, cmacSubkeysEffect_eq]; exact .inl ⟨rfl, rfl⟩
  | cmac => rw [commandEffect, cmacEffect_eq]; exact .inl ⟨rfl, rfl⟩

/-- Everything that a command's effect can change: the status and the result registers, and `BUF` (R46, R133). -/
theorem commandEffect_frame (i : Instr) (s : State) :
    commandEffect i s = { s with
      busy := false, done := true, err := (commandEffect i s).err, errcode := (commandEffect i s).errcode,
      outLen := (commandEffect i s).outLen, dHdrLen := (commandEffect i s).dHdrLen,
      dAadLen := (commandEffect i s).dAadLen, tag := (commandEffect i s).tag, k1 := (commandEffect i s).k1,
      k2 := (commandEffect i s).k2, dnonce := (commandEffect i s).dnonce, daad := (commandEffect i s).daad,
      buf := (commandEffect i s).buf } := by
  cases i with
  | nop => rfl
  | cbcEnc pad => rw [commandEffect, cbcEncEffect_eq]
  | cbcDec pad => rw [commandEffect, cbcDecEffect_eq]
  | ctrCrypt => rw [commandEffect, ctrCryptEffect_eq]
  | ccmMac => rw [commandEffect, ccmMacEffect_eq]
  | ccmEnc => rw [commandEffect, ccmEncEffect_eq]
  | ccmDec => rw [commandEffect, ccmDecEffect_eq]
  | ccmpDerive legacy nfb => rw [commandEffect, ccmpDeriveEffect_eq]
  | ccmpEnc legacy nfb => rw [commandEffect, ccmpEncEffect_eq]
  | ccmpDec legacy nfb => rw [commandEffect, ccmpDecEffect_eq]
  | cmacSubkeys => rw [commandEffect, cmacSubkeysEffect_eq]
  | cmac => rw [commandEffect, cmacEffect_eq]

/-- Everything the completion of a command can do (R132, R133). -/
theorem exec_cases {i : Instr} {s t : State} (h : exec i s = .next t) :
    (∃ e, e.IsPrecondition ∧ t = raiseError e s) ∨
    (firstError (commandChecks i s) = none ∧ t = commandEffect i s) := by
  obtain rfl : runChecked (commandChecks i s) (commandEffect i) s = t := by simpa [exec_eq_runChecked] using h
  obtain ⟨e, he, hrun⟩ | ⟨hnone, hrun⟩ := runChecked_cases (commandChecks i s) (commandEffect i) s
  · obtain ⟨c, hc, -, rfl⟩ := mem_of_firstError he
    exact .inl ⟨_, isPrecondition_of_mem_commandChecks i s c hc, hrun⟩
  · exact .inr ⟨hnone, hrun⟩

/-! ### The status after a completion (R267, R268, R272) -/

theorem exec_completes {i : Instr} {s t : State} (h : exec i s = .next t) :
    t.busy = false ∧ t.done = true ∧ t.ie = s.ie := by
  obtain ⟨e, -, rfl⟩ | ⟨-, rfl⟩ := exec_cases h
  · exact ⟨rfl, rfl, rfl⟩
  · rw [commandEffect_frame]
    exact ⟨rfl, rfl, rfl⟩

theorem err_iff_of_exec {i : Instr} {s t : State} (h : exec i s = .next t) : t.err = true ↔ t.errcode ≠ .none := by
  obtain ⟨e, ⟨hne, -, -⟩, rfl⟩ | ⟨-, rfl⟩ := exec_cases h
  · simpa using hne
  · obtain ⟨hcode, herr⟩ | ⟨hcode | hcode, herr⟩ := commandEffect_errcode i s
    · simp [hcode, herr]
    · simp [hcode, herr]
    · simp [hcode, herr]

/-- Settles O14, from what a completion does to each flag. -/
theorem completionSetsTheStatus : Obligations.CompletionSetsTheStatus := by
  unfold Obligations.CompletionSetsTheStatus
  intro i s t h
  obtain ⟨hbusy, hdone, hie⟩ := exec_completes h
  exact ⟨hbusy, hdone, err_iff_of_exec h, by rw [State.irq, hdone, hie, Bool.and_true]⟩

/-- Settles O15: an effect ends with no error or with the verdict on a tag, so the command raised a check's error. -/
theorem preconditionErrorChangesOnlyTheStatus : Obligations.PreconditionErrorChangesOnlyTheStatus := by
  unfold Obligations.PreconditionErrorChangesOnlyTheStatus
  intro i s t h hnone hauth hmic
  obtain ⟨e, -, rfl⟩ | ⟨-, rfl⟩ := exec_cases h
  · rfl
  · obtain ⟨hcode, -⟩ | ⟨hcode | hcode, -⟩ := commandEffect_errcode i s
    · exact absurd hcode hnone
    · exact absurd hcode hauth
    · exact absurd hcode hmic

/-- Settles O16, from the frame of a command's effect. -/
theorem commandsWriteNoOperandRegister : Obligations.CommandsWriteNoOperandRegister := by
  unfold Obligations.CommandsWriteNoOperandRegister
  intro i s t h
  obtain ⟨e, -, rfl⟩ | ⟨-, rfl⟩ := exec_cases h
  · rfl
  · rw [commandEffect_frame]

/-- Settles O19: `NOP` has no checks. -/
theorem nopOnlyCompletes : Obligations.NopOnlyCompletes := by
  unfold Obligations.NopOnlyCompletes
  exact exec_nop

/-! ### The step that completes (R132, R263) -/

/-- Settles O10, from the step lemmas of the engine's turn and of the host's access. -/
theorem stepRunsTheDecodedCommand : Obligations.StepRunsTheDecodedCommand := by
  unfold Obligations.StepRunsTheDecodedCommand
  refine ⟨fun s i hb hd => ⟨fun rest hi => ?turn, fun hi => ?last⟩, fun s a rest hi => step_access hi⟩
  case turn => exact (step_engine hi hb).trans (engineStep_of_decode hd)
  case last => exact (step_engine_last hi hb).trans (engineStep_of_decode hd)

/-- Settles O11: the step raises `BAD_COMMAND`. -/
theorem illegalWordRaisesBadCommand : Obligations.IllegalWordRaisesBadCommand := by
  unfold Obligations.IllegalWordRaisesBadCommand
  refine fun s e hb hd => ⟨fun rest hi => ?turn, fun hi => ?last⟩
  case turn => exact (step_engine hi hb).trans (engineStep_of_illegal hd)
  case last => exact (step_engine_last hi hb).trans (engineStep_of_illegal hd)

end Sys2Proof.Machine
end

section
/-! What a command reads and writes (10_state R46): its outcome is fixed by the registers listed for it, and it leaves
all others. `KEY` is read only up to the selected length (R36, R122). -/

namespace Sys2Proof.Machine

/-! ### The registers listed for a command -/

/-- `u` has the key of `s`, as far as a command reads it (R122). -/
structure SameKey (u s : State) : Prop where
  keysel : u.keysel = s.keysel
  keyBytes : keyBytes u = keyBytes s

/-- `u` has the primary input of `s`, and its `BUF`. -/
structure SameMessage (u s : State) : Prop where
  src : u.src = s.src
  len : u.len = s.len
  buf : u.buf = s.buf
  bufEpoch : u.bufEpoch = s.bufEpoch

/-- `u` has the nonce of `s` and its AAD operands. -/
structure SameAad (u s : State) : Prop where
  nonce : u.nonce = s.nonce
  aadPtr : u.aadPtr = s.aadPtr
  aadLen : u.aadLen = s.aadLen

/-- `u` has the derived registers of `s` (R220). -/
structure SameDerived (u s : State) : Prop where
  dnonce : u.dnonce = s.dnonce
  daad : u.daad = s.daad
  dHdrLen : u.dHdrLen = s.dHdrLen
  dAadLen : u.dAadLen = s.dAadLen

/-- `u` agrees with `s` on every register that the table of R46 lists for the command. -/
def SameListed (i : Instr) (u s : State) : Prop :=
  match i with
  | .nop => True
  | .cbcEnc _ | .cbcDec _ | .ctrCrypt =>
    SameKey u s ∧ SameMessage u s ∧ u.ivctr = s.ivctr ∧ u.dst = s.dst ∧ u.outLen = s.outLen
  | .ccmMac => SameKey u s ∧ SameMessage u s ∧ SameAad u s ∧ u.tag = s.tag ∧ u.outLen = s.outLen
  | .ccmEnc | .ccmDec =>
    SameKey u s ∧ SameMessage u s ∧ SameAad u s ∧ u.dst = s.dst ∧ u.tag = s.tag ∧ u.outLen = s.outLen
  | .ccmpDerive _ _ => SameMessage u s ∧ SameDerived u s
  | .ccmpEnc _ _ | .ccmpDec _ _ =>
    SameKey u s ∧ SameMessage u s ∧ SameDerived u s ∧ u.tag = s.tag ∧ u.outLen = s.outLen
  | .cmacSubkeys => SameKey u s ∧ u.k1 = s.k1 ∧ u.k2 = s.k2
  | .cmac => SameKey u s ∧ SameMessage u s ∧ u.k1 = s.k1 ∧ u.k2 = s.k2 ∧ u.tag = s.tag ∧ u.outLen = s.outLen

/-- `u` with the registers that the command writes (R46) as they are in `t`. -/
def writtenBy (i : Instr) (t u : State) : State :=
  let u' := { u with errcode := t.errcode, err := t.err, busy := false, done := true }
  match i with
  | .nop => u'
  | .cbcEnc _ | .cbcDec _ | .ctrCrypt => { u' with buf := t.buf, outLen := t.outLen }
  | .ccmMac => { u' with tag := t.tag, outLen := t.outLen }
  | .ccmEnc | .ccmDec => { u' with buf := t.buf, tag := t.tag, outLen := t.outLen }
  | .ccmpDerive _ _ => { u' with dnonce := t.dnonce, daad := t.daad, dHdrLen := t.dHdrLen, dAadLen := t.dAadLen }
  | .ccmpEnc _ _ | .ccmpDec _ _ =>
    { u' with dnonce := t.dnonce, daad := t.daad, dHdrLen := t.dHdrLen, dAadLen := t.dAadLen, buf := t.buf,
              tag := t.tag, outLen := t.outLen }
  | .cmacSubkeys => { u' with k1 := t.k1, k2 := t.k2 }
  | .cmac => { u' with k1 := t.k1, k2 := t.k2, tag := t.tag, outLen := t.outLen }

/-! ### What follows for the operands -/

section
variable {u s : State}

theorem SameKey.refl (s : State) : SameKey s s := ⟨rfl, rfl⟩
theorem SameMessage.refl (s : State) : SameMessage s s := ⟨rfl, rfl, rfl, rfl⟩
theorem SameAad.refl (s : State) : SameAad s s := ⟨rfl, rfl, rfl⟩
theorem SameDerived.refl (s : State) : SameDerived s s := ⟨rfl, rfl, rfl, rfl⟩

theorem SameKey.checkKey (h : SameKey u s) : checkKey u = checkKey s := by
  rw [Machine.checkKey, Machine.checkKey, h.keysel]

theorem SameMessage.memRead (h : SameMessage u s) (a n : Nat) : memRead u a n = memRead s a n :=
  memRead_of_buf h.buf h.bufEpoch a n

theorem SameMessage.srcRegion (h : SameMessage u s) : srcRegion u = srcRegion s := by
  rw [Machine.srcRegion, Machine.srcRegion, h.src, h.len]

theorem SameMessage.srcBytes (h : SameMessage u s) : srcBytes u = srcBytes s := by
  rw [Machine.srcBytes, Machine.srcBytes, h.memRead, h.src, h.len]

theorem SameMessage.mpduHeaderLen (h : SameMessage u s) : mpduHeaderLen u = mpduHeaderLen s := by
  rw [Machine.mpduHeaderLen, Machine.mpduHeaderLen, h.memRead, h.src]

theorem SameMessage.bodyAddr (h : SameMessage u s) : bodyAddr u = bodyAddr s := by
  rw [Machine.bodyAddr, Machine.bodyAddr, h.mpduHeaderLen, h.src]

theorem SameMessage.payloadLen (h : SameMessage u s) (t : Nat) : payloadLen t u = payloadLen t s := by
  rw [Machine.payloadLen, Machine.payloadLen, h.mpduHeaderLen, h.len]

theorem SameMessage.mpduDerived (h : SameMessage u s) (cfg : Config) (legacy : Bool) (nfb : Byte) :
    mpduDerived cfg legacy nfb u = mpduDerived cfg legacy nfb s := by
  rw [Machine.mpduDerived, Machine.mpduDerived, mpduHeader, mpduHeader, h.memRead, h.mpduHeaderLen, h.src]

theorem SameMessage.mpduChecks (h : SameMessage u s) (cfg : Config) (t : Nat) (o : Option Region) :
    mpduChecks cfg t o u = mpduChecks cfg t o s := by
  rw [Machine.mpduChecks, Machine.mpduChecks, h.mpduHeaderLen, h.srcRegion, h.len]

theorem SameMessage.ccmpEncRegion (h : SameMessage u s) (cfg : Config) : ccmpEncRegion cfg u = ccmpEncRegion cfg s := by
  rw [Machine.ccmpEncRegion, Machine.ccmpEncRegion, h.src, h.len]

theorem SameAad.aadRegion (h : SameAad u s) : aadRegion u = aadRegion s := by
  rw [Machine.aadRegion, Machine.aadRegion, h.aadPtr, h.aadLen]

theorem SameAad.aadBytes (h : SameAad u s) (hm : SameMessage u s) : aadBytes u = aadBytes s := by
  rw [Machine.aadBytes, Machine.aadBytes, hm.memRead, h.aadPtr, h.aadLen]

/-- The checks of the CCM commands look at the key selector, `LEN`, `AADLEN` and the regions only. -/
theorem ccmChecks_congr {cfg : Config} {b : Bool} {n : Nat} {o : Option Region} (hk : SameKey u s)
    (hm : SameMessage u s) (ha : SameAad u s) : ccmChecks cfg u b n o = ccmChecks cfg s b n o := by
  rw [ccmChecks, ccmChecks, hk.checkKey, hm.srcRegion, ha.aadRegion, ha.aadLen]

theorem ccmpCryptChecks_congr {cfg : Config} {n : Nat} {o : Option Region} (hk : SameKey u s) (hm : SameMessage u s) :
    ccmpCryptChecks cfg n o u = ccmpCryptChecks cfg n o s := by
  rw [ccmpCryptChecks, ccmpCryptChecks, hk.checkKey, hm.mpduChecks, hm.payloadLen]

theorem cbcDecResult_congr {cfg : Config} (hk : SameKey u s) (hm : SameMessage u s) (hiv : u.ivctr = s.ivctr) :
    cbcDecResult cfg u = cbcDecResult cfg s := by
  rw [cbcDecResult, cbcDecResult, hk.keyBytes, hm.srcBytes, hiv]

theorem ccmpEncResult_congr {cfg : Config} (legacy : Bool) (nfb : Byte) (hk : SameKey u s) (hm : SameMessage u s) :
    ccmpEncResult cfg legacy nfb u = ccmpEncResult cfg legacy nfb s := by
  simp only [ccmpEncResult, hk.keyBytes, hm.mpduDerived, hm.bodyAddr, hm.payloadLen, hm.memRead]

theorem ccmpDecResult_congr {cfg : Config} (legacy : Bool) (nfb : Byte) (hk : SameKey u s) (hm : SameMessage u s) :
    ccmpDecResult cfg legacy nfb u = ccmpDecResult cfg legacy nfb s := by
  simp only [ccmpDecResult, hk.keyBytes, hm.mpduDerived, hm.bodyAddr, hm.payloadLen, hm.memRead]

/-! ### A command looks at its listed registers and writes those of them it computes -/

variable {i : Instr}

theorem SameListed.refl (i : Instr) (s : State) : SameListed i s s := by
  cases i <;> simp [SameListed, SameKey.refl, SameMessage.refl, SameAad.refl, SameDerived.refl]

theorem commandChecks_congr (h : SameListed i u s) : commandChecks i u = commandChecks i s := by
  cases i with
  | nop => rfl
  | cbcEnc pad =>
    obtain ⟨hk, hm, -, hdst, -⟩ := h
    simp only [commandChecks, cbcEncChecks, hk.checkKey, hm.srcRegion, hm.len, hdst]
  | cbcDec pad =>
    obtain ⟨hk, hm, hiv, hdst, -⟩ := h
    simp only [commandChecks, cbcDecChecks, hk.checkKey, hm.srcRegion, hm.len, hdst, cbcDecResult_congr hk hm hiv]
  | ctrCrypt =>
    obtain ⟨hk, hm, -, hdst, -⟩ := h
    simp only [commandChecks, ctrCryptChecks, hk.checkKey, hm.srcRegion, hm.len, hdst]
  | ccmMac =>
    obtain ⟨hk, hm, ha, -, -⟩ := h
    simp only [commandChecks, ccmMacChecks, ccmChecks_congr hk hm ha, hm.len]
  | ccmEnc =>
    obtain ⟨hk, hm, ha, hdst, -, -⟩ := h
    simp only [commandChecks, ccmEncChecks, ccmEncRegion, ccmChecks_congr hk hm ha, hm.len, hdst]
  | ccmDec =>
    obtain ⟨hk, hm, ha, hdst, -, -⟩ := h
    simp only [commandChecks, ccmDecChecks, ccmDecRegion, ccmChecks_congr hk hm ha, hm.len, hdst]
  | ccmpDerive legacy nfb => exact h.1.mpduChecks _ _ _
  | ccmpEnc legacy nfb =>
    obtain ⟨hk, hm, -, -, -⟩ := h
    simp only [commandChecks, ccmpCryptChecks_congr hk hm, hm.ccmpEncRegion]
  | ccmpDec legacy nfb =>
    obtain ⟨hk, hm, -, -, -⟩ := h
    exact ccmpCryptChecks_congr hk hm
  | cmacSubkeys =>
    obtain ⟨hk, -, -⟩ := h
    simp only [commandChecks, hk.checkKey]
  | cmac =>
    obtain ⟨hk, hm, -, -, -, -⟩ := h
    simp only [commandChecks, cmacChecks, hk.checkKey, hm.srcRegion]

theorem commandEffect_congr (h : SameListed i u s) : commandEffect i u = writtenBy i (commandEffect i s) u := by
  cases i with
  | nop => rfl
  | cbcEnc pad =>
    obtain ⟨hk, hm, hiv, hdst, -⟩ := h
    simp only [commandEffect, writtenBy, cbcEncEffect_eq, hk.keyBytes, hm.srcBytes, hiv, hdst, hm.buf]
  | cbcDec pad =>
    obtain ⟨hk, hm, hiv, hdst, -⟩ := h
    simp only [commandEffect, writtenBy, cbcDecEffect_eq, cbcDecResult_congr hk hm hiv, hm.len, hdst, hm.buf]
  | ctrCrypt =>
    obtain ⟨hk, hm, hiv, hdst, -⟩ := h
    simp only [commandEffect, writtenBy, ctrCryptEffect_eq, hk.keyBytes, hm.srcBytes, hm.len, hiv, hdst, hm.buf]
  | ccmMac =>
    obtain ⟨hk, hm, ha, -, -⟩ := h
    simp only [commandEffect, writtenBy, ccmMacEffect_eq, hk.keyBytes, hm.srcBytes, ha.aadBytes hm, ha.nonce]
  | ccmEnc =>
    obtain ⟨hk, hm, ha, hdst, -, -⟩ := h
    simp only [commandEffect, writtenBy, ccmEncEffect_eq, hk.keyBytes, hm.srcBytes, ha.aadBytes hm, ha.nonce, hm.len,
      hdst, hm.buf]
  | ccmDec =>
    obtain ⟨hk, hm, ha, hdst, -, -⟩ := h
    simp only [commandEffect, writtenBy, ccmDecEffect_eq, hk.keyBytes, hm.srcBytes, ha.aadBytes hm, ha.nonce, hm.len,
      hdst, hm.buf]
  | ccmpDerive legacy nfb =>
    obtain ⟨hm, -⟩ := h
    simp only [commandEffect, writtenBy, ccmpDeriveEffect_eq, hm.mpduDerived]
  | ccmpEnc legacy nfb =>
    obtain ⟨hk, hm, -, -, -⟩ := h
    simp only [commandEffect, writtenBy, ccmpEncEffect_eq, ccmpEncResult_congr legacy nfb hk hm, hm.mpduDerived,
      hm.bodyAddr, hm.len, hm.buf]
  | ccmpDec legacy nfb =>
    obtain ⟨hk, hm, -, -, -⟩ := h
    simp only [commandEffect, writtenBy, ccmpDecEffect_eq, ccmpDecResult_congr legacy nfb hk hm, hm.mpduDerived,
      hm.bodyAddr, hm.len, hm.buf]
  | cmacSubkeys =>
    obtain ⟨hk, -, -⟩ := h
    simp only [commandEffect, writtenBy, cmacSubkeysEffect_eq, hk.keyBytes]
  | cmac =>
    obtain ⟨hk, hm, -, -, -, -⟩ := h
    simp only [commandEffect, writtenBy, cmacEffect_eq, hk.keyBytes, hm.srcBytes]

/-- A precondition error writes the status only, so the listed registers stay equal. -/
theorem raiseError_congr (e : ErrCode) (h : SameListed i u s) : raiseError e u = writtenBy i (raiseError e s) u := by
  cases i with
  | nop => rfl
  | cbcEnc pad | cbcDec pad | ctrCrypt =>
    obtain ⟨-, hm, -, -, hout⟩ := h
    simp only [writtenBy, raiseError, ← hm.buf, ← hout]
  | ccmMac =>
    obtain ⟨-, -, -, htag, hout⟩ := h
    simp only [writtenBy, raiseError, ← htag, ← hout]
  | ccmEnc | ccmDec =>
    obtain ⟨-, hm, -, -, htag, hout⟩ := h
    simp only [writtenBy, raiseError, ← hm.buf, ← htag, ← hout]
  | ccmpDerive legacy nfb =>
    obtain ⟨-, hd⟩ := h
    simp only [writtenBy, raiseError, ← hd.dnonce, ← hd.daad, ← hd.dHdrLen, ← hd.dAadLen]
  | ccmpEnc legacy nfb | ccmpDec legacy nfb =>
    obtain ⟨-, hm, hd, htag, hout⟩ := h
    simp only [writtenBy, raiseError, ← hd.dnonce, ← hd.daad, ← hd.dHdrLen, ← hd.dAadLen, ← hm.buf, ← htag, ← hout]
  | cmacSubkeys =>
    obtain ⟨-, hk1, hk2⟩ := h
    simp only [writtenBy, raiseError, ← hk1, ← hk2]
  | cmac =>
    obtain ⟨-, -, hk1, hk2, htag, hout⟩ := h
    simp only [writtenBy, raiseError, ← hk1, ← hk2, ← htag, ← hout]

/-- The outcome of a command in a state that agrees with `s` on the listed registers is that in `s`, written into it. -/
theorem exec_congr {t : State} (h : SameListed i u s) (ht : exec i s = .next t) :
    exec i u = .next (writtenBy i t u) := by
  obtain rfl : runChecked (commandChecks i s) (commandEffect i) s = t := by simpa [exec_eq_runChecked] using ht
  rw [exec_eq_runChecked, commandChecks_congr h]
  obtain ⟨e, he, hrun⟩ | ⟨hnone, hrun⟩ := runChecked_cases (commandChecks i s) (commandEffect i) s
  · rw [hrun, runChecked_of_some _ _ he, raiseError_congr e h]
  · rw [hrun, runChecked_of_none _ _ hnone, commandEffect_congr h]

/-- A command leaves what it does not write. -/
theorem eq_writtenBy_of_exec {t : State} (ht : exec i s = .next t) : t = writtenBy i t s := by
  simpa [ht] using exec_congr (SameListed.refl i s) ht

/-- If a change `u` of `s` leaves the listed registers, and `v` is the same change of `t`, then the command takes `u` to
`v` when it takes `s` to `t`. -/
theorem exec_of_sameListed {t v : State} (ht : exec i s = .next t) (h : SameListed i u s)
    (hv : t = writtenBy i t s → writtenBy i t u = v) : exec i u = .next v := by
  rw [exec_congr h ht, hv (eq_writtenBy_of_exec ht)]

end

/-- Settles O17, clause by clause of the table of R46. -/
theorem unlistedRegistersAreNeitherReadNorWritten : Obligations.UnlistedRegistersAreNeitherReadNorWritten := by
  unfold Obligations.UnlistedRegistersAreNeitherReadNorWritten
  intro s t x
  refine ⟨fun ht => ?nop, fun i hi ht => ?cbcCtr, fun ht => ?ccmMac, fun i hi ht => ?ccm, fun l n ht => ?derive,
    fun i l n hi ht => ?ccmp, fun ht => ?subkeys, fun ht => ?cmac⟩
  case nop => exact exec_of_sameListed ht trivial fun h => by rw [h]; rfl
  case cbcCtr =>
    rcases hi with ⟨p, rfl⟩ | ⟨p, rfl⟩ | rfl
    · exact exec_of_sameListed ht ⟨⟨rfl, rfl⟩, ⟨rfl, rfl, rfl, rfl⟩, rfl, rfl, rfl⟩ fun h => by rw [h]; rfl
    · exact exec_of_sameListed ht ⟨⟨rfl, rfl⟩, ⟨rfl, rfl, rfl, rfl⟩, rfl, rfl, rfl⟩ fun h => by rw [h]; rfl
    · exact exec_of_sameListed ht ⟨⟨rfl, rfl⟩, ⟨rfl, rfl, rfl, rfl⟩, rfl, rfl, rfl⟩ fun h => by rw [h]; rfl
  case ccmMac =>
    exact exec_of_sameListed ht ⟨⟨rfl, rfl⟩, ⟨rfl, rfl, rfl, rfl⟩, ⟨rfl, rfl, rfl⟩, rfl, rfl⟩ fun h => by rw [h]; rfl
  case ccm =>
    rcases hi with rfl | rfl
    · exact exec_of_sameListed ht ⟨⟨rfl, rfl⟩, ⟨rfl, rfl, rfl, rfl⟩, ⟨rfl, rfl, rfl⟩, rfl, rfl, rfl⟩
        fun h => by rw [h]; rfl
    · exact exec_of_sameListed ht ⟨⟨rfl, rfl⟩, ⟨rfl, rfl, rfl, rfl⟩, ⟨rfl, rfl, rfl⟩, rfl, rfl, rfl⟩
        fun h => by rw [h]; rfl
  case derive =>
    exact exec_of_sameListed ht ⟨⟨rfl, rfl, rfl, rfl⟩, ⟨rfl, rfl, rfl, rfl⟩⟩ fun h => by rw [h]; rfl
  case ccmp =>
    rcases hi with rfl | rfl
    · exact exec_of_sameListed ht ⟨⟨rfl, rfl⟩, ⟨rfl, rfl, rfl, rfl⟩, ⟨rfl, rfl, rfl, rfl⟩, rfl, rfl⟩
        fun h => by rw [h]; rfl
    · exact exec_of_sameListed ht ⟨⟨rfl, rfl⟩, ⟨rfl, rfl, rfl, rfl⟩, ⟨rfl, rfl, rfl, rfl⟩, rfl, rfl⟩
        fun h => by rw [h]; rfl
  case subkeys => exact exec_of_sameListed ht ⟨⟨rfl, rfl⟩, rfl, rfl⟩ fun h => by rw [h]; rfl
  case cmac =>
    exact exec_of_sameListed ht ⟨⟨rfl, rfl⟩, ⟨rfl, rfl, rfl, rfl⟩, rfl, rfl, rfl, rfl⟩ fun h => by rw [h]; rfl

/-- Another key with the same bytes in use is a change that no command sees (R36, R122). -/
theorem sameListed_setKey (i : Instr) {s : State} {key : Vector Byte 32}
    (hkey : key.toList.take ((keyLength s.keysel).getD 0) = s.key.toList.take ((keyLength s.keysel).getD 0)) :
    SameListed i { s with key := key } s := by
  have hk : SameKey { s with key := key } s := ⟨rfl, hkey⟩
  have hm : SameMessage { s with key := key } s := ⟨rfl, rfl, rfl, rfl⟩
  have ha : SameAad { s with key := key } s := ⟨rfl, rfl, rfl⟩
  have hd : SameDerived { s with key := key } s := ⟨rfl, rfl, rfl, rfl⟩
  cases i <;> simp [SameListed, hk, hm, ha, hd]

/-- Settles O18: no command writes `KEY`, and none reads more of it than `keyBytes`. -/
theorem keyBytesBeyondTheSelectedLengthAreIgnored : Obligations.KeyBytesBeyondTheSelectedLengthAreIgnored := by
  unfold Obligations.KeyBytesBeyondTheSelectedLengthAreIgnored
  intro i s t key ht hkey
  refine exec_of_sameListed ht (sameListed_setKey i hkey) fun h => ?_
  rw [h]
  cases i <;> rfl

end Sys2Proof.Machine
end

section
/-! What a host access can do, whole access by whole access (20_memory R63 to R68), and what follows for the status, the
answers and `KEY`. -/

namespace Sys2Proof.Machine

/-! ### Which register a write reaches (R21) -/

theorem accessedReg_ctrl : accessedReg 4 0x004 = some .ctrl := rfl
theorem accessedReg_status : accessedReg 4 0x008 = some .status := rfl

/-- Only a 32-bit access at 0x010 reaches `CMD` (R26). -/
theorem accessedReg_cmd {w o : Nat} (h : accessedReg w o = some .cmd) : w = 4 ∧ o = 0x010 := by
  obtain ⟨rfl, -, -⟩ := accessedReg_ctrl_status h
  have hsome : ¬accessedReg 4 o = none := by simp [h]
  rw [accessedReg_eq_none_iff] at hsome
  have hmap : ∀ k, k < 56 → accessedReg 4 (4 * k) = some .cmd → k = 4 := by decide
  have hk := hmap (o / 4) (by omega) (by rw [show 4 * (o / 4) = o by omega]; exact h)
  exact ⟨rfl, by omega⟩

/-- A 32-bit write at 0x008 reaches `STATUS`, idle or busy (R24, R66). -/
theorem hostAccess_write_status (cfg : Config) (v : Word) (s : State) :
    hostAccess cfg (.regWrite 4 0x008 v) s = writeStatus v s := by
  rw [hostAccess, hostRegWrite, accessedReg_status]
  cases s.busy <;> rfl

/-! ### Everything a host access can do -/

/-- What a host access leaves when it is a read, or is dropped: only its answer and `ACCERR` are new (R64, R68, R75). -/
abbrev OnlyAnswered (s t : State) : Prop :=
  t = { s with accErr := t.accErr, draws := t.draws, responses := t.responses } ∧ (s.accErr = true → t.accErr = true)

/-- What a write to an operand register leaves (R27 to R32, R36 to R38). -/
abbrev OnlyOperandsWritten (s t : State) : Prop :=
  t = { s with
    keysel := t.keysel, src := t.src, dst := t.dst, len := t.len, aadPtr := t.aadPtr, aadLen := t.aadLen, key := t.key,
    ivctr := t.ivctr, nonce := t.nonce }

theorem onlyAnswered_hostRegRead (cfg : Config) (w o : Nat) (s : State) : OnlyAnswered s (hostRegRead cfg w o s) := by
  obtain ⟨-, h⟩ | ⟨r, -, -, -, h⟩ | ⟨r, -, -, h⟩ := hostRegRead_cases cfg w o s
  · rw [h]; exact ⟨rfl, fun _ => rfl⟩
  · rw [h]; exact ⟨rfl, id⟩
  · rw [h]; exact ⟨rfl, id⟩

theorem onlyAnswered_hostBufRead (cfg : Config) (w a : Nat) (s : State) : OnlyAnswered s (hostBufRead cfg w a s) := by
  obtain ⟨-, h⟩ | ⟨-, -, h⟩ | ⟨-, -, h⟩ := hostBufRead_cases cfg w a s
  · rw [h]; exact ⟨rfl, fun _ => rfl⟩
  · rw [h]; exact ⟨rfl, id⟩
  · rw [h]; exact ⟨rfl, fun _ => rfl⟩

theorem onlyAnswered_setAccErr (s : State) : OnlyAnswered s (setAccErr s) := ⟨rfl, fun _ => rfl⟩

/-- A write to a register while no command is in flight (R65, R131). -/
theorem writeIdleReg_cases (r : Reg) (v : Word) (s : State) :
    (r = .ctrl ∧ writeIdleReg r v s = writeCtrl v s) ∨ (r = .status ∧ writeIdleReg r v s = writeStatus v s) ∨
    (r = .cmd ∧ writeIdleReg r v s = acceptCommand v s) ∨ OnlyOperandsWritten s (writeIdleReg r v s) := by
  cases r with
  | ctrl => exact .inl ⟨rfl, rfl⟩
  | status => exact .inr (.inl ⟨rfl, rfl⟩)
  | cmd => exact .inr (.inr (.inl ⟨rfl, rfl⟩))
  | _ => exact .inr (.inr (.inr rfl))

/-- A write to a register while a command is in flight (R66). -/
theorem writeBusyReg_cases (r : Reg) (v : Word) (s : State) :
    (r = .ctrl ∧ writeBusyReg r v s = writeCtrl v s) ∨ (r = .status ∧ writeBusyReg r v s = writeStatus v s) ∨
    (r ≠ .ctrl ∧ r ≠ .status ∧ writeBusyReg r v s = setAccErr s) := by
  cases r with
  | ctrl => exact .inl ⟨rfl, rfl⟩
  | status => exact .inr (.inl ⟨rfl, rfl⟩)
  | _ => exact .inr (.inr ⟨by simp, by simp, rfl⟩)

/-- Everything a host access can do: write `CTRL`, `STATUS`, `CMD`, an operand register or `BUF`, or be answered. -/
theorem hostAccess_cases (cfg : Config) (a : HostAccess) (s : State) :
    (∃ v, a = .regWrite 4 0x004 v ∧ hostAccess cfg a s = writeCtrl v s) ∨
    (∃ v, a = .regWrite 4 0x008 v ∧ hostAccess cfg a s = writeStatus v s) ∨
    (∃ v, a = .regWrite 4 0x010 v ∧ s.busy = false ∧ hostAccess cfg a s = acceptCommand v s) ∨
    (s.busy = false ∧ OnlyOperandsWritten s (hostAccess cfg a s)) ∨
    (∃ addr bs, s.busy = false ∧ addr + bs.length ≤ cfg.bufBytes ∧ hostAccess cfg a s = memWrite s addr bs) ∨
    OnlyAnswered s (hostAccess cfg a s) := by
  cases a with
  | regRead w o => exact .inr (.inr (.inr (.inr (.inr (onlyAnswered_hostRegRead cfg w o s)))))
  | bufRead w addr => exact .inr (.inr (.inr (.inr (.inr (onlyAnswered_hostBufRead cfg w addr s)))))
  | bufWrite w addr v =>
    rw [hostAccess]
    obtain ⟨hb, hl, h⟩ | ⟨-, h⟩ := hostBufWrite_cases cfg w addr v s
    · obtain ⟨-, -, hfits⟩ := (bufAccessLegal_iff cfg w addr).1 hl
      exact .inr (.inr (.inr (.inr (.inl ⟨addr, _, hb, by simpa using hfits, h⟩))))
    · rw [h]
      exact .inr (.inr (.inr (.inr (.inr (onlyAnswered_setAccErr s)))))
  | regWrite w o v =>
    rw [hostAccess]
    obtain ⟨-, h⟩ | ⟨r, hr, -, h⟩ | ⟨r, hr, hb, h⟩ := hostRegWrite_cases w o v s
    · rw [h]
      exact .inr (.inr (.inr (.inr (.inr (onlyAnswered_setAccErr s)))))
    · obtain ⟨rfl, hctrl, hstatus⟩ := accessedReg_ctrl_status hr
      rw [h]
      obtain ⟨hrc, hw⟩ | ⟨hrs, hw⟩ | ⟨-, -, hw⟩ := writeBusyReg_cases r v s
      · obtain rfl := hctrl hrc
        exact .inl ⟨v, rfl, hw⟩
      · obtain rfl := hstatus hrs
        exact .inr (.inl ⟨v, rfl, hw⟩)
      · rw [hw]
        exact .inr (.inr (.inr (.inr (.inr (onlyAnswered_setAccErr s)))))
    · obtain ⟨rfl, hctrl, hstatus⟩ := accessedReg_ctrl_status hr
      rw [h]
      obtain ⟨hrc, hw⟩ | ⟨hrs, hw⟩ | ⟨rfl, hw⟩ | hw := writeIdleReg_cases r v s
      · obtain rfl := hctrl hrc
        exact .inl ⟨v, rfl, hw⟩
      · obtain rfl := hstatus hrs
        exact .inr (.inl ⟨v, rfl, hw⟩)
      · obtain ⟨-, rfl⟩ := accessedReg_cmd hr
        exact .inr (.inr (.inl ⟨v, rfl, hb, hw⟩))
      · exact .inr (.inr (.inr (.inl ⟨hb, hw⟩)))

/-! ### While a command is in flight (R66, R76(c)) -/

/-- With a command in flight an access writes `CTRL` or `STATUS`, or is answered. -/
theorem hostAccess_busy_cases (cfg : Config) (a : HostAccess) {s : State} (hb : s.busy = true) :
    (∃ v, a = .regWrite 4 0x004 v ∧ hostAccess cfg a s = writeCtrl v s) ∨
    (∃ v, a = .regWrite 4 0x008 v ∧ hostAccess cfg a s = writeStatus v s) ∨ OnlyAnswered s (hostAccess cfg a s) := by
  simpa [hb] using hostAccess_cases cfg a s

/-- A write to `CTRL` while a command is in flight changes `IE` and may set `ACCERR` (R23, R292). -/
theorem writeCtrl_busy (v : Word) {s : State} (hb : s.busy = true) :
    writeCtrl v s = { s with ie := v.getLsbD 0, accErr := (writeCtrl v s).accErr } ∧
    (s.accErr = true → (writeCtrl v s).accErr = true) := by
  cases hv : v.getLsbD 1
  · rw [writeCtrl_of_no_request hv]
    exact ⟨rfl, id⟩
  · rw [writeCtrl_of_busy hv hb]
    exact ⟨rfl, fun _ => rfl⟩

/-- What an access may change while a command is in flight. -/
theorem hostAccess_busy_frame (cfg : Config) (a : HostAccess) {s : State} (hb : s.busy = true) :
    hostAccess cfg a s = { s with
      ie := (hostAccess cfg a s).ie, done := (hostAccess cfg a s).done, accErr := (hostAccess cfg a s).accErr,
      draws := (hostAccess cfg a s).draws, responses := (hostAccess cfg a s).responses } := by
  obtain ⟨v, -, h⟩ | ⟨v, -, h⟩ | ⟨h, -⟩ := hostAccess_busy_cases cfg a hb
  · rw [h, (writeCtrl_busy v hb).1]
  · rw [h, writeStatus]
  · rw [h]

/-- A write of `REG` that is not to `CTRL` or `STATUS` is dropped while a command is in flight (R66). -/
theorem hostRegWrite_busy_dropped {w o : Nat} (v : Word) {s : State} (hb : s.busy = true)
    (ho : ¬(w = 4 ∧ (o = 0x004 ∨ o = 0x008))) : hostRegWrite w o v s = setAccErr s := by
  obtain ⟨-, h⟩ | ⟨r, hr, -, h⟩ | ⟨r, -, hidle, -⟩ := hostRegWrite_cases w o v s
  · exact h
  · obtain ⟨rfl, hctrl, hstatus⟩ := accessedReg_ctrl_status hr
    obtain ⟨hrc, -⟩ | ⟨hrs, -⟩ | ⟨-, -, hw⟩ := writeBusyReg_cases r v s
    · exact absurd ⟨rfl, .inl (hctrl hrc)⟩ ho
    · exact absurd ⟨rfl, .inr (hstatus hrs)⟩ ho
    · rw [h, hw]
  · simp [hb] at hidle

/-- Settles O53, from the three things an access can do while a command is in flight. -/
theorem busyHostAccessTouchesOnlyControlAndStatus : Obligations.BusyHostAccessTouchesOnlyControlAndStatus := by
  unfold Obligations.BusyHostAccessTouchesOnlyControlAndStatus
  intro s a hb
  refine ⟨⟨hostAccess_busy_frame hw a hb, ?_⟩, ?regWrite, ?bufWrite, ?bufRead⟩
  · obtain ⟨v, rfl, h⟩ | ⟨v, rfl, h⟩ | ⟨h, hacc⟩ := hostAccess_busy_cases hw a hb
    · obtain ⟨hframe, hacc⟩ := writeCtrl_busy v hb
      refine ⟨fun _ => ⟨v, rfl⟩, fun hdone => ?_, fun hclear hset => ?_⟩
      · rw [h, hframe] at hdone
        exact absurd rfl hdone
      · rw [h, hacc hset] at hclear
        cases hclear
    · refine ⟨fun hie => ?_, fun _ => ⟨v, rfl⟩, fun _ _ => ⟨v, rfl⟩⟩
      rw [h, writeStatus_ie] at hie
      exact absurd rfl hie
    · refine ⟨fun hie => ?_, fun hdone => ?_, fun hclear hset => ?_⟩
      · rw [h] at hie
        exact absurd rfl hie
      · rw [h] at hdone
        exact absurd rfl hdone
      · rw [hacc hset] at hclear
        cases hclear
  case regWrite =>
    rintro w o v rfl ho
    exact hostRegWrite_busy_dropped v hb ho
  case bufWrite =>
    rintro w b v rfl
    simp [hostAccess, hostBufWrite, hb, setAccErr]
  case bufRead =>
    rintro w b rfl
    simp [hostAccess, hostBufRead, hb]

/-! ### `ACCERR` (R271) -/

/-- `ACCERR` falls only by a write to `STATUS` or with a soft reset. -/
theorem accErr_cleared_by_access {a : HostAccess} {s : State} (hset : s.accErr = true)
    (hclear : (hostAccess hw a s).accErr = false) :
    (∃ v, a = .regWrite 4 0x008 v ∧ v.getLsbD 3 = true) ∨
    (∃ v, a = .regWrite 4 0x004 v ∧ v.getLsbD 1 = true ∧ s.busy = false) := by
  obtain ⟨v, rfl, h⟩ | ⟨v, rfl, h⟩ | ⟨v, -, -, h⟩ | ⟨-, h⟩ | ⟨addr, bs, -, -, h⟩ | ⟨-, h⟩ := hostAccess_cases hw a s
  · rw [h] at hclear
    obtain ⟨-, hc⟩ | ⟨-, -, hc⟩ | ⟨hv, hb, -⟩ := writeCtrl_cases v s
    · simp [hc, hset] at hclear
    · simp [hc] at hclear
    · exact .inr ⟨v, rfl, hv, hb⟩
  · simp [h, hset] at hclear
    exact .inl ⟨v, rfl, hclear⟩
  · simp [h, hset] at hclear
  · rw [h] at hclear
    simp [hset] at hclear
  · simp [h, hset] at hclear
  · simp [h hset] at hclear

/-! ### Everything a step can do (R132, R274) -/

/-- Everything the completion step can do (R132): run a command, or raise `BAD_COMMAND`. -/
theorem engineStep_cases {s t : State} (h : engineStep s = .next t) :
    (∃ i, exec i s = .next t) ∨ t = raiseError .badCommand s := by
  cases hd : decode s.cmd with
  | ok i => exact .inl ⟨i, by rw [← engineStep_of_decode hd, h]⟩
  | error e =>
    rw [engineStep_of_illegal hd] at h
    exact .inr (by simpa using h.symm)

/-- The completion step completes, and leaves `IE` (R132). -/
theorem engineStep_completes {s t : State} (h : engineStep s = .next t) :
    t.busy = false ∧ t.done = true ∧ t.ie = s.ie := by
  obtain ⟨i, hexec⟩ | rfl := engineStep_cases h
  · exact exec_completes hexec
  · exact ⟨rfl, rfl, rfl⟩

/-- The completion step leaves `ACCERR` (R271). -/
theorem accErr_of_engineStep {s t : State} (h : engineStep s = .next t) : t.accErr = s.accErr := by
  obtain ⟨i, hexec⟩ | rfl := engineStep_cases h
  · rw [commandsWriteNoOperandRegister i s t hexec]
  · rfl

/-- Everything a step can do: the host's access, a hard reset, a completion, or nothing but to take an idle turn. -/
theorem step_cases {s t : State} (h : step s = .next t) :
    (∃ a rest, s.inputs = .access a :: rest ∧ t = hostAccess hw a { s with inputs := rest }) ∨
    (∃ rest, s.inputs = .hardReset :: rest ∧ t = hardReset { s with inputs := rest }) ∨
    (s.busy = true ∧ engineStep { s with inputs := s.inputs.tail } = .next t) ∨
    (s.busy = false ∧ t = { s with inputs := s.inputs.tail }) := by
  rcases hi : s.inputs with _ | ⟨x, rest⟩
  · have hs : s = { s with inputs := [].tail } := by rw [List.tail_nil, ← hi]
    obtain hb | hb := Bool.eq_false_or_eq_true s.busy
    · rw [step_engine_last hi hb] at h
      exact .inr (.inr (.inl ⟨hb, by rw [← hs, h]⟩))
    · rw [step_idle hi hb] at h
      exact .inr (.inr (.inr ⟨hb, by rw [← hs]; simpa using h.symm⟩))
  · cases x with
    | access a =>
      rw [step_access hi] at h
      exact .inl ⟨a, rest, rfl, by simpa using h.symm⟩
    | hardReset =>
      rw [step_hardReset hi] at h
      exact .inr (.inl ⟨rest, rfl, by simpa using h.symm⟩)
    | engineTurn =>
      obtain hb | hb := Bool.eq_false_or_eq_true s.busy
      · rw [step_engine hi hb] at h
        exact .inr (.inr (.inl ⟨hb, h⟩))
      · rw [step_engine_idle hi hb] at h
        exact .inr (.inr (.inr ⟨hb, by simpa using h.symm⟩))

/-! ### What raises `ACCERR` stays, and what raises `irq` (R271, R272) -/

/-- Settles O58: the engine leaves `ACCERR`, so a step that clears it is an access that does, or a hard reset. -/
theorem statusIsWriteOneToClearAndAccErrSticky : Obligations.StatusIsWriteOneToClearAndAccErrSticky := by
  unfold Obligations.StatusIsWriteOneToClearAndAccErrSticky
  refine ⟨fun s v => hostAccess_write_status hw v s, fun s t h hset hclear => ?_⟩
  obtain ⟨a, rest, hi, rfl⟩ | ⟨rest, hi, -⟩ | ⟨-, hengine⟩ | ⟨-, rfl⟩ := step_cases h
  · obtain ⟨v, rfl, hv⟩ | ⟨v, rfl, hv, hb⟩ := accErr_cleared_by_access (s := { s with inputs := rest }) hset hclear
    · exact .inl ⟨v, rest, hi, hv⟩
    · exact .inr (.inl ⟨v, rest, hi, hv, hb⟩)
  · exact .inr (.inr ⟨rest, hi⟩)
  · rw [accErr_of_engineStep hengine, hset] at hclear
    cases hclear
  · rw [hset] at hclear
    cases hclear

/-- An access raises `irq` only by setting `IE` while `DONE` is 1. -/
theorem irq_raised_by_access {a : HostAccess} {s : State} (hlow : s.irq = false)
    (hhigh : (hostAccess hw a s).irq = true) :
    ∃ v, a = .regWrite 4 0x004 v ∧ v.getLsbD 0 = true ∧ s.done = true := by
  obtain ⟨v, rfl, h⟩ | ⟨v, -, h⟩ | ⟨v, -, -, h⟩ | ⟨-, h⟩ | ⟨addr, bs, -, -, h⟩ | ⟨h, -⟩ := hostAccess_cases hw a s
  · rw [h] at hhigh
    obtain ⟨-, hc⟩ | ⟨-, -, hc⟩ | ⟨-, -, hc⟩ := writeCtrl_cases v s
    · exact ⟨v, rfl, by simpa [hc, State.irq] using hhigh⟩
    · exact ⟨v, rfl, by simpa [hc, State.irq] using hhigh⟩
    · simp [hc, irq_softReset] at hhigh
  · simp [State.irq] at hlow
    simp [h, State.irq] at hhigh
    simp [hlow hhigh.1] at hhigh
  · simp [h, irq_acceptCommand] at hhigh
  · rw [h] at hhigh
    exact absurd hhigh (by simpa [State.irq] using hlow)
  · rw [h] at hhigh
    exact absurd hhigh (by simpa [State.irq] using hlow)
  · rw [h] at hhigh
    exact absurd hhigh (by simpa [State.irq] using hlow)

/-- Settles O59: a step that raises `irq` is a completion, or an access that does. -/
theorem irqRisesOnlyAtCompletionOrEnable : Obligations.IrqRisesOnlyAtCompletionOrEnable := by
  unfold Obligations.IrqRisesOnlyAtCompletionOrEnable
  intro s t h hlow hhigh
  obtain ⟨a, rest, hi, rfl⟩ | ⟨rest, hi, rfl⟩ | ⟨hb, hengine⟩ | ⟨-, rfl⟩ := step_cases h
  · obtain ⟨v, rfl, hv, hdone⟩ := irq_raised_by_access (s := { s with inputs := rest }) hlow hhigh
    exact .inr ⟨v, rest, hi, hv, hdone⟩
  · simp [State.irq] at hhigh
  · obtain ⟨hbusy, -, hie⟩ := engineStep_completes hengine
    refine .inl ⟨hb, hbusy, ?_⟩
    simp [State.irq] at hhigh
    exact hie ▸ hhigh.1
  · exact absurd hhigh (by simpa [State.irq] using hlow)

end Sys2Proof.Machine
end

section
/-! The registers and the buffer port as the host sees them (10_state R20 to R44; 20_memory R64 to R68). -/

namespace Sys2Proof.Machine

/-! ### Where the byte-array registers stand (R21) -/

theorem accessedReg_key : ∀ k, k < 8 → accessedReg 4 (0x040 + 4 * k) = some (.key k) := by decide
theorem accessedReg_ivctr : ∀ k, k < 4 → accessedReg 4 (0x060 + 4 * k) = some (.ivctr k) := by decide
theorem accessedReg_nonce : ∀ k, k < 4 → accessedReg 4 (0x070 + 4 * k) = some (.nonce k) := by decide
theorem accessedReg_tag : ∀ k, k < 4 → accessedReg 4 (0x080 + 4 * k) = some (.tag k) := by decide
theorem accessedReg_k1 : ∀ k, k < 4 → accessedReg 4 (0x090 + 4 * k) = some (.k1 k) := by decide
theorem accessedReg_k2 : ∀ k, k < 4 → accessedReg 4 (0x0A0 + 4 * k) = some (.k2 k) := by decide
theorem accessedReg_dnonce : ∀ k, k < 4 → accessedReg 4 (0x0B0 + 4 * k) = some (.dnonce k) := by decide
theorem accessedReg_daad : ∀ k, k < 8 → accessedReg 4 (0x0C0 + 4 * k) = some (.daad k) := by decide

/-! ### Reads (R64, R67, R75) -/

/-- A read of a register whose value is specified answers it, and is all that the access does. -/
theorem hostAccess_read {s : State} {o : Nat} {r : Reg} {v : Word} (hr : accessedReg 4 o = some r)
    (hb : r.isResult = true → s.busy = false) (hv : readReg hw r s = v) :
    hostAccess hw (.regRead 4 o) s = { s with responses := v :: s.responses } := by
  rw [← hv]
  exact hostRegRead_eq_respond hr hb

theorem ctrlWord_eq (s : State) : s.ctrlWord = BitVec.ofNat 32 s.ie.toNat := by
  rw [State.ctrlWord]
  cases s.ie <;> rfl

/-- The four flags of `STATUS` as a number (R24). -/
theorem statusWord_eq (s : State) :
    s.statusWord = BitVec.ofNat 32 (s.busy.toNat + 2 * s.done.toNat + 4 * s.err.toNat + 8 * s.accErr.toNat) := by
  have hflags : ∀ b d e a : Bool, flagBit 0 b ||| flagBit 1 d ||| flagBit 2 e ||| flagBit 3 a =
      BitVec.ofNat 32 (b.toNat + 2 * d.toNat + 4 * e.toNat + 8 * a.toNat) := by decide
  exact hflags _ _ _ _

theorem setWidth_keysel (k : BitVec 2) : k.setWidth 32 = BitVec.ofNat 32 k.toNat := by
  apply BitVec.eq_of_toNat_eq
  simp

/-- Settles O60, register by register. -/
theorem readsAnswerTheRegister : Obligations.ReadsAnswerTheRegister := by
  unfold Obligations.ReadsAnswerTheRegister
  intro s reads word
  have specified : ∀ {o : Nat} {r : Reg} {v : Word}, accessedReg 4 o = some r → r.isResult = false →
      readReg hw r s = v → reads o v := fun hr hres hv => hostAccess_read hr (by simp [hres]) hv
  have array : ∀ (b : List Byte) (k : Nat), arrayWord b k = word b k := arrayWord_eq
  refine ⟨specified rfl rfl rfl, specified rfl rfl (ctrlWord_eq s), specified rfl rfl (statusWord_eq s), ?errcode,
    specified rfl rfl rfl, specified rfl rfl (setWidth_keysel _), specified rfl rfl rfl, specified rfl rfl rfl,
    specified rfl rfl rfl, specified rfl rfl rfl, specified rfl rfl rfl,
    fun k hk => specified (accessedReg_key k hk) rfl rfl,
    fun k hk => ⟨specified (accessedReg_ivctr k hk) rfl (array _ k),
      specified (accessedReg_nonce k hk) rfl (array _ k)⟩,
    fun hb => ?results⟩
  case errcode =>
    intro p hp hcode
    refine specified (r := .errcode) rfl rfl ?_
    rw [readReg, hcode]
    clear hcode
    revert p
    decide
  case results =>
    have idle : ∀ {o : Nat} {r : Reg} {v : Word}, accessedReg 4 o = some r → readReg hw r s = v → reads o v :=
      fun hr hv => hostAccess_read hr (fun _ => hb) hv
    exact ⟨idle rfl rfl, idle rfl rfl, idle rfl rfl,
      fun k hk => ⟨idle (accessedReg_tag k hk) (array _ k), idle (accessedReg_k1 k hk) (array _ k),
        idle (accessedReg_k2 k hk) (array _ k), idle (accessedReg_dnonce k hk) (array _ k)⟩,
      fun k hk => idle (accessedReg_daad k hk) (array _ k)⟩

/-! ### `KEY` is write-only (R36, R65) -/

theorem readReg_setKey (cfg : Config) (r : Reg) (s : State) (key : Vector Byte 32) :
    readReg cfg r { s with key := key } = readReg cfg r s := by
  cases r <;> rfl

theorem hostRegRead_setKey (cfg : Config) (w o : Nat) (s : State) (key : Vector Byte 32) :
    hostRegRead cfg w o { s with key := key } = { hostRegRead cfg w o s with key := key } := by
  unfold hostRegRead
  cases accessedReg w o with
  | none => rfl
  | some r =>
    dsimp only
    rw [readReg_setKey]
    split
    · rfl
    · rfl

/-- What is written to `KEY` or to another register, the rest of the state does not depend on `KEY`. -/
theorem writeReg_setKey (r : Reg) (v : Word) (s : State) (key k0 : Vector Byte 32) :
    { writeIdleReg r v { s with key := key } with key := k0 } = { writeIdleReg r v s with key := k0 } ∧
    { writeBusyReg r v { s with key := key } with key := k0 } = { writeBusyReg r v s with key := k0 } := by
  have hctrl : { writeCtrl v { s with key := key } with key := k0 } = { writeCtrl v s with key := k0 } := by
    unfold writeCtrl
    dsimp only
    split
    · split
      · rfl
      · rfl
    · rfl
  cases r with
  | ctrl => exact ⟨hctrl, hctrl⟩
  | _ => exact ⟨rfl, rfl⟩

theorem hostRegWrite_setKey (w o : Nat) (v : Word) (s : State) (key k0 : Vector Byte 32) :
    { hostRegWrite w o v { s with key := key } with key := k0 } = { hostRegWrite w o v s with key := k0 } := by
  unfold hostRegWrite
  cases accessedReg w o with
  | none => rfl
  | some r =>
    obtain ⟨hidle, hbusy⟩ := writeReg_setKey r v s key k0
    dsimp only
    split
    · exact hbusy
    · exact hidle

theorem hostBufRead_setKey (cfg : Config) (w a : Nat) (s : State) (key : Vector Byte 32) :
    hostBufRead cfg w a { s with key := key } = { hostBufRead cfg w a s with key := key } := by
  unfold hostBufRead
  rw [memRead_of_buf (s := s) rfl rfl]
  dsimp only
  split
  · rfl
  · split
    · rfl
    · rfl

theorem hostBufWrite_setKey (cfg : Config) (w a : Nat) (v : Word) (s : State) (key : Vector Byte 32) :
    hostBufWrite cfg w a v { s with key := key } = { hostBufWrite cfg w a v s with key := key } := by
  unfold hostBufWrite
  dsimp only
  split
  · rfl
  · rfl

/-- But for `KEY` itself, an access does the same whatever `KEY` holds (R294). -/
theorem hostAccess_setKey (cfg : Config) (a : HostAccess) (s : State) (key k0 : Vector Byte 32) :
    { hostAccess cfg a { s with key := key } with key := k0 } = { hostAccess cfg a s with key := k0 } := by
  cases a with
  | regRead w o => rw [hostAccess, hostRegRead_setKey]; rfl
  | regWrite w o v => exact hostRegWrite_setKey w o v s key k0
  | bufRead w addr => rw [hostAccess, hostBufRead_setKey]; rfl
  | bufWrite w addr v => rw [hostAccess, hostBufWrite_setKey]; rfl

/-- Settles O54: the answers are part of what an access does, and a read of `KEY` answers 0. -/
theorem keyCannotBeRead : Obligations.KeyCannotBeRead := by
  unfold Obligations.KeyCannotBeRead
  intro s a key
  have hsame := hostAccess_setKey hw a s key s.key
  exact ⟨by simpa using congrArg State.responses hsame, hsame,
    fun k hk => hostAccess_read (accessedReg_key k hk) (by simp [Reg.isResult]) rfl⟩

/-! ### Illegal accesses (R44, R64, R68) -/

/-- Settles O56, from when an access reaches a register and when it is one of `BUF`. -/
theorem illegalAccessSetsAccErr : Obligations.IllegalAccessSetsAccErr := by
  unfold Obligations.IllegalAccessSetsAccErr
  intro s w o v reserved
  refine ⟨fun h => ?illegal, fun h => ?legal, fun hb h => ?buf⟩
  case illegal =>
    have hnone : accessedReg w o = none := by
      rw [accessedReg_eq_none_iff]
      omega
    simp [hostAccess, hostRegRead, hostRegWrite, hnone, respond, setAccErr]
  case legal =>
    obtain ⟨rfl, h4, hle, hnot⟩ := h
    have hsome : ¬accessedReg 4 o = none := by
      rw [accessedReg_eq_none_iff]
      omega
    rw [hostAccess]
    obtain ⟨hnone, -⟩ | ⟨r, -, -, -, h⟩ | ⟨r, -, -, h⟩ := hostRegRead_cases hw 4 o s
    · exact absurd hnone hsome
    · rw [h, respondUnspecified_eq]
    · rw [h, respond_accErr]
  case buf =>
    have hlegal : bufAccessLegal hw w o = false := by
      rw [← Bool.not_eq_true, bufAccessLegal_iff]
      exact h
    simp [hostAccess, hostBufRead, hostBufWrite, hb, hlegal, respond, setAccErr]

/-! ### Writes (R65, R75) -/

/-- A write to a register while no command is in flight. -/
theorem hostAccess_write {s : State} {o : Nat} {r : Reg} (v : Word) (hb : s.busy = false)
    (hr : accessedReg 4 o = some r) : hostAccess hw (.regWrite 4 o v) s = writeIdleReg r v s :=
  hostRegWrite_idle hr hb

/-- Reading a register back after writing it. -/
theorem hostAccess_read_write {s : State} {o : Nat} {r : Reg} {v x : Word} (hb : s.busy = false)
    (hr : accessedReg 4 o = some r) (hres : r.isResult = false) (hx : readReg hw r (writeIdleReg r v s) = x)
    (hresp : (writeIdleReg r v s).responses = s.responses) :
    hostAccess hw (.regRead 4 o) (hostAccess hw (.regWrite 4 o v) s) =
      { hostAccess hw (.regWrite 4 o v) s with responses := x :: s.responses } := by
  rw [hostAccess_write v hb hr, ← hresp]
  exact hostAccess_read hr (by simp [hres]) hx

/-- A read-only register ignores a write (R65). -/
theorem writeIdleReg_of_isResult {r : Reg} (v : Word) (s : State) (h : r.isResult = true) : writeIdleReg r v s = s := by
  cases r with
  | outLen | dHdrLen | dAadLen | tag _ | k1 _ | k2 _ | dnonce _ | daad _ => rfl
  | _ => cases h

/-- The byte-array registers from 0x080 on are result registers (R21). -/
theorem isResult_of_accessedReg : ∀ k, k < 56 → 32 ≤ k → (accessedReg 4 (4 * k)).any Reg.isResult = true := by decide

/-- Word `k` of a register reads back what was written to it, when all its bytes are in the register (R20). -/
theorem arrayWord_arrayWrite {n : Nat} (r : Vector Byte n) (k : Nat) (v : Word) (h : 4 * k + 3 < n) :
    arrayWord (arrayWrite r k v).toList k = v := by
  have hbyte : ∀ j, j < 4 → (arrayWrite r k v).toList.getD (4 * k + j) 0 = wordByte v j := by
    intro j hj
    rw [List.getD_eq_getElem _ _ (by simp; omega), Vector.getElem_toList, getElem_arrayWrite, if_pos (by omega),
      show (4 * k + j) % 4 = j by omega, wordByte]
  rw [arrayWord_eq, hbyte 3 (by omega), hbyte 2 (by omega), hbyte 1 (by omega), ← Nat.add_zero (4 * k),
    hbyte 0 (by omega)]
  exact leWord_wordBytes v

/-- Of the last word of `NONCE` only the lowest byte is in the register (R38). -/
theorem arrayWord_arrayWrite_nonce (r : Vector Byte 13) (v : Word) :
    arrayWord (arrayWrite r 3 v).toList 3 = v &&& 0xFF := by
  have hbyte : (arrayWrite r 3 v).toList.getD 12 0 = wordByte v 0 := by
    rw [List.getD_eq_getElem _ _ (by simp), Vector.getElem_toList, getElem_arrayWrite]
    rfl
  have hpast : ∀ j, 13 ≤ j → (arrayWrite r 3 v).toList.getD j 0 = 0 := fun j hj =>
    List.getD_eq_default _ _ (by simpa using hj)
  have hmask : ∀ b : Byte, (0 : Byte) ++ (0 : Byte) ++ (0 : Byte) ++ b = b.setWidth 32 := by decide
  rw [arrayWord_eq, hpast _ (by omega), hpast _ (by omega), hpast _ (by omega), hbyte, hmask, wordByte]
  apply BitVec.eq_of_toNat_eq
  have hmod := Nat.and_two_pow_sub_one_eq_mod v.toNat 8
  simp at hmod ⊢
  omega

theorem setWidth_extractLsb'_two (v : Word) : (v.extractLsb' 0 2).setWidth 32 = v &&& 3 := by
  apply BitVec.eq_of_toNat_eq
  have hmod := Nat.and_two_pow_sub_one_eq_mod v.toNat 2
  simp at hmod ⊢
  omega

/-- Settles O55, register by register. -/
theorem writtenRegistersReadBack : Obligations.WrittenRegistersReadBack := by
  unfold Obligations.WrittenRegistersReadBack
  intro s v hb wr back lane
  have write : ∀ {o : Nat} {r : Reg}, accessedReg 4 o = some r → wr o = writeIdleReg r v s :=
    fun hr => hostAccess_write v hb hr
  have readBack : ∀ {o : Nat} {r : Reg} {x : Word}, accessedReg 4 o = some r → r.isResult = false →
      readReg hw r (writeIdleReg r v s) = x → (writeIdleReg r v s).responses = s.responses → back o x :=
    fun hr hres hx hresp => hostAccess_read_write hb hr hres hx hresp
  refine ⟨write (r := .keyctl) rfl, readBack rfl rfl (setWidth_extractLsb'_two v) rfl, write (r := .src) rfl,
    write (r := .dst) rfl, write (r := .len) rfl, write (r := .aadPtr) rfl, write (r := .aadLen) rfl, fun k hk => ?key,
    fun k hk => ?ivctr, fun k hk => ?nonce, ?readBack,
    readBack rfl rfl (arrayWord_arrayWrite_nonce _ v) rfl, fun o h4 ho => ?readOnly⟩
  case key =>
    rw [write (accessedReg_key k hk)]
    exact ⟨rfl, getElem_arrayWrite s.key k v⟩
  case ivctr =>
    rw [write (accessedReg_ivctr k hk)]
    exact ⟨rfl, getElem_arrayWrite s.ivctr k v⟩
  case nonce =>
    rw [write (accessedReg_nonce k hk)]
    exact ⟨rfl, getElem_arrayWrite s.nonce k v⟩
  case readBack =>
    have ivctr : ∀ k, k < 4 → back (0x060 + 4 * k) v := fun k hk =>
      readBack (accessedReg_ivctr k hk) rfl (arrayWord_arrayWrite s.ivctr k v (by omega)) rfl
    have nonce : ∀ k, k < 3 → back (0x070 + 4 * k) v := fun k hk =>
      readBack (accessedReg_nonce k (by omega)) rfl (arrayWord_arrayWrite s.nonce k v (by omega)) rfl
    simp only [List.forall_mem_cons]
    exact ⟨readBack rfl rfl rfl rfl, readBack rfl rfl rfl rfl, readBack rfl rfl rfl rfl, readBack rfl rfl rfl rfl,
      readBack rfl rfl rfl rfl, ivctr 0 (by omega), ivctr 1 (by omega), ivctr 2 (by omega), ivctr 3 (by omega),
      nonce 0 (by omega), nonce 1 (by omega), nonce 2 (by omega), by simp⟩
  case readOnly =>
    obtain ho | ⟨hlo, hhi⟩ := ho
    · simp only [List.mem_cons, List.not_mem_nil, or_false] at ho
      rcases ho with rfl | rfl | rfl | rfl | rfl
      · exact write (r := .id) rfl
      · exact write (r := .errcode) rfl
      · exact write (r := .outLen) rfl
      · exact write (r := .dHdrLen) rfl
      · exact write (r := .dAadLen) rfl
    · have hres := isResult_of_accessedReg (o / 4) (by omega) (by omega)
      rw [show 4 * (o / 4) = o by omega, Option.any_eq_true] at hres
      obtain ⟨r, hr, hres⟩ := hres
      rw [write hr, writeIdleReg_of_isResult v s hres]

/-! ### The buffer port (R68) -/

theorem toNat_append_byte {n : Nat} (x : BitVec n) (b : Byte) : (x ++ b).toNat = 2 ^ 8 * x.toNat + b.toNat := by
  rw [BitVec.toNat_append, ← Nat.shiftLeft_add_eq_or_of_lt b.isLt, Nat.shiftLeft_eq, Nat.mul_comm]

/-- The number of a word is its bytes, lowest lane first (R20, R68). -/
theorem toNat_leWord (l : List Byte) :
    (leWord l).toNat =
      (l.getD 0 0).toNat + 2 ^ 8 * (l.getD 1 0).toNat + 2 ^ 16 * (l.getD 2 0).toNat + 2 ^ 24 * (l.getD 3 0).toNat := by
  rw [leWord, toNat_append_byte, toNat_append_byte, toNat_append_byte]
  omega

theorem toNat_wordByte (v : Word) (j : Nat) : (wordByte v j).toNat = v.toNat / 2 ^ (8 * j) % 256 := by
  simp [wordByte, BitVec.extractLsb'_toNat, Nat.shiftRight_eq_div_pow]

/-- The low bytes of a word, as a word. -/
theorem leWord_low_bytes (v : Word) {n : Nat} (hn : n = 1 ∨ n = 2 ∨ n = 4) :
    leWord ((List.range n).map (wordByte v)) = BitVec.ofNat 32 (v.toNat % 2 ^ (8 * n)) := by
  apply BitVec.eq_of_toNat_eq
  rw [toNat_leWord, BitVec.toNat_ofNat]
  rcases hn with rfl | rfl | rfl
  · simp [List.range_succ, toNat_wordByte]
    omega
  · simp [List.range_succ, toNat_wordByte]
    omega
  · simp [List.range_succ, toNat_wordByte]
    omega

/-- Settles O57: a legal access of the buffer port is one write, or one read, of `BUF`. -/
theorem bufferPortStoresLittleEndian : Obligations.BufferPortStoresLittleEndian := by
  unfold Obligations.BufferPortStoresLittleEndian
  intro s n a v hb hn ha hle t
  have hlegal : bufAccessLegal hw n a = true := (bufAccessLegal_iff hw n a).2 ⟨hn, ha, hle⟩
  have hlen : ((List.range n).map (wordByte v)).length = n := by simp
  have ht : t = memWrite s a ((List.range n).map (wordByte v)) := by
    simp [t, hostAccess, hostBufWrite, hb, hlegal]
  have hread : memRead t a n = (List.range n).map (wordByte v) := by
    have hsame := memRead_memWrite_same s a ((List.range n).map (wordByte v))
    rwa [hlen, ← ht] at hsame
  refine ⟨by rw [ht, memWrite], fun i hi => ?stored, fun b hout => ?outside, ?readBack⟩
  case stored =>
    rw [ht, byteAt_memWrite, dif_pos (by omega)]
    simp [wordByte]
  case outside => rw [ht, byteAt_memWrite_outside _ _ _ (by omega)]
  case readBack =>
    have hidle : t.busy = false := by rw [ht, memWrite_busy, hb]
    have hresp : t.responses = s.responses := by rw [ht, memWrite_responses]
    rw [hostAccess, hostBufRead, if_neg (by simp [hidle]), if_pos hlegal, hread, leWord_low_bytes v hn, ← hresp,
      respond]

end Sys2Proof.Machine
end

section
/-! Where commands write `BUF`: how long what they write is, and that a command whose checks have passed writes inside
`BUF` (20_memory R60, R70). -/

namespace Sys2Proof.Machine

/-! ### What CCM and CCMP write (43_ccm R189, R193; 44_ccmp R224, R228) -/

theorem length_ccmEncrypt_fst (cfg : Config) (enc : Block → Block) (n : Vector Byte 13) (a p : List Byte) :
    (ccmEncrypt cfg enc n a p).1.length = p.length := by
  simp [ccmEncrypt]

theorem length_ccmEncrypt_snd (cfg : Config) (enc : Block → Block) (n : Vector Byte 13) (a p : List Byte) :
    (ccmEncrypt cfg enc n a p).2.length = min cfg.ccmAuthLen 16 := by
  simp [ccmEncrypt]

theorem length_ccmDecrypt_fst (cfg : Config) (enc : Block → Block) (n : Vector Byte 13) (a cu : List Byte) :
    (ccmDecrypt cfg enc n a cu).1.length = cu.length - cfg.ccmAuthLen := by
  simp [ccmDecrypt]

theorem length_ccmpEncResult_fst (cfg : Config) (legacy : Bool) (nfb : Byte) (s : State) :
    (ccmpEncResult cfg legacy nfb s).1.length = s.len.toNat - mpduHeaderLen s := by
  simp [ccmpEncResult, length_ccmEncrypt_fst, payloadLen]

theorem length_ccmpEncResult_snd (cfg : Config) (legacy : Bool) (nfb : Byte) (s : State) :
    (ccmpEncResult cfg legacy nfb s).2.length = min cfg.ccmAuthLen 16 :=
  length_ccmEncrypt_snd _ _ _ _ _

theorem length_ccmpDecResult_fst (cfg : Config) (legacy : Bool) (nfb : Byte) (s : State) :
    (ccmpDecResult cfg legacy nfb s).1.length = s.len.toNat - mpduHeaderLen s - cfg.ccmAuthLen := by
  simp [ccmpDecResult, length_ccmDecrypt_fst, payloadLen]

/-! ### Passed checks make the operands legal (Safety.lean) -/

section
variable {cfg : Config} {pad : Nat} {s : State}

theorem cbcEncLegal_of_checks (h : firstError (cbcEncChecks cfg pad s) = none) : CbcEncLegal cfg pad s := by
  rw [firstError_eq_none] at h
  simp only [cbcEncChecks, List.forall_mem_cons, checkKey_fails, checkRegions_src_out, checkPadding, notWholeBlocks,
    decide_eq_false_iff_not, not_not] at h
  obtain ⟨hpad, hkey, hlen, ⟨hsrc, hdst, hok⟩, -⟩ := h
  refine ⟨by omega, hkey, fun hp => ?_, hsrc, hdst, hok⟩
  simp [hp] at hlen
  omega

theorem cbcDecLegal_of_checks (h : firstError (cbcDecChecks cfg pad s) = none) : CbcDecLegal cfg pad s := by
  rw [firstError_eq_none] at h
  simp only [cbcDecChecks, List.forall_mem_cons, checkKey_fails, checkRegions_src_out, checkPadding, notWholeBlocks,
    decide_eq_false_iff_not, not_not] at h
  obtain ⟨hpad, hkey, hlen, ⟨hsrc, hdst, hok⟩, -, -⟩ := h
  simp at hlen
  exact ⟨by omega, hkey, by omega, by omega, hsrc, hdst, hok⟩

theorem ctrLegal_of_checks (h : firstError (ctrCryptChecks cfg s) = none) : CtrLegal cfg s := by
  rw [firstError_eq_none] at h
  simp only [ctrCryptChecks, List.forall_mem_cons, checkKey_fails, checkRegions_src_out, decide_eq_false_iff_not,
    not_not] at h
  obtain ⟨hkey, hlen, ⟨hsrc, hdst, hok⟩, -⟩ := h
  exact ⟨hkey, Nat.not_lt.1 hlen, hsrc, hdst, hok⟩

theorem ccmEncLegal_of_checks (h : firstError (ccmEncChecks cfg s) = none) : CcmEncLegal cfg s := by
  rw [firstError_eq_none] at h
  simp only [ccmEncChecks, ccmChecks, List.forall_mem_cons, checkKey_fails, checkRegions_src_aad_out, Bool.or_false,
    decide_eq_false_iff_not, not_not] at h
  obtain ⟨hkey, haad, hlen, ⟨hsrc, hafits, hdst, hapart, hok⟩, -⟩ := h
  exact ⟨⟨hkey, by omega, Nat.not_lt.1 hlen, hsrc, hafits⟩, hdst, hapart, hok⟩

theorem ccmDecLegal_of_checks (h : firstError (ccmDecChecks cfg s) = none) : CcmDecLegal cfg s := by
  rw [firstError_eq_none] at h
  simp only [ccmDecChecks, ccmChecks, List.forall_mem_cons, checkKey_fails, checkRegions_src_aad_out,
    Bool.or_eq_false_iff, decide_eq_false_iff_not, not_not] at h
  obtain ⟨hkey, ⟨haad, hshort⟩, hlen, ⟨hsrc, hafits, hdst, hapart, hok⟩, -⟩ := h
  exact ⟨by omega, ⟨hkey, by omega, Nat.not_lt.1 hlen, hsrc, hafits⟩, hdst, hapart, hok⟩

theorem ccmpEncLegal_of_checks
    (h : firstError (ccmpCryptChecks cfg 0 (some (ccmpEncRegion cfg s)) s) = none) : CcmpEncLegal cfg s := by
  rw [firstError_eq_none] at h
  simp only [ccmpCryptChecks, mpduChecks, List.cons_append, List.nil_append, List.forall_mem_cons, checkKey_fails,
    checkRegions_src_out, decide_eq_false_iff_not, not_not] at h
  obtain ⟨hkey, hshort, ⟨hsrc, hout, -⟩, hheader, hlen, -⟩ := h
  have hfits : (s.len.toNat + cfg.ccmAuthLen = 0) ∨ s.src.toNat + (s.len.toNat + cfg.ccmAuthLen) ≤ cfg.bufBytes := hout
  exact ⟨hkey, ⟨by omega, hsrc, by omega⟩, by omega, Nat.not_lt.1 hlen⟩

theorem ccmpDecLegal_of_checks (h : firstError (ccmpCryptChecks cfg cfg.ccmAuthLen none s) = none) :
    CcmpDecLegal cfg s := by
  rw [firstError_eq_none] at h
  simp only [ccmpCryptChecks, mpduChecks, List.cons_append, List.nil_append, List.forall_mem_cons, checkKey_fails,
    checkRegions_src, decide_eq_false_iff_not, not_not] at h
  obtain ⟨hkey, hshort, hsrc, hheader, hlen, -⟩ := h
  exact ⟨hkey, ⟨by omega, hsrc, by omega⟩, Nat.not_lt.1 hlen⟩

end

end Sys2Proof.Machine
end

section
/-! The invariant (10_state R24, R34, R35, R43; 20_memory R60): it holds at reset, and every step keeps it. -/

namespace Sys2Proof.Machine

/-! ### The parts of the invariant -/

/-- Writing inside `BUF` keeps it canonical and inside its bounds. -/
theorem State.BufOk.writeBytes {cfg : Config} {s t : State} {a : Nat} {v : List Byte} (h : s.BufOk cfg)
    (ht : t.buf = s.buf.writeBytes a v) (hfits : v.length = 0 ∨ a + v.length ≤ cfg.bufBytes) : t.BufOk cfg := by
  obtain ⟨hwf, hbound⟩ := h
  rw [State.BufOk, ht]
  refine ⟨Memory.wf_writeBytes _ _ _ hwf, fun b hb => ?_⟩
  obtain hold | hnew := Memory.isSome_read_writeBytes _ _ _ _ hb
  · exact hbound b hold
  · omega

/-- The derived registers of an MPDU are legal (R43, R215). -/
theorem derivedOk_of_mpduDerived {t : State} (cfg : Config) (legacy : Bool) (nfb : Byte) (s : State)
    (hhdr : t.dHdrLen = lengthWord (mpduDerived cfg legacy nfb s).headerLen)
    (haad : t.dAadLen = lengthWord (mpduDerived cfg legacy nfb s).aadLen)
    (hdaad : t.daad = ofBytes 30 (mpduDerived cfg legacy nfb s).aad) : t.DerivedOk := by
  obtain ⟨-, hle⟩ := mpduDerived_aadLen_bounds cfg legacy nfb s
  have hhdrle : (mpduDerived cfg legacy nfb s).headerLen ≤ 40 := (headerLen_bounds _).2
  have haadNat := haad ▸ toNat_lengthWord (n := (mpduDerived cfg legacy nfb s).aadLen) (by omega)
  have hhdrNat := hhdr ▸ toNat_lengthWord (n := (mpduDerived cfg legacy nfb s).headerLen) (by omega)
  rw [State.DerivedOk, haadNat, hhdrNat]
  refine ⟨List.mem_cons_of_mem _ (headerLen_aadLength_mem _), fun i hi => ?_⟩
  rw [hdaad]
  by_cases h30 : i < 30
  · rw [getD_toList_ofBytes _ _ _ h30, List.getD_eq_default _ _ (by rw [length_mpduDerived_aad]; exact hi)]
  · exact List.getD_eq_default _ _ (by simp; omega)

/-- A state with no command in flight whose `ERR` and `ERRCODE` agree, and whose `BUF` and derived registers are
legal. -/
theorem inv_of_completed {t : State} (hbusy : t.busy = false) (herr : t.err = true ↔ t.errcode ≠ .none)
    (hbuf : t.BufOk hw) (hderived : t.DerivedOk) : t.Inv where
  flags := ⟨by simp [hbusy], by simp [hbusy, herr]⟩
  errcodeWhileBusy := by simp [State.BusyErrcodeZero, hbusy]
  buffer := hbuf
  derived := hderived

/-! ### At reset (R21, R53) -/

theorem derivedOk_reset : State.reset.DerivedOk := by
  refine ⟨by decide, fun i _ => ?_⟩
  rw [reset_daad, replicate_eq_ofBytes]
  by_cases h30 : i < 30
  · exact getD_toList_ofBytes 30 [] i h30
  · exact List.getD_eq_default _ _ (by simp; omega)

theorem bufOk_nil (cfg : Config) {s : State} (h : s.buf = []) : s.BufOk cfg := by
  rw [State.BufOk, h]
  exact ⟨rfl, by simp [Memory.read]⟩

/-- Settles O49. -/
theorem invariantAtReset : Obligations.InvariantAtReset := by
  unfold Obligations.InvariantAtReset
  exact inv_of_completed rfl (by simp) (bufOk_nil hw rfl) derivedOk_reset

/-! ### A completion keeps the invariant -/

/-- A command whose checks have passed writes inside `BUF`. -/
theorem bufOk_commandEffect {i : Instr} {s : State} (h : s.BufOk hw)
    (hchecks : firstError (commandChecks i s) = none) : (commandEffect i s).BufOk hw := by
  cases i with
  | nop => exact h
  | cbcEnc pad =>
    have hlegal : CbcEncLegal hw pad s := cbcEncLegal_of_checks hchecks
    rw [commandEffect, ← cbcEnc_of_legal hlegal, cbcEnc_eq hlegal]
    obtain ⟨-, -, -, -, hfits, -⟩ := hlegal
    exact h.writeBytes rfl (by rw [length_cbcEncResult (cbcEncLegal_of_checks hchecks)]; exact hfits)
  | cbcDec pad =>
    obtain ⟨-, -, -, hmod, -, hfits, -⟩ : CbcDecLegal hw pad s := cbcDecLegal_of_checks hchecks
    rw [commandEffect, cbcDecEffect_eq]
    exact h.writeBytes rfl (by rw [cbcDecResult, length_cbcDecBytes _ _ _ (by simpa using hmod)]; simpa using hfits)
  | ctrCrypt =>
    obtain ⟨-, -, -, hfits, -⟩ : CtrLegal hw s := ctrLegal_of_checks hchecks
    rw [commandEffect, ctrCryptEffect_eq]
    exact h.writeBytes rfl (by simpa using hfits)
  | ccmMac =>
    rw [commandEffect, ccmMacEffect_eq]
    exact h
  | ccmEnc =>
    obtain ⟨-, hfits, -⟩ : CcmEncLegal hw s := ccmEncLegal_of_checks hchecks
    rw [commandEffect, ccmEncEffect_eq]
    refine h.writeBytes rfl ?_
    rw [List.length_append, length_ccmEncrypt_fst, length_ccmEncrypt_snd, length_srcBytes]
    exact hfits
  | ccmDec =>
    obtain ⟨-, -, hfits, -⟩ : CcmDecLegal hw s := ccmDecLegal_of_checks hchecks
    rw [commandEffect, ccmDecEffect_eq]
    refine h.writeBytes rfl ?_
    rw [length_ccmDecrypt_fst, length_srcBytes]
    exact hfits
  | ccmpDerive legacy nfb =>
    rw [commandEffect, ccmpDeriveEffect_eq]
    exact h
  | ccmpEnc legacy nfb =>
    obtain ⟨-, ⟨-, -, hheader⟩, hfits, -⟩ : CcmpEncLegal hw s := ccmpEncLegal_of_checks hchecks
    rw [commandEffect, ccmpEncEffect_eq]
    refine h.writeBytes rfl (.inr ?_)
    have hauth : hw.ccmAuthLen = 8 := rfl
    rw [List.length_append, length_ccmpEncResult_fst, length_ccmpEncResult_snd, bodyAddr]
    omega
  | ccmpDec legacy nfb =>
    obtain ⟨-, ⟨-, hfits, hheader⟩, -⟩ : CcmpDecLegal hw s := ccmpDecLegal_of_checks hchecks
    rw [commandEffect, ccmpDecEffect_eq]
    refine h.writeBytes rfl ?_
    have hsrc : s.len.toNat = 0 ∨ s.src.toNat + s.len.toNat ≤ hw.bufBytes := hfits
    rw [length_ccmpDecResult_fst, bodyAddr]
    omega
  | cmacSubkeys =>
    rw [commandEffect, cmacSubkeysEffect_eq]
    exact h
  | cmac =>
    rw [commandEffect, cmacEffect_eq]
    exact h

/-- A command leaves the derived registers, or writes those of an MPDU. -/
theorem derivedOk_commandEffect (i : Instr) {s : State} (h : s.DerivedOk) : (commandEffect i s).DerivedOk := by
  cases i with
  | nop => exact h
  | cbcEnc pad => rw [commandEffect, cbcEncEffect_eq]; exact h
  | cbcDec pad => rw [commandEffect, cbcDecEffect_eq]; exact h
  | ctrCrypt => rw [commandEffect, ctrCryptEffect_eq]; exact h
  | ccmMac => rw [commandEffect, ccmMacEffect_eq]; exact h
  | ccmEnc => rw [commandEffect, ccmEncEffect_eq]; exact h
  | ccmDec => rw [commandEffect, ccmDecEffect_eq]; exact h
  | ccmpDerive legacy nfb =>
    rw [commandEffect, ccmpDeriveEffect_eq]
    exact derivedOk_of_mpduDerived hw legacy nfb s rfl rfl rfl
  | ccmpEnc legacy nfb =>
    rw [commandEffect, ccmpEncEffect_eq]
    exact derivedOk_of_mpduDerived hw legacy nfb s rfl rfl rfl
  | ccmpDec legacy nfb =>
    rw [commandEffect, ccmpDecEffect_eq]
    exact derivedOk_of_mpduDerived hw legacy nfb s rfl rfl rfl
  | cmacSubkeys => rw [commandEffect, cmacSubkeysEffect_eq]; exact h
  | cmac => rw [commandEffect, cmacEffect_eq]; exact h

theorem inv_raiseError {e : ErrCode} {s : State} (h : s.Inv) (he : e ≠ .none) : (raiseError e s).Inv :=
  inv_of_completed rfl (by simpa using he) h.buffer h.derived

theorem inv_of_engineStep {s t : State} (h : s.Inv) (hstep : engineStep s = .next t) : t.Inv := by
  obtain ⟨i, hexec⟩ | rfl := engineStep_cases hstep
  · obtain ⟨hbusy, -, -⟩ := exec_completes hexec
    have herr := err_iff_of_exec hexec
    obtain ⟨e, ⟨hne, -, -⟩, rfl⟩ | ⟨hchecks, rfl⟩ := exec_cases hexec
    · exact inv_raiseError h hne
    · exact inv_of_completed hbusy herr (bufOk_commandEffect h.buffer hchecks) (derivedOk_commandEffect i h.derived)
  · exact inv_raiseError h (by simp)

/-! ### An access keeps the invariant -/

theorem inv_softReset {s : State} (h : s.Inv) : (softReset s).Inv :=
  inv_of_completed rfl (by simp) h.buffer derivedOk_reset

theorem inv_hardReset (s : State) : (hardReset s).Inv :=
  inv_of_completed rfl (by simp) (bufOk_nil hw rfl) derivedOk_reset

theorem inv_acceptCommand {s : State} (w : Word) (h : s.Inv) : (acceptCommand w s).Inv where
  flags := ⟨fun _ => ⟨rfl, rfl⟩, by simp⟩
  errcodeWhileBusy := fun _ => rfl
  buffer := h.buffer
  derived := h.derived

theorem inv_writeStatus {s : State} (v : Word) (h : s.Inv) : (writeStatus v s).Inv where
  flags := ⟨fun hb => by simp [h.flags.1 hb], h.flags.2⟩
  errcodeWhileBusy := h.errcodeWhileBusy
  buffer := h.buffer
  derived := h.derived

theorem inv_writeCtrl {s : State} (v : Word) (h : s.Inv) : (writeCtrl v s).Inv := by
  obtain ⟨-, hc⟩ | ⟨-, -, hc⟩ | ⟨-, -, hc⟩ := writeCtrl_cases v s
  · rw [hc]
    exact ⟨h.flags, h.errcodeWhileBusy, h.buffer, h.derived⟩
  · rw [hc]
    exact ⟨h.flags, h.errcodeWhileBusy, h.buffer, h.derived⟩
  · rw [hc]
    exact inv_softReset h

theorem inv_hostAccess {s : State} (a : HostAccess) (h : s.Inv) : (hostAccess hw a s).Inv := by
  obtain ⟨v, -, ha⟩ | ⟨v, -, ha⟩ | ⟨v, -, -, ha⟩ | ⟨-, ha⟩ | ⟨addr, bs, -, hfits, ha⟩ | ⟨ha, -⟩ :=
    hostAccess_cases hw a s
  · rw [ha]
    exact inv_writeCtrl v h
  · rw [ha]
    exact inv_writeStatus v h
  · rw [ha]
    exact inv_acceptCommand v h
  · rw [ha]
    exact ⟨h.flags, h.errcodeWhileBusy, h.buffer, h.derived⟩
  · rw [ha]
    exact ⟨h.flags, h.errcodeWhileBusy, h.buffer.writeBytes (memWrite_buf _ _ _) (.inr hfits), h.derived⟩
  · rw [ha]
    exact ⟨h.flags, h.errcodeWhileBusy, h.buffer, h.derived⟩

/-- Settles O50: taking an input off the list keeps the invariant, and so does whatever it asks for. -/
theorem everyStepKeepsTheInvariant : Obligations.EveryStepKeepsTheInvariant := by
  unfold Obligations.EveryStepKeepsTheInvariant
  intro s t h hstep
  have hinputs : ∀ rest, State.Inv { s with inputs := rest } := fun _ =>
    ⟨h.flags, h.errcodeWhileBusy, h.buffer, h.derived⟩
  obtain ⟨a, rest, -, rfl⟩ | ⟨rest, -, rfl⟩ | ⟨-, hengine⟩ | ⟨-, rfl⟩ := step_cases hstep
  · exact inv_hostAccess a (hinputs rest)
  · exact inv_hardReset _
  · exact inv_of_engineStep (hinputs _) hengine
  · exact hinputs _

end Sys2Proof.Machine
end

section
/-! The reset values (10_state R21, R53) and the hard reset (70_reset_and_hazards R290). -/

namespace Sys2Proof.Machine

/-- Only the access at 0x000 reaches `ID` (R22). -/
theorem accessedReg_id_iff (o : Nat) : accessedReg 4 o = some .id ↔ o = 0 := by
  constructor
  · intro h
    have hsome : ¬accessedReg 4 o = none := by simp [h]
    rw [accessedReg_eq_none_iff] at hsome
    have hmap : ∀ k, k < 56 → accessedReg 4 (4 * k) = some .id → k = 0 := by decide
    have hk := hmap (o / 4) (by omega) (by rw [show 4 * (o / 4) = o by omega]; exact h)
    omega
  · rintro rfl
    rfl

theorem arrayWord_replicate_zero (n k : Nat) : arrayWord (Vector.replicate n (0 : Byte)).toList k = 0 := by
  have hzero : ∀ i, (Vector.replicate n (0 : Byte)).toList.getD i 0 = 0 := by
    intro i
    rw [Vector.toList_replicate, List.getD_eq_getElem?_getD, List.getElem?_replicate]
    split
    · rfl
    · rfl
  rw [arrayWord_eq, hzero, hzero, hzero, hzero]
  rfl

/-- After reset every register but `ID` reads 0 (R21, R53). -/
theorem readReg_reset (cfg : Config) (r : Reg) : readReg cfg r State.reset = if r = .id then cfg.idValue else 0 := by
  cases r with
  | ivctr k | nonce k | tag k | k1 k | k2 k | dnonce k | daad k => exact arrayWord_replicate_zero _ k
  | _ => rfl

/-- Settles O48. -/
theorem resetValues : Obligations.ResetValues := by
  unfold Obligations.ResetValues
  refine ⟨fun o r hr => ?_, rfl, rfl, rfl, rfl⟩
  rw [readReg_reset]
  by_cases ho : o = 0
  · subst ho
    rw [(accessedReg_id_iff 0).2 rfl] at hr
    cases hr
    rfl
  · have hid : r ≠ .id := by
      rintro rfl
      exact ho ((accessedReg_id_iff o).1 hr)
    rw [if_neg hid, if_neg ho]

/-- Settles O52: nothing is listed in `BUF` after a hard reset. -/
theorem hardResetAbandonsEverything : Obligations.HardResetAbandonsEverything := by
  unfold Obligations.HardResetAbandonsEverything
  exact fun s rest hi => ⟨_, step_hardReset hi, rfl, fun a => rfl⟩

end Sys2Proof.Machine
end

section
/-! Runs (40_block_primitives R130; 70_reset_and_hazards R290, R300): every command in flight completes or is abandoned,
and every run ends idle. By induction on what is still to come from outside. -/

namespace Sys2Proof.Machine

theorem runsTo_zero (s : State) : RunsTo s 0 s := rfl

theorem runsTo_succ {s t u : State} {n : Nat} (h : step s = .next t) (hrun : RunsTo t n u) : RunsTo s (n + 1) u := by
  have hcore : Sys2Proof.core.step s = .next t := h
  simp only [RunsTo, Host.Core.run, hcore]
  exact hrun

/-! ### A step takes one input -/

theorem exists_engineStep (s : State) : ∃ t, engineStep s = .next t := by
  cases hd : decode s.cmd with
  | ok i => exact ⟨_, (engineStep_of_decode hd).trans (exec_eq_runChecked i s)⟩
  | error e => exact ⟨_, engineStep_of_illegal hd⟩

theorem inputs_of_engineStep {s t : State} (h : engineStep s = .next t) : t.inputs = s.inputs := by
  obtain ⟨i, hexec⟩ | rfl := engineStep_cases h
  · rw [commandsWriteNoOperandRegister i s t hexec]
  · rfl

theorem inputs_hostAccess (a : HostAccess) (s : State) : (hostAccess hw a s).inputs = s.inputs := by
  obtain ⟨v, -, h⟩ | ⟨v, -, h⟩ | ⟨v, -, -, h⟩ | ⟨-, h⟩ | ⟨addr, bs, -, -, h⟩ | ⟨h, -⟩ := hostAccess_cases hw a s
  · rw [h]
    obtain ⟨-, hc⟩ | ⟨-, -, hc⟩ | ⟨-, -, hc⟩ := writeCtrl_cases v s
    · rw [hc]
    · rw [hc, setAccErr_inputs]
    · rw [hc, softReset_inputs]
  · rw [h, writeStatus_inputs]
  · rw [h, acceptCommand_inputs]
  · rw [h]
  · rw [h, memWrite_inputs]
  · rw [h]

theorem exists_step (s : State) : ∃ t, step s = .next t := by
  obtain hb | hb := Bool.eq_false_or_eq_true s.busy
  · rcases hi : s.inputs with _ | ⟨_ | _ | _, rest⟩
    · rw [step_engine_last hi hb]
      exact exists_engineStep s
    · exact ⟨_, step_access hi⟩
    · rw [step_engine hi hb]
      exact exists_engineStep _
    · exact ⟨_, step_hardReset hi⟩
  · rcases hi : s.inputs with _ | ⟨_ | _ | _, rest⟩
    · exact ⟨_, step_idle hi hb⟩
    · exact ⟨_, step_access hi⟩
    · exact ⟨_, step_engine_idle hi hb⟩
    · exact ⟨_, step_hardReset hi⟩

theorem inputs_of_step {s t : State} (h : step s = .next t) : t.inputs = s.inputs.tail := by
  obtain ⟨a, rest, hi, rfl⟩ | ⟨rest, hi, rfl⟩ | ⟨-, hengine⟩ | ⟨-, rfl⟩ := step_cases h
  · rw [inputs_hostAccess, hi, List.tail_cons]
  · rw [hardReset_inputs, hi, List.tail_cons]
  · exact inputs_of_engineStep hengine
  · rfl

/-- When nothing is to come, the step leaves nothing in flight. -/
theorem idle_of_last_step {s t : State} (hi : s.inputs = []) (h : step s = .next t) : t.busy = false := by
  obtain ⟨a, rest, hc, -⟩ | ⟨rest, hc, -⟩ | ⟨-, hengine⟩ | ⟨hb, rfl⟩ := step_cases h
  · simp [hi] at hc
  · simp [hi] at hc
  · exact (engineStep_completes hengine).1
  · exact hb

theorem run_ends_idle (l : List Input) (s : State) (hi : s.inputs = l) :
    ∃ t, RunsTo s (l.length + 1) t ∧ t.busy = false ∧ t.inputs = [] := by
  induction l generalizing s with
  | nil =>
    obtain ⟨t, ht⟩ := exists_step s
    exact ⟨t, runsTo_succ ht (runsTo_zero t), idle_of_last_step hi ht, by rw [inputs_of_step ht, hi, List.tail_nil]⟩
  | cons x rest ih =>
    obtain ⟨t, ht⟩ := exists_step s
    obtain ⟨u, hrun, hidle, hnone⟩ := ih t (by rw [inputs_of_step ht, hi, List.tail_cons])
    exact ⟨u, runsTo_succ ht hrun, hidle, hnone⟩

/-! ### A command in flight (R130) -/

/-- What may have changed while a command in flight waited for `n` inputs (R66): what the host may write or be answered
meanwhile. -/
abbrev WaitedFor (n : Nat) (s u : State) : Prop :=
  u = { s with ie := u.ie, done := u.done, accErr := u.accErr, draws := u.draws, responses := u.responses,
               inputs := s.inputs.drop n }

/-- The next step completes the command, or abandons it (R132, R290). -/
abbrev EndsNext (u : State) : Prop :=
  (∃ v, step u = .next v ∧ v.busy = false ∧ v.done = true) ∨ ∃ rest, u.inputs = .hardReset :: rest

theorem waitedFor_zero (s : State) : WaitedFor 0 s s := rfl

theorem endsNext_of_engineStep {s u : State} (h : step s = engineStep u) : EndsNext s := by
  obtain ⟨v, hv⟩ := exists_engineStep u
  obtain ⟨hbusy, hdone, -⟩ := engineStep_completes hv
  exact .inl ⟨v, h.trans hv, hbusy, hdone⟩

theorem exists_run_endsNext (l : List Input) (s : State) (hi : s.inputs = l) (hb : s.busy = true) :
    ∃ n u, n ≤ l.length ∧ RunsTo s n u ∧ WaitedFor n s u ∧ EndsNext u := by
  induction l generalizing s with
  | nil => exact ⟨0, s, le_rfl, runsTo_zero s, waitedFor_zero s, endsNext_of_engineStep (step_engine_last hi hb)⟩
  | cons x rest ih =>
    cases x with
    | engineTurn =>
      exact ⟨0, s, Nat.zero_le _, runsTo_zero s, waitedFor_zero s, endsNext_of_engineStep (step_engine hi hb)⟩
    | hardReset => exact ⟨0, s, Nat.zero_le _, runsTo_zero s, waitedFor_zero s, .inr ⟨rest, hi⟩⟩
    | access a =>
      have hstep := step_access hi
      have hframe := hostAccess_busy_frame hw a (s := { s with inputs := rest }) hb
      generalize hostAccess hw a { s with inputs := rest } = t at hstep hframe
      obtain ⟨n, u, hn, hrun, hwait, hends⟩ := ih t (by rw [hframe]) (by rw [hframe]; exact hb)
      refine ⟨n + 1, u, Nat.succ_le_succ hn, runsTo_succ hstep hrun, ?_, hends⟩
      rw [WaitedFor, hi, List.drop_succ_cons]
      rw [WaitedFor, hframe] at hwait
      exact hwait

/-- Settles O13, by induction on the inputs. -/
theorem everyCommandCompletes : Obligations.EveryCommandCompletes := by
  unfold Obligations.EveryCommandCompletes
  exact fun s => ⟨exists_run_endsNext s.inputs s rfl, run_ends_idle s.inputs s rfl⟩

end Sys2Proof.Machine
end

section
/-! Which error a checked command ends with (60_exceptions R264), and what a write leaves for later reads. -/

namespace Sys2Proof.Machine

/-! ### The first failing check (R264) -/

theorem errcode_runChecked_nil (f : State → State) (s : State) : (runChecked [] f s).errcode = (f s).errcode := rfl

theorem errcode_runChecked_cons (c : Check) (cs : List Check) (f : State → State) (s : State) :
    (runChecked (c :: cs) f s).errcode = if c.fails = true then c.error else (runChecked cs f s).errcode := by
  cases hc : c.fails
  · simp [runChecked, firstError_cons, hc]
  · simp [runChecked, firstError_cons, hc]

/-! ### After a write (R62) -/

section
variable {s t : State} {a : Nat} {v : List Byte}

/-- What was written stands where it was written. -/
theorem memRead_of_writeBytes (hbuf : t.buf = s.buf.writeBytes a v) (hepoch : t.bufEpoch = s.bufEpoch) :
    memRead t a v.length = v :=
  (memRead_of_buf (s := memWrite s a v) hbuf hepoch a v.length).trans (memRead_memWrite_same s a v)

/-- What lies outside the written region is as it was. -/
theorem byteAt_of_writeBytes_outside (hbuf : t.buf = s.buf.writeBytes a v) (hepoch : t.bufEpoch = s.bufEpoch) {b : Nat}
    (hb : b < a ∨ a + v.length ≤ b) : t.byteAt b = s.byteAt b :=
  (byteAt_congr (s := memWrite s a v) hbuf hepoch b).trans (byteAt_memWrite_outside s a v hb)

end

end Sys2Proof.Machine
end

section
/-! `CBC_DEC` on legal operands, and the errors of the CBC commands (41_cbc R152, R156). -/

namespace Sys2Proof.Machine

section
variable {cfg : Config} {pad : Nat} {s : State}

theorem length_cbcDecResult (hmod : s.len.toNat % 16 = 0) : (cbcDecResult cfg s).length = s.len.toNat := by
  rw [cbcDecResult, length_cbcDecBytes _ _ _ (by rwa [length_srcBytes]), length_srcBytes]

/-- What `CBC_DEC` truncates is read from the last decrypted byte, at `LEN - 1` (R156). -/
theorem cbcDecPad_cbcDecResult (pad : Nat) (hmod : s.len.toNat % 16 = 0) :
    cbcDecPad pad (cbcDecResult cfg s) =
      if pad = 0 then 0 else ((cbcDecResult cfg s).getD (s.len.toNat - 1) 0).toNat := by
  rw [cbcDecPad, length_cbcDecResult hmod]

/-- `CBC_DEC` as an update of the state before it (R156). -/
theorem cbcDec_eq (h : CbcDecLegal cfg pad s) (hp : cbcDecPad pad (cbcDecResult cfg s) ≤ s.len.toNat) :
    cbcDec cfg pad s =
      { s with buf := s.buf.writeBytes s.dst.toNat (cbcDecResult cfg s),
               outLen := lengthWord (s.len.toNat - cbcDecPad pad (cbcDecResult cfg s)),
               errcode := .none, err := false, busy := false, done := true } := by
  rw [cbcDec_of_legal h hp, cbcDecEffect_eq]

end

/-- Settles O23, from the effect of `CBC_DEC` and the length of what it writes. -/
theorem cbcDecWritesThePlaintext : Obligations.CbcDecWritesThePlaintext := by
  unfold Obligations.CbcDecWritesThePlaintext
  intro pad s h x p hp
  have hmod : s.len.toNat % 16 = 0 := by
    obtain ⟨-, -, -, hmod, -⟩ := h
    exact hmod
  have hpad : cbcDecPad pad (cbcDecResult hw s) = p := cbcDecPad_cbcDecResult pad hmod
  have hlen : (cbcDecResult hw s).length = s.len.toNat := length_cbcDecResult hmod
  have heq := cbcDec_eq h (hpad ▸ hp)
  have hbuf : (cbcDec hw pad s).buf = s.buf.writeBytes s.dst.toNat (cbcDecResult hw s) := by rw [heq]
  have hepoch : (cbcDec hw pad s).bufEpoch = s.bufEpoch := by rw [heq]
  have hlt := s.len.isLt
  refine ⟨cbcDec hw pad s, exec_cbcDec pad s, ?frame, ?outLen, ?result, fun a ha => ?outside⟩
  case frame => rw [heq]
  case outLen => rw [heq, hpad, toNat_lengthWord (by omega)]
  case result =>
    rw [← hlen]
    exact memRead_of_writeBytes hbuf hepoch
  case outside => exact byteAt_of_writeBytes_outside hbuf hepoch (by rwa [hlen])

theorem notWholeBlocks_iff (n : Nat) : notWholeBlocks n = true ↔ n = 0 ∨ n % 16 ≠ 0 := by
  rw [notWholeBlocks, Bool.or_eq_true, decide_eq_true_eq, decide_eq_true_eq]

/-- The error that `CBC_ENC` ends with (R152). -/
theorem errcode_cbcEnc (cfg : Config) (pad : Nat) (s : State) :
    (cbcEnc cfg pad s).errcode =
      if 2 ≤ pad then .unsupportedPadding
      else if s.keysel = 3 then .badKeylen
      else if pad = 0 ∧ (s.len.toNat = 0 ∨ s.len.toNat % 16 ≠ 0) then .invalidLength
      else if ¬((srcRegion s).Fits cfg ∧ (dstRegion s (cbcEncOutLen pad s.len.toNat)).Fits cfg ∧
        (dstRegion s (cbcEncOutLen pad s.len.toNat)).OutputOk (srcRegion s)) then .bufRange
      else .none := by
  rw [cbcEnc, cbcEncChecks]
  simp only [errcode_runChecked_cons, errcode_runChecked_nil, checkPadding, checkKey_fails, checkKey_error,
    checkRegions_src_out, checkRegions_error, cbcEncEffect_eq, Bool.and_eq_true, decide_eq_true_eq, notWholeBlocks_iff]

/-- The error that `CBC_DEC` ends with (R156). The last check looks at the decrypted bytes, whose length is `LEN` once
the third has passed. -/
theorem errcode_cbcDec (cfg : Config) (pad : Nat) (s : State) :
    (cbcDec cfg pad s).errcode =
      if 2 ≤ pad then .unsupportedPadding
      else if s.keysel = 3 then .badKeylen
      else if s.len.toNat = 0 ∨ s.len.toNat % 16 ≠ 0 then .invalidLength
      else if ¬((srcRegion s).Fits cfg ∧ (dstRegion s s.len.toNat).Fits cfg ∧
        (dstRegion s s.len.toNat).OutputOk (srcRegion s)) then .bufRange
      else if pad ≠ 0 ∧ s.len.toNat < ((cbcDecResult cfg s).getD (s.len.toNat - 1) 0).toNat then .invalidLength
      else .none := by
  rw [cbcDec, cbcDecChecks]
  simp only [errcode_runChecked_cons, errcode_runChecked_nil, checkPadding, checkKey_fails, checkKey_error,
    checkRegions_src_out, checkRegions_error, cbcDecEffect_eq, decide_eq_true_eq, notWholeBlocks_iff]
  refine ite_congr rfl (fun _ => rfl) fun _ => ite_congr rfl (fun _ => rfl) fun _ =>
    ite_congr rfl (fun _ => rfl) fun hwhole => ite_congr rfl (fun _ => rfl) fun _ =>
    ite_congr (propext ?_) (fun _ => rfl) fun _ => rfl
  rw [cbcDecPad_cbcDecResult pad (by omega)]
  split
  · next hp => simp [hp]
  · next hp => simp [hp]

/-- Settles O24, from the error of each command. -/
theorem cbcReportsTheFirstFailingCheck : Obligations.CbcReportsTheFirstFailingCheck := by
  unfold Obligations.CbcReportsTheFirstFailingCheck
  refine fun pad s t => ⟨fun ht => ?enc, fun ht => ?dec⟩
  case enc =>
    obtain rfl : cbcEnc hw pad s = t := by simpa using ht
    exact errcode_cbcEnc hw pad s
  case dec =>
    obtain rfl : cbcDec hw pad s = t := by simpa using ht
    exact errcode_cbcDec hw pad s

end Sys2Proof.Machine
end

section
/-! `CTR_CRYPT` on legal operands (42_ctr R171). -/

namespace Sys2Proof.Machine

/-- Settles O27, from the effect of `CTR_CRYPT`. -/
theorem ctrCryptWritesTheStream : Obligations.CtrCryptWritesTheStream := by
  unfold Obligations.CtrCryptWritesTheStream
  intro s h
  refine ⟨ctrCrypt hw s, exec_ctrCrypt s, by rw [ctrCrypt_eq h], memRead_ctrCrypt h, fun a ha => ?_⟩
  rw [byteAt_ctrCrypt h, byteAt_memWrite_outside]
  rwa [length_ctrCryptResult]

end Sys2Proof.Machine
end

section
/-! `CMAC` (45_cmac R244 to R246): the blocks it chains, and what it leaves on legal operands; the errors of `CTR_CRYPT`
and of the CMAC commands. -/

namespace Sys2Proof.Machine

/-- With more than one block left, the first one is chained as it is (R244). -/
theorem cmacBlocks_cons (k1 k2 : Block) (c : List Byte) {cs : List (List Byte)} (h : cs ≠ []) :
    cmacBlocks k1 k2 (c :: cs) = ofBytes 16 c :: cmacBlocks k1 k2 cs := by
  obtain ⟨d, ds, rfl⟩ := List.exists_cons_of_ne_nil h
  rfl

theorem toBlocks_of_ne_nil {s : List Byte} (h : s ≠ []) :
    toBlocks s = ofBytes 16 (s.take 16) :: toBlocks (s.drop 16) := by
  rw [toBlocks, blocks_cons s h, List.map_cons, toBlocks]

/-- The blocks of a message: the full ones before its last chunk as they are, and the last chunk (R244). -/
theorem cmacBlocks_blocks (k1 k2 : Block) (m : List Byte) :
    cmacBlocks k1 k2 (blocks m) =
      toBlocks (m.take (16 * ((m.length - 1) / 16))) ++
        [cmacLastBlock k1 k2 (m.drop (16 * ((m.length - 1) / 16)))] := by
  induction m using chunk_induction with
  | nil => rfl
  | cons m hm ih =>
    have hpos : 0 < m.length := List.length_pos_iff.2 hm
    rw [blocks_cons m hm]
    by_cases hlong : m.length ≤ 16
    · have hlast : (m.length - 1) / 16 = 0 := by omega
      rw [hlast, List.drop_eq_nil_of_le hlong, List.take_of_length_le hlong]
      rfl
    · have hrest : blocks (m.drop 16) ≠ [] := by
        rw [← List.length_pos_iff, length_blocks, List.length_drop]
        omega
      have hcount : (m.length - 1) / 16 = ((m.drop 16).length - 1) / 16 + 1 := by
        rw [List.length_drop]
        omega
      have htake : m.take (16 * ((m.length - 1) / 16)) ≠ [] := by
        rw [← List.length_pos_iff, List.length_take]
        omega
      rw [cmacBlocks_cons k1 k2 _ hrest, ih, toBlocks_of_ne_nil htake, hcount]
      generalize ((m.drop 16).length - 1) / 16 = r
      rw [List.take_take, List.drop_take, List.drop_drop, Nat.min_eq_left (by omega),
        show 16 * (r + 1) - 16 = 16 * r by omega, show 16 + 16 * r = 16 * (r + 1) by omega, List.cons_append]

/-- On this hardware the tag is the whole final chaining value (R13, R246). -/
theorem ofBytes_cmacTag (enc : Block → Block) (m : List Byte) : ofBytes 16 (cmacTag hw enc m) = cmacChain enc m := by
  have hauth : hw.cmacAuthLen = 16 := rfl
  rw [cmacTag, hauth, List.take_of_length_le (by simp), ofBytes_toList]

/-- `CMAC` as an update of the state before it (R245). -/
theorem cmac_eq {s : State} (h : CmacLegal hw s) :
    cmac hw s =
      { s with k1 := (cmacSubkeyPair (hw.aesEnc (keyBytes s))).1, k2 := (cmacSubkeyPair (hw.aesEnc (keyBytes s))).2,
               tag := cmacChain (hw.aesEnc (keyBytes s)) (srcBytes s), outLen := 0,
               errcode := .none, err := false, busy := false, done := true } := by
  rw [cmac_of_legal h, cmacEffect_eq, ofBytes_cmacTag]

/-- Settles O46: the chained blocks are `cmacBlocks_blocks`, with the subkeys that `CMAC_SUBKEYS` leaves. -/
theorem cmacLeavesTheTag : Obligations.CmacLeavesTheTag := by
  unfold Obligations.CmacLeavesTheTag
  intro s h enc m r last
  refine ⟨cmac hw s, cmacSubkeys hw s, exec_cmac s, exec_cmacSubkeys s, ?_⟩
  rw [cmac_eq h, cmacSubkeys_eq h.1]
  refine ⟨rfl, ?_⟩
  dsimp only
  rw [cmacChain, cbcMac, cmacBlocks_blocks, replicate_eq_ofBytes]
  rfl

/-- Settles O47, check by check. -/
theorem ctrAndCmacReportTheFirstFailingCheck : Obligations.CtrAndCmacReportTheFirstFailingCheck := by
  unfold Obligations.CtrAndCmacReportTheFirstFailingCheck
  refine fun s t => ⟨fun ht => ?ctr, fun ht => ?subkeys, fun ht => ?cmac⟩
  case ctr =>
    obtain rfl : ctrCrypt hw s = t := by simpa using ht
    rw [ctrCrypt, ctrCryptChecks]
    simp only [errcode_runChecked_cons, errcode_runChecked_nil, checkKey_fails, checkKey_error, checkRegions_src_out,
      checkRegions_error, ctrCryptEffect_eq, decide_eq_true_eq]
    rfl
  case subkeys =>
    obtain rfl : cmacSubkeys hw s = t := by simpa using ht
    rw [cmacSubkeys]
    simp only [errcode_runChecked_cons, errcode_runChecked_nil, checkKey_fails, checkKey_error, cmacSubkeysEffect_eq,
      decide_eq_true_eq]
  case cmac =>
    obtain rfl : cmac hw s = t := by simpa using ht
    rw [cmac, cmacChecks]
    simp only [errcode_runChecked_cons, errcode_runChecked_nil, checkKey_fails, checkKey_error, checkRegions_src,
      checkRegions_error, cmacEffect_eq, decide_eq_true_eq]

end Sys2Proof.Machine
end

section
/-! The blocks and the algebra of CCM (43_ccm R180 to R194): the block formats, and what decryption makes of a
ciphertext and any tag. -/

namespace Sys2Proof.Machine

/-- A register filled from a string that fits is the string and then zeros. -/
theorem toList_ofBytes_of_length_le {n : Nat} {l : List Byte} (h : l.length ≤ n) :
    (ofBytes n l).toList = l ++ List.replicate (n - l.length) 0 := by
  rw [toList_ofBytes, List.take_append, List.take_of_length_le h, List.take_replicate, Nat.min_eq_left (by omega)]

/-! ### Block formats (R180, R182, R188) -/

/-- `B0` on this hardware (R180, R182). -/
theorem toList_ccmB0 (n : Vector Byte 13) (alen mlen : Nat) :
    (ccmB0 hw n alen mlen).toList = (if 0 < alen then 0x59 else 0x19) :: n.toList ++ be16 mlen := by
  have hflags : (ccmAuthFlags hw ||| if 0 < alen then ccmAadFlag else 0) = if 0 < alen then 0x59 else 0x19 := by
    split
    · rfl
    · rfl
  rw [ccmB0, hflags]
  exact toList_ofBytes_of_length (by simp [be16])

theorem toList_ccmCounter (n : Vector Byte 13) (i : Nat) : (ccmCounter n i).toList = 0x01 :: n.toList ++ be16 i :=
  toList_ofBytes_of_length (by simp [be16])

theorem beValue_be16 {i : Nat} (h : i ≤ 65535) : beValue (be16 i) = i := by
  simp [beValue, be16]
  omega

/-- Counter blocks follow each other by `inc16` (R188). -/
theorem inc16_ccmCounter (n : Vector Byte 13) {i : Nat} (h : i ≤ 65535) :
    inc16 (ccmCounter n i) = ccmCounter n ((i + 1) % 65536) := by
  have hlow : slice (ccmCounter n i).toList 14 16 = be16 i := by
    rw [toList_ccmCounter, slice, List.drop_left' (by simp)]
    exact List.take_of_length_le (by simp [be16])
  apply Vector.toList_inj.1
  rw [toList_inc16, hlow, beValue_be16 h, toList_ccmCounter, toList_ccmCounter, List.take_left' (by simp)]

/-- Settles O29, from the bytes of the two blocks. -/
theorem ccmBlockFormats : Obligations.CcmBlockFormats := by
  unfold Obligations.CcmBlockFormats
  exact fun n => ⟨fun alen mlen _ => toList_ccmB0 n alen mlen,
    fun i hi => ⟨toList_ccmCounter n i, inc16_ccmCounter n hi⟩⟩

/-! ### Decryption of a ciphertext under any tag (R193, R194) -/

/-- Two tags of the stream's length are equal once decrypted exactly when they are equal. -/
theorem eq_xorBytes_iff {m u st : List Byte} (hm : m.length = st.length) (hu : u.length = st.length) :
    m = xorBytes u st ↔ u = xorBytes m st := by
  constructor
  · rintro rfl
    exact (xorBytes_cancel u st hu.le).symm
  · rintro rfl
    exact (xorBytes_cancel m st hm.le).symm

/-- `ccm_decrypt` of the ciphertext of `p` gives `p` back, and accepts exactly the tag of `p`. -/
theorem ccmDecrypt_ccmEncrypt_append (cfg : Config) (enc : Block → Block) (n : Vector Byte 13) (a p : List Byte)
    {u : List Byte} (hu : u.length = cfg.ccmAuthLen) (hauth : cfg.ccmAuthLen ≤ 16) :
    ccmDecrypt cfg enc n a ((ccmEncrypt cfg enc n a p).1 ++ u) =
      (p, decide (u = (ccmEncrypt cfg enc n a p).2)) := by
  have hc : ((ccmEncrypt cfg enc n a p).1 ++ u).length - cfg.ccmAuthLen = (ccmEncrypt cfg enc n a p).1.length := by
    rw [List.length_append]
    omega
  have hp : ctrStream enc (ccmCounter n 1) (ccmEncrypt cfg enc n a p).1 = p := ctrStream_ctrStream _ _ p
  have htag : ccmMacTag cfg enc n a p = xorBytes u (ccmTagStream cfg enc n) ↔ u = (ccmEncrypt cfg enc n a p).2 :=
    eq_xorBytes_iff (by simp) (by simp; omega)
  simp only [ccmDecrypt, hc, List.take_left, List.drop_left, hp, htag]

end Sys2Proof.Machine
end

section
/-! The CCM commands on legal operands (43_ccm R190 to R197): what each leaves, and `CCM_DEC` after `CCM_ENC`. -/

namespace Sys2Proof.Machine

/-! ### `CCM_MAC` (R190) -/

section
variable {cfg : Config} {s : State}

/-- The tag that `CCM_MAC` computes in state `s` (R190). -/
def ccmMacResult (cfg : Config) (s : State) : List Byte :=
  ccmMacTag cfg (cfg.aesEnc (keyBytes s)) s.nonce (aadBytes s) (srcBytes s)

theorem length_ccmMacResult (cfg : Config) (s : State) : (ccmMacResult cfg s).length = min cfg.ccmAuthLen 16 :=
  length_ccmMacTag _ _ _ _ _

theorem ccmMac_eq (h : CcmMacLegal cfg s) :
    ccmMac cfg s =
      { s with tag := ofBytes 16 (ccmMacResult cfg s), outLen := 0, errcode := .none, err := false, busy := false,
               done := true } := by
  rw [ccmMac_of_legal h, ccmMacEffect_eq, ccmMacResult]

/-! ### `CCM_ENC` (R192) -/

/-- The ciphertext and the encrypted tag that `CCM_ENC` computes in state `s` (R192). -/
def ccmEncResult (cfg : Config) (s : State) : List Byte × List Byte :=
  ccmEncrypt cfg (cfg.aesEnc (keyBytes s)) s.nonce (aadBytes s) (srcBytes s)

theorem length_ccmEncResult_fst (cfg : Config) (s : State) : (ccmEncResult cfg s).1.length = s.len.toNat := by
  rw [ccmEncResult, length_ccmEncrypt_fst, length_srcBytes]

theorem length_ccmEncResult_snd (cfg : Config) (s : State) :
    (ccmEncResult cfg s).2.length = min cfg.ccmAuthLen 16 :=
  length_ccmEncrypt_snd _ _ _ _ _

theorem ccmEnc_eq (h : CcmEncLegal cfg s) :
    ccmEnc cfg s =
      { s with buf := s.buf.writeBytes s.dst.toNat ((ccmEncResult cfg s).1 ++ (ccmEncResult cfg s).2),
               tag := ofBytes 16 (ccmEncResult cfg s).2, outLen := lengthWord (s.len.toNat + cfg.ccmAuthLen),
               errcode := .none, err := false, busy := false, done := true } := by
  rw [ccmEnc_of_legal h, ccmEncEffect_eq]
  rfl

/-! ### `CCM_DEC` (R195, R196) -/

/-- The decrypted bytes and the verdict on the tag that `CCM_DEC` computes in state `s` (R195). -/
def ccmDecResult (cfg : Config) (s : State) : List Byte × Bool :=
  ccmDecrypt cfg (cfg.aesEnc (keyBytes s)) s.nonce (aadBytes s) (srcBytes s)

theorem length_ccmDecResult_fst (cfg : Config) (s : State) :
    (ccmDecResult cfg s).1.length = s.len.toNat - cfg.ccmAuthLen := by
  rw [ccmDecResult, length_ccmDecrypt_fst, length_srcBytes]

theorem ccmDec_eq (h : CcmDecLegal cfg s) :
    ccmDec cfg s =
      { s with buf := s.buf.writeBytes s.dst.toNat (ccmDecResult cfg s).1, tag := ofBytes 16 [],
               outLen := if (ccmDecResult cfg s).2 then lengthWord (s.len.toNat - cfg.ccmAuthLen) else 0,
               errcode := if (ccmDecResult cfg s).2 then .none else .authFailed, err := !(ccmDecResult cfg s).2,
               busy := false, done := true } := by
  rw [ccmDec_of_legal h, ccmDecEffect_eq]
  rfl

end

/-! ### The statements on one command -/

theorem ccmAuthLen_hw : hw.ccmAuthLen = 8 := rfl

/-- A tag of this hardware in `TAG` (R190, R192). -/
theorem toList_ofBytes_tag {u : List Byte} (hu : u.length = min hw.ccmAuthLen 16) :
    (ofBytes 16 u).toList = u ++ List.replicate 8 0 := by
  have h8 : u.length = 8 := hu
  rw [toList_ofBytes_of_length_le (by omega), h8]

theorem take_toList_ofBytes_tag {u : List Byte} (hu : u.length = min hw.ccmAuthLen 16) :
    (ofBytes 16 u).toList.take 8 = u := by
  have h8 : u.length = 8 := hu
  rw [← h8]
  exact take_toList_ofBytes (by omega)

/-- Settles O31, from the effect of `CCM_MAC`. -/
theorem ccmMacLeavesTheTag : Obligations.CcmMacLeavesTheTag := by
  unfold Obligations.CcmMacLeavesTheTag
  intro s h
  refine ⟨ccmMac hw s, exec_ccmMac s, by rw [ccmMac_eq h], ?_⟩
  have htag : (ccmMac hw s).tag = ofBytes 16 (ccmMacResult hw s) := by rw [ccmMac_eq h]
  rw [htag, toList_ofBytes_tag (length_ccmMacResult hw s), ccmMacResult, ccmMacTag, cbcMac, length_aadBytes,
    length_srcBytes, ccmAuthLen_hw]

/-! ### What `CCM_ENC` leaves in `BUF` and `OUTLEN` -/

section
variable {s : State}

theorem length_ccmEncResult (s : State) :
    ((ccmEncResult hw s).1 ++ (ccmEncResult hw s).2).length = s.len.toNat + 8 := by
  rw [List.length_append, length_ccmEncResult_fst, length_ccmEncResult_snd]
  rfl

theorem buf_ccmEnc (h : CcmEncLegal hw s) :
    (ccmEnc hw s).buf = s.buf.writeBytes s.dst.toNat ((ccmEncResult hw s).1 ++ (ccmEncResult hw s).2) := by
  rw [ccmEnc_eq h]

theorem bufEpoch_ccmEnc (h : CcmEncLegal hw s) : (ccmEnc hw s).bufEpoch = s.bufEpoch := by rw [ccmEnc_eq h]

/-- The ciphertext and the tag stand at `DST`. -/
theorem memRead_ccmEnc (h : CcmEncLegal hw s) :
    memRead (ccmEnc hw s) s.dst.toNat (s.len.toNat + 8) = (ccmEncResult hw s).1 ++ (ccmEncResult hw s).2 := by
  rw [← length_ccmEncResult s]
  exact memRead_of_writeBytes (buf_ccmEnc h) (bufEpoch_ccmEnc h)

/-- Outside its output region `CCM_ENC` leaves `BUF`. -/
theorem byteAt_ccmEnc_outside (h : CcmEncLegal hw s) {a : Nat}
    (ha : a < s.dst.toNat ∨ s.dst.toNat + (s.len.toNat + 8) ≤ a) : (ccmEnc hw s).byteAt a = s.byteAt a :=
  byteAt_of_writeBytes_outside (buf_ccmEnc h) (bufEpoch_ccmEnc h) (by rwa [length_ccmEncResult])

theorem toNat_outLen_ccmEnc (h : CcmEncLegal hw s) : (ccmEnc hw s).outLen.toNat = s.len.toNat + 8 := by
  rw [ccmEnc_eq h]
  obtain ⟨⟨-, -, hmax, -⟩, -⟩ := h
  exact toNat_lengthWord (by rw [ccmAuthLen_hw]; omega)

end

/-- Settles O32, from the effect of `CCM_ENC`. -/
theorem ccmEncWritesCiphertextAndTag : Obligations.CcmEncWritesCiphertextAndTag := by
  unfold Obligations.CcmEncWritesCiphertextAndTag
  intro s h enc u
  have hu : (ccmEncResult hw s).2 = u := rfl
  have hc : (ccmEncResult hw s).1 = ctrStream enc (ccmCounter s.nonce 1) (srcBytes s) := rfl
  refine ⟨ccmEnc hw s, exec_ccmEnc s, by rw [ccmEnc_eq h], toNat_outLen_ccmEnc h, ?tag, ?result,
    fun a ha => byteAt_ccmEnc_outside h ha⟩
  case tag => rw [ccmEnc_eq h, toList_ofBytes_tag (length_ccmEncResult_snd hw s), hu]
  case result => rw [memRead_ccmEnc h, hu, hc]

/-- The decrypted bytes stand at `DST`. -/
theorem memRead_ccmDec {s : State} (h : CcmDecLegal hw s) :
    memRead (ccmDec hw s) s.dst.toNat (ccmDecResult hw s).1.length = (ccmDecResult hw s).1 :=
  memRead_of_writeBytes (by rw [ccmDec_eq h]) (by rw [ccmDec_eq h])

/-- Settles O33, from the effect of `CCM_DEC`, by the verdict on the tag. -/
theorem ccmDecWritesPlaintextAndJudgesTheTag : Obligations.CcmDecWritesPlaintextAndJudgesTheTag := by
  unfold Obligations.CcmDecWritesPlaintextAndJudgesTheTag
  intro s h enc n p ok
  have hlen := length_ccmDecResult_fst hw s
  have hp : (ccmDecResult hw s).1 = p := by
    rw [ccmDecResult, ccmDecrypt, length_srcBytes]
    rfl
  have hok : (ccmDecResult hw s).2 = true ↔ ok := by
    rw [ccmDecResult, ccmDecrypt, length_srcBytes, decide_eq_true_iff]
    exact Iff.rfl
  have heq := ccmDec_eq h
  have hbuf : (ccmDec hw s).buf = s.buf.writeBytes s.dst.toNat (ccmDecResult hw s).1 := by rw [heq]
  have hepoch : (ccmDec hw s).bufEpoch = s.bufEpoch := by rw [heq]
  have hlt := s.len.isLt
  refine ⟨ccmDec hw s, exec_ccmDec s, by rw [heq], ?tag, ?result, fun hyes => ?accepted, fun hno => ?rejected,
    fun a ha => ?outside⟩
  case tag => rw [heq, replicate_eq_ofBytes]
  case result =>
    have hread := memRead_ccmDec h
    rwa [hlen, hp] at hread
  case accepted =>
    rw [heq, hok.2 hyes, ccmAuthLen_hw]
    exact ⟨rfl, rfl, toNat_lengthWord (by omega)⟩
  case rejected =>
    rw [heq, Bool.eq_false_iff.2 fun hyes => hno (hok.1 hyes)]
    exact ⟨rfl, rfl, rfl⟩
  case outside => exact byteAt_of_writeBytes_outside hbuf hepoch (by rwa [hlen])

/-- Settles O37: both commands compute the same tag, and `CCM_ENC` encrypts it. -/
theorem ccmEncTagIsTheMacEncrypted : Obligations.CcmEncTagIsTheMacEncrypted := by
  unfold Obligations.CcmEncTagIsTheMacEncrypted
  intro s h
  refine ⟨ccmMac hw s, ccmEnc hw s, exec_ccmMac s, exec_ccmEnc s, ?_⟩
  rw [ccmMac_eq h.1, ccmEnc_eq h]
  dsimp only
  rw [take_toList_ofBytes_tag (length_ccmMacResult hw s), take_toList_ofBytes_tag (length_ccmEncResult_snd hw s)]
  rfl

/-! ### The errors (R181, R196) -/

theorem errcode_ccmMac (cfg : Config) (s : State) :
    (ccmMac cfg s).errcode =
      if s.keysel = 3 then .badKeylen
      else if cfg.ccmAadMaxLen < s.aadLen.toNat then .invalidLength
      else if ccmMsgMaxLen < s.len.toNat then .tooLong
      else if ¬((srcRegion s).Fits cfg ∧ (aadRegion s).Fits cfg) then .bufRange
      else .none := by
  rw [ccmMac, ccmMacChecks, ccmChecks]
  simp only [errcode_runChecked_cons, errcode_runChecked_nil, checkKey_fails, checkKey_error, checkRegions_src_aad,
    checkRegions_error, ccmMacEffect_eq, Bool.or_false, decide_eq_true_eq]

theorem errcode_ccmEnc (cfg : Config) (s : State) :
    (ccmEnc cfg s).errcode =
      if s.keysel = 3 then .badKeylen
      else if cfg.ccmAadMaxLen < s.aadLen.toNat then .invalidLength
      else if ccmMsgMaxLen < s.len.toNat then .tooLong
      else if ¬((srcRegion s).Fits cfg ∧ (aadRegion s).Fits cfg ∧ CcmOutputOk cfg (ccmEncRegion cfg s) s) then .bufRange
      else .none := by
  rw [ccmEnc, ccmEncChecks, ccmChecks]
  simp only [errcode_runChecked_cons, errcode_runChecked_nil, checkKey_fails, checkKey_error, checkRegions_src_aad_out,
    checkRegions_error, ccmEncEffect_eq, Bool.or_false, decide_eq_true_eq]

theorem errcode_ccmDec (cfg : Config) (s : State) :
    (ccmDec cfg s).errcode =
      if s.keysel = 3 then .badKeylen
      else if cfg.ccmAadMaxLen < s.aadLen.toNat ∨ s.len.toNat < cfg.ccmAuthLen then .invalidLength
      else if ccmMsgMaxLen < s.len.toNat - cfg.ccmAuthLen then .tooLong
      else if ¬((srcRegion s).Fits cfg ∧ (aadRegion s).Fits cfg ∧ CcmOutputOk cfg (ccmDecRegion cfg s) s) then .bufRange
      else if (ccmDecResult cfg s).2 then .none
      else .authFailed := by
  rw [ccmDec, ccmDecChecks, ccmChecks]
  simp only [errcode_runChecked_cons, errcode_runChecked_nil, checkKey_fails, checkKey_error, checkRegions_src_aad_out,
    checkRegions_error, ccmDecEffect_eq, Bool.or_eq_true, decide_eq_true_eq]
  rfl

/-- From a value by cases to a statement by the same cases. -/
theorem ite_of_eq_ite {α : Type} {x a y : α} {c P : Prop} [Decidable c] (hx : x = if c then a else y)
    (hP : ¬c → x = y → P) : if c then x = a else P := by
  by_cases hc : c
  · rw [if_pos hc] at hx ⊢
    exact hx
  · rw [if_neg hc] at hx ⊢
    exact hP hc hx

/-- Settles O34, from the error of each command. -/
theorem ccmReportsTheFirstFailingCheck : Obligations.CcmReportsTheFirstFailingCheck := by
  unfold Obligations.CcmReportsTheFirstFailingCheck
  refine fun s t => ⟨fun ht => ?mac, fun ht => ?enc, fun ht => ?dec⟩
  case mac =>
    obtain rfl : ccmMac hw s = t := by simpa using ht
    exact errcode_ccmMac hw s
  case enc =>
    obtain rfl : ccmEnc hw s = t := by simpa using ht
    exact errcode_ccmEnc hw s
  case dec =>
    obtain rfl : ccmDec hw s = t := by simpa using ht
    have herr : (ccmDec hw s).errcode =
        if s.keysel = 3 then .badKeylen
        else if 65279 < s.aadLen.toNat ∨ s.len.toNat < 8 then .invalidLength
        else if 65535 < s.len.toNat - 8 then .tooLong
        else if ¬((srcRegion s).Fits hw ∧ (aadRegion s).Fits hw ∧ CcmOutputOk hw (dstRegion s (s.len.toNat - 8)) s)
          then .bufRange
        else if (ccmDecResult hw s).2 then .none
        else .authFailed := errcode_ccmDec hw s
    refine ite_of_eq_ite herr fun _ h => ite_of_eq_ite h fun _ h => ite_of_eq_ite h fun _ h =>
      ite_of_eq_ite h fun _ h => ?_
    rw [h]
    split
    · exact .inl rfl
    · exact .inr rfl

/-! ### `CCM_DEC` after `CCM_ENC` (R197) -/

/-- In a state with the key, the nonce and the AAD of `s`, and the ciphertext of `s` and a tag `u` at `SRC`, `CCM_DEC`
computes the input of `s`, and accepts exactly the tag of `s`. -/
theorem ccmDecResult_of_ccmEncResult {s s2 : State} {u : List Byte} (hu : u.length = 8)
    (hkey : keyBytes s2 = keyBytes s) (hnonce : s2.nonce = s.nonce) (haad : aadBytes s2 = aadBytes s)
    (hsrc : srcBytes s2 = (ccmEncResult hw s).1 ++ u) :
    ccmDecResult hw s2 = (srcBytes s, decide (u = (ccmEncResult hw s).2)) := by
  rw [ccmDecResult, hkey, hnonce, haad, hsrc]
  exact ccmDecrypt_ccmEncrypt_append _ _ _ _ _ hu (by decide)

/-- `s2` is `s` after `CCM_ENC`, perhaps with another tag `u` in its place, with the operands of `CCM_DEC` set to take
the ciphertext and this tag. -/
structure CcmReceived (s : State) (u : List Byte) (s2 : State) : Prop where
  keysel : s2.keysel = s.keysel
  keyBytes : keyBytes s2 = keyBytes s
  nonce : s2.nonce = s.nonce
  aadPtr : s2.aadPtr = s.aadPtr
  aadLen : s2.aadLen = s.aadLen
  src : s2.src = s.dst
  len : s2.len.toNat = s.len.toNat + 8
  input : memRead s2 s.dst.toNat (s.len.toNat + 8) = (ccmEncResult hw s).1 ++ u
  outside : ∀ a, a < s.dst.toNat ∨ s.dst.toNat + (s.len.toNat + 8) ≤ a → s2.byteAt a = s.byteAt a

section
variable {s s2 : State} {u : List Byte}

/-- The AAD is apart from the output of `CCM_ENC`, so it is still there. -/
theorem CcmReceived.aadBytes (hr : CcmReceived s u s2) (h : CcmEncLegal hw s) : aadBytes s2 = aadBytes s := by
  obtain ⟨-, -, hapart, -⟩ := h
  simp only [Region.Apart, aadRegion, ccmAuthLen_hw] at hapart
  rw [Machine.aadBytes, Machine.aadBytes, hr.aadPtr, hr.aadLen]
  exact memRead_congr fun i hi => hr.outside _ (by omega)

theorem CcmReceived.ccmDecResult (hr : CcmReceived s u s2) (h : CcmEncLegal hw s) (hu : u.length = 8) :
    ccmDecResult hw s2 = (srcBytes s, decide (u = (ccmEncResult hw s).2)) := by
  refine ccmDecResult_of_ccmEncResult hu hr.keyBytes hr.nonce (hr.aadBytes h) ?_
  rw [srcBytes, hr.src, hr.len, hr.input]

/-- Its input region is the output region of `CCM_ENC`, which is legal; its output region is legal by hypothesis. -/
theorem CcmReceived.legal (hr : CcmReceived s u s2) (h : CcmEncLegal hw s)
    (hok : CcmOutputOk hw (dstRegion s2 s.len.toNat) s2) : CcmDecLegal hw s2 := by
  have hmsg : s2.len.toNat - hw.ccmAuthLen = s.len.toNat := by
    rw [hr.len, ccmAuthLen_hw]
    omega
  have hsrc : srcRegion s2 = dstRegion s (s.len.toNat + 8) := by rw [srcRegion, hr.src, hr.len]
  have haad : aadRegion s2 = aadRegion s := by rw [aadRegion, aadRegion, hr.aadPtr, hr.aadLen]
  obtain ⟨⟨hkey, haadLen, hmax, -, hafits⟩, hdst, -⟩ := h
  rw [CcmDecLegal, hmsg]
  exact ⟨by rw [hr.len, ccmAuthLen_hw]; omega,
    ⟨hr.keysel ▸ hkey, hr.aadLen ▸ haadLen, hmax, hsrc ▸ hdst, haad ▸ hafits⟩, hok⟩

end

section
variable {s : State}

/-- The second command's operands after `CCM_ENC`, as the host sets them. -/
theorem ccmReceived_ccmEnc (h : CcmEncLegal hw s) (d : Word) :
    CcmReceived s (ccmEncResult hw s).2 { ccmEnc hw s with src := s.dst, dst := d, len := (ccmEnc hw s).outLen } where
  keysel := by rw [ccmEnc_eq h]
  keyBytes := by rw [ccmEnc_eq h]; rfl
  nonce := by rw [ccmEnc_eq h]
  aadPtr := by rw [ccmEnc_eq h]
  aadLen := by rw [ccmEnc_eq h]
  src := rfl
  len := toNat_outLen_ccmEnc h
  input := (memRead_of_buf rfl rfl _ _).trans (memRead_ccmEnc h)
  outside := fun a ha => (byteAt_congr rfl rfl a).trans (byteAt_ccmEnc_outside h ha)

/-- The same with another tag written in the place of the tag. -/
theorem ccmReceived_changedTag (h : CcmEncLegal hw s) (d : Word) {u : List Byte} (hu : u.length = 8) :
    CcmReceived s u { memWrite (ccmEnc hw s) (s.dst.toNat + s.len.toNat) u with
      src := s.dst, dst := d, len := (ccmEnc hw s).outLen } where
  keysel := by rw [ccmEnc_eq h]; rfl
  keyBytes := by rw [ccmEnc_eq h]; rfl
  nonce := by rw [ccmEnc_eq h]; rfl
  aadPtr := by rw [ccmEnc_eq h]; rfl
  aadLen := by rw [ccmEnc_eq h]; rfl
  src := rfl
  len := toNat_outLen_ccmEnc h
  input := by
    have hall := memRead_ccmEnc h
    rw [memRead_append] at hall
    have hc := List.append_inj_left hall (by rw [length_memRead, length_ccmEncResult_fst])
    have htag := memRead_memWrite_same (ccmEnc hw s) (s.dst.toNat + s.len.toNat) u
    rw [hu] at htag
    refine (memRead_of_buf (s := memWrite (ccmEnc hw s) (s.dst.toNat + s.len.toNat) u) rfl rfl _ _).trans ?_
    rw [memRead_append, htag, memRead_memWrite_disjoint _ _ _ (by omega), hc]
  outside := fun a ha =>
    (byteAt_congr (s := memWrite (ccmEnc hw s) (s.dst.toNat + s.len.toNat) u) rfl rfl a).trans
      ((byteAt_memWrite_outside _ _ _ (by omega)).trans (byteAt_ccmEnc_outside h ha))

end

/-- Settles O35: the tag is the one that `CCM_DEC` computes. -/
theorem ccmDecUndoesCcmEnc : Obligations.CcmDecUndoesCcmEnc := by
  unfold Obligations.CcmDecUndoesCcmEnc
  intro s d h
  refine ⟨ccmEnc hw s, exec_ccmEnc s, fun hok => ?_⟩
  have hr := ccmReceived_ccmEnc h d
  have heq := ccmDec_eq (hr.legal h hok)
  have hu : (ccmEncResult hw s).2.length = 8 := length_ccmEncResult_snd hw s
  rw [hr.ccmDecResult h hu, decide_eq_true rfl] at heq
  refine ⟨_, exec_ccmDec _, by rw [heq]; rfl, ?outLen, ?result⟩
  case outLen =>
    have hlen : (ccmEnc hw s).outLen.toNat = s.len.toNat + 8 := hr.len
    rw [heq]
    dsimp only
    rw [if_pos rfl, hlen, ccmAuthLen_hw, Nat.add_sub_cancel, lengthWord_toNat]
  case result =>
    have hread := memRead_ccmDec (hr.legal h hok)
    rwa [hr.ccmDecResult h hu, length_srcBytes] at hread

/-- Settles O36: another tag is not the one that `CCM_DEC` computes. -/
theorem ccmDecRejectsAChangedTag : Obligations.CcmDecRejectsAChangedTag := by
  unfold Obligations.CcmDecRejectsAChangedTag
  intro s d u' h hu
  refine ⟨ccmEnc hw s, exec_ccmEnc s, fun hne hok => ?_⟩
  have hr := ccmReceived_changedTag h d hu
  have heq := ccmDec_eq (hr.legal h hok)
  have hchanged : u' ≠ (ccmEncResult hw s).2 := by
    rwa [ccmEnc_eq h, take_toList_ofBytes_tag (length_ccmEncResult_snd hw s)] at hne
  rw [hr.ccmDecResult h hu, decide_eq_false hchanged] at heq
  refine ⟨_, exec_ccmDec _, ?_⟩
  rw [heq]
  exact ⟨rfl, rfl⟩

end Sys2Proof.Machine
end

section
/-! The CCMP commands on legal operands (44_ccmp R215 to R230): the derived lengths, what each command leaves, and the
errors. -/

namespace Sys2Proof.Machine

/-! ### The derived lengths (R215, R217) -/

section
variable (cfg : Config) (legacy : Bool) (nfb : Byte) (s : State)

/-- The header that the derivation sees is the one whose length the checks use. -/
theorem mpduDerived_headerLen : (mpduDerived cfg legacy nfb s).headerLen = mpduHeaderLen s := by
  rw [mpduDerived, ccmpDerivation, frameControl_mpduHeader, mpduHeaderLen]

/-- `DAAD` begins with the derived AAD, of the length in `DAAD_LEN`. -/
theorem take_daad_mpduDerived :
    (ofBytes 30 (mpduDerived cfg legacy nfb s).aad).toList.take
      (lengthWord (mpduDerived cfg legacy nfb s).aadLen).toNat = (mpduDerived cfg legacy nfb s).aad := by
  obtain ⟨-, hhi⟩ := mpduDerived_aadLen_bounds cfg legacy nfb s
  rw [toNat_lengthWord (by omega), ← length_mpduDerived_aad]
  exact take_toList_ofBytes (by rwa [length_mpduDerived_aad])

end

/-- Settles O39: the pair is read off Frame Control, and 22 to 30 bytes after a length field make two blocks. -/
theorem ccmpLengthsAreOneOfFour : Obligations.CcmpLengthsAreOneOfFour := by
  unfold Obligations.CcmpLengthsAreOneOfFour
  intro cfg legacy nfb s d
  have hlen : d.aad.length = d.aadLen := length_mpduDerived_aad cfg legacy nfb s
  obtain ⟨hlo, hhi⟩ : 22 ≤ d.aadLen ∧ d.aadLen ≤ 30 := mpduDerived_aadLen_bounds cfg legacy nfb s
  refine ⟨headerLen_aadLength_mem _, hlen, fun hcfg => ⟨by omega, ?max, ?blocks⟩⟩
  case max =>
    obtain ⟨-, ⟨hmax, -⟩, -⟩ := hcfg
    omega
  case blocks =>
    have hne : d.aad ≠ [] := List.ne_nil_of_length_pos (by omega)
    rw [length_aadBlocks_of_ne_nil hne]
    omega

/-! ### What each command leaves (R220, R224, R228) -/

section
variable {cfg : Config} {s : State} (legacy : Bool) (nfb : Byte)

theorem ccmpDerive_eq (h : CcmpDeriveLegal cfg s) :
    ccmpDerive cfg legacy nfb s =
      { s with dnonce := (mpduDerived cfg legacy nfb s).nonce, daad := ofBytes 30 (mpduDerived cfg legacy nfb s).aad,
               dHdrLen := lengthWord (mpduDerived cfg legacy nfb s).headerLen,
               dAadLen := lengthWord (mpduDerived cfg legacy nfb s).aadLen,
               errcode := .none, err := false, busy := false, done := true } := by
  rw [ccmpDerive_of_legal legacy nfb h, ccmpDeriveEffect_eq]

theorem ccmpEnc_eq (h : CcmpEncLegal cfg s) :
    ccmpEnc cfg legacy nfb s =
      { s with dnonce := (mpduDerived cfg legacy nfb s).nonce, daad := ofBytes 30 (mpduDerived cfg legacy nfb s).aad,
               dHdrLen := lengthWord (mpduDerived cfg legacy nfb s).headerLen,
               dAadLen := lengthWord (mpduDerived cfg legacy nfb s).aadLen,
               buf := s.buf.writeBytes (bodyAddr s)
                 ((ccmpEncResult cfg legacy nfb s).1 ++ (ccmpEncResult cfg legacy nfb s).2),
               tag := ofBytes 16 (ccmpEncResult cfg legacy nfb s).2,
               outLen := lengthWord (s.len.toNat + cfg.ccmAuthLen),
               errcode := .none, err := false, busy := false, done := true } := by
  rw [ccmpEnc_of_legal legacy nfb h, ccmpEncEffect_eq]

theorem ccmpDec_eq (h : CcmpDecLegal cfg s) :
    ccmpDec cfg legacy nfb s =
      { s with dnonce := (mpduDerived cfg legacy nfb s).nonce, daad := ofBytes 30 (mpduDerived cfg legacy nfb s).aad,
               dHdrLen := lengthWord (mpduDerived cfg legacy nfb s).headerLen,
               dAadLen := lengthWord (mpduDerived cfg legacy nfb s).aadLen,
               buf := s.buf.writeBytes (bodyAddr s) (ccmpDecResult cfg legacy nfb s).1, tag := ofBytes 16 [],
               outLen := if (ccmpDecResult cfg legacy nfb s).2 then lengthWord (s.len.toNat - cfg.ccmAuthLen) else 0,
               errcode := if (ccmpDecResult cfg legacy nfb s).2 then .none else .micFailure,
               err := !(ccmpDecResult cfg legacy nfb s).2, busy := false, done := true } := by
  rw [ccmpDec_of_legal legacy nfb h, ccmpDecEffect_eq]

theorem ccmpDeriveLegal_of_ccmpEncLegal (h : CcmpEncLegal cfg s) : CcmpDeriveLegal cfg s := by
  obtain ⟨-, hmpdu, -⟩ := h
  exact hmpdu

theorem ccmpDeriveLegal_of_ccmpDecLegal (h : CcmpDecLegal cfg s) : CcmpDeriveLegal cfg s := by
  obtain ⟨-, ⟨hlen, hsrc, hhdr⟩, -⟩ := h
  exact ⟨by omega, hsrc, by omega⟩

end

/-! ### `CCMP_ENC` in `BUF` (R224) -/

section
variable {s : State} (legacy : Bool) (nfb : Byte)

theorem length_ccmpEncResult (s : State) :
    ((ccmpEncResult hw legacy nfb s).1 ++ (ccmpEncResult hw legacy nfb s).2).length = payloadLen 0 s + 8 := by
  rw [List.length_append, length_ccmpEncResult_fst, length_ccmpEncResult_snd]
  rfl

theorem buf_ccmpEnc (h : CcmpEncLegal hw s) :
    (ccmpEnc hw legacy nfb s).buf =
      s.buf.writeBytes (bodyAddr s) ((ccmpEncResult hw legacy nfb s).1 ++ (ccmpEncResult hw legacy nfb s).2) := by
  rw [ccmpEnc_eq legacy nfb h]

theorem bufEpoch_ccmpEnc (h : CcmpEncLegal hw s) : (ccmpEnc hw legacy nfb s).bufEpoch = s.bufEpoch := by
  rw [ccmpEnc_eq legacy nfb h]

/-- The ciphertext and the tag stand at the body's address. -/
theorem memRead_ccmpEnc (h : CcmpEncLegal hw s) :
    memRead (ccmpEnc hw legacy nfb s) (bodyAddr s) (payloadLen 0 s + 8) =
      (ccmpEncResult hw legacy nfb s).1 ++ (ccmpEncResult hw legacy nfb s).2 := by
  rw [← length_ccmpEncResult legacy nfb s]
  exact memRead_of_writeBytes (buf_ccmpEnc legacy nfb h) (bufEpoch_ccmpEnc legacy nfb h)

/-- Outside the body and the tag `CCMP_ENC` leaves `BUF`. -/
theorem byteAt_ccmpEnc_outside (h : CcmpEncLegal hw s) {a : Nat}
    (ha : a < bodyAddr s ∨ bodyAddr s + (payloadLen 0 s + 8) ≤ a) :
    (ccmpEnc hw legacy nfb s).byteAt a = s.byteAt a :=
  byteAt_of_writeBytes_outside (buf_ccmpEnc legacy nfb h) (bufEpoch_ccmpEnc legacy nfb h)
    (by rwa [length_ccmpEncResult])

theorem toNat_outLen_ccmpEnc (h : CcmpEncLegal hw s) : (ccmpEnc hw legacy nfb s).outLen.toNat = s.len.toNat + 8 := by
  rw [ccmpEnc_eq legacy nfb h]
  have hhdr : mpduHeaderLen s ≤ 40 := (headerLen_bounds _).2
  obtain ⟨-, -, -, hlen⟩ := h
  exact toNat_lengthWord (by rw [ccmAuthLen_hw]; omega)

/-! ### `CCMP_DEC` in `BUF` (R228) -/

theorem buf_ccmpDec (h : CcmpDecLegal hw s) :
    (ccmpDec hw legacy nfb s).buf = s.buf.writeBytes (bodyAddr s) (ccmpDecResult hw legacy nfb s).1 := by
  rw [ccmpDec_eq legacy nfb h]

theorem bufEpoch_ccmpDec (h : CcmpDecLegal hw s) : (ccmpDec hw legacy nfb s).bufEpoch = s.bufEpoch := by
  rw [ccmpDec_eq legacy nfb h]

/-- The decrypted bytes stand at the body's address. -/
theorem memRead_ccmpDec (h : CcmpDecLegal hw s) :
    memRead (ccmpDec hw legacy nfb s) (bodyAddr s) (ccmpDecResult hw legacy nfb s).1.length =
      (ccmpDecResult hw legacy nfb s).1 :=
  memRead_of_writeBytes (buf_ccmpDec legacy nfb h) (bufEpoch_ccmpDec legacy nfb h)

/-- Outside the decrypted bytes `CCMP_DEC` leaves `BUF`. -/
theorem byteAt_ccmpDec_outside (h : CcmpDecLegal hw s) {a : Nat}
    (ha : a < bodyAddr s ∨ bodyAddr s + (ccmpDecResult hw legacy nfb s).1.length ≤ a) :
    (ccmpDec hw legacy nfb s).byteAt a = s.byteAt a :=
  byteAt_of_writeBytes_outside (buf_ccmpDec legacy nfb h) (bufEpoch_ccmpDec legacy nfb h) ha

end

/-- Settles O40, from the effect of `CCMP_ENC`; the registers of `CCMP_DERIVE` hold what it derives. -/
theorem ccmpEncProtectsTheBody : Obligations.CcmpEncProtectsTheBody := by
  unfold Obligations.CcmpEncProtectsTheBody
  intro legacy nfb s h body plen
  have heq := ccmpEnc_eq legacy nfb h
  have hderive := ccmpDerive_eq legacy nfb (ccmpDeriveLegal_of_ccmpEncLegal h)
  refine ⟨ccmpEnc hw legacy nfb s, ccmpDerive hw legacy nfb s, exec_ccmpEnc _ _ s, exec_ccmpDerive _ _ s,
    by rw [heq, hderive], toNat_outLen_ccmpEnc legacy nfb h, ?result, fun a ha => ?outside⟩
  case result =>
    rw [hderive]
    dsimp only
    rw [take_daad_mpduDerived]
    refine ⟨memRead_ccmpEnc legacy nfb h, ?_⟩
    rw [heq]
    exact toList_ofBytes_tag (length_ccmpEncResult_snd hw legacy nfb s)
  case outside =>
    obtain ⟨-, -, hhdr⟩ := ccmpDeriveLegal_of_ccmpEncLegal h
    exact byteAt_ccmpEnc_outside legacy nfb h (by unfold bodyAddr payloadLen; omega)

/-- Settles O41, from the effect of `CCMP_DEC`, by the verdict on the tag. -/
theorem ccmpDecOpensTheBodyAndJudgesTheTag : Obligations.CcmpDecOpensTheBodyAndJudgesTheTag := by
  unfold Obligations.CcmpDecOpensTheBodyAndJudgesTheTag
  intro legacy nfb s h body plen
  have heq := ccmpDec_eq legacy nfb h
  have hderive := ccmpDerive_eq legacy nfb (ccmpDeriveLegal_of_ccmpDecLegal h)
  have hlen : (ccmpDecResult hw legacy nfb s).1.length = plen := length_ccmpDecResult_fst hw legacy nfb s
  refine ⟨ccmpDec hw legacy nfb s, ccmpDerive hw legacy nfb s, exec_ccmpDec _ _ s, exec_ccmpDerive _ _ s,
    by rw [heq, hderive, replicate_eq_ofBytes], ?result, fun a ha => ?outside⟩
  case result =>
    rw [hderive]
    dsimp only
    rw [take_daad_mpduDerived]
    have hread := memRead_ccmpDec legacy nfb h
    rw [hlen] at hread
    refine ⟨hread, fun hyes => ?accepted, fun hno => ?rejected⟩
    case accepted =>
      have hyes' : (ccmpDecResult hw legacy nfb s).2 = true := hyes
      have hlt := s.len.isLt
      rw [heq, hyes', ccmAuthLen_hw]
      exact ⟨rfl, rfl, toNat_lengthWord (by omega)⟩
    case rejected =>
      have hno' : (ccmpDecResult hw legacy nfb s).2 = false := hno
      rw [heq, hno']
      exact ⟨rfl, rfl, rfl⟩
  case outside => exact byteAt_ccmpDec_outside legacy nfb h (by rwa [hlen])

/-! ### The errors (R219, R230) -/

section
variable (cfg : Config) (legacy : Bool) (nfb : Byte) (s : State)

theorem errcode_ccmpDerive :
    (ccmpDerive cfg legacy nfb s).errcode =
      if s.len.toNat < 32 then .invalidLength
      else if ¬(srcRegion s).Fits cfg then .bufRange
      else if s.len.toNat < mpduHeaderLen s then .invalidLength
      else .none := by
  rw [ccmpDerive, mpduChecks]
  simp only [errcode_runChecked_cons, errcode_runChecked_nil, checkRegions_src, checkRegions_error,
    ccmpDeriveEffect_eq, decide_eq_true_eq, Nat.add_zero]

/-- The output region of `CCMP_ENC` is the MPDU's and the tag's, so it allows itself and covers the input region. -/
theorem ccmpEncRegion_legal_iff :
    ((srcRegion s).Fits hw ∧ (ccmpEncRegion hw s).Fits hw ∧ (ccmpEncRegion hw s).OutputOk (srcRegion s)) ↔
      s.src.toNat + (s.len.toNat + 8) ≤ 2097152 := by
  have hcfg : hw.bufBytes = 2097152 := rfl
  simp only [Region.Fits, Region.OutputOk, srcRegion, ccmpEncRegion, ccmAuthLen_hw, hcfg, or_true, and_true]
  omega

theorem errcode_ccmpEnc :
    (ccmpEnc hw legacy nfb s).errcode =
      if s.keysel = 3 then .badKeylen
      else if s.len.toNat < 32 then .invalidLength
      else if 2097152 < s.src.toNat + (s.len.toNat + 8) then .bufRange
      else if s.len.toNat < mpduHeaderLen s then .invalidLength
      else if ccmMsgMaxLen < payloadLen 0 s then .tooLong
      else .none := by
  rw [ccmpEnc, ccmpCryptChecks, mpduChecks]
  simp only [List.cons_append, List.nil_append, errcode_runChecked_cons, errcode_runChecked_nil, checkKey_fails,
    checkKey_error, checkRegions_src_out, checkRegions_error, ccmpEncEffect_eq, decide_eq_true_eq, Nat.add_zero,
    ccmpEncRegion_legal_iff, Nat.not_le]

theorem errcode_ccmpDec :
    (ccmpDec cfg legacy nfb s).errcode =
      if s.keysel = 3 then .badKeylen
      else if s.len.toNat < 32 + cfg.ccmAuthLen then .invalidLength
      else if ¬(srcRegion s).Fits cfg then .bufRange
      else if s.len.toNat < mpduHeaderLen s + cfg.ccmAuthLen then .invalidLength
      else if ccmMsgMaxLen < payloadLen cfg.ccmAuthLen s then .tooLong
      else if (ccmpDecResult cfg legacy nfb s).2 then .none
      else .micFailure := by
  rw [ccmpDec, ccmpCryptChecks, mpduChecks]
  simp only [List.cons_append, List.nil_append, errcode_runChecked_cons, errcode_runChecked_nil, checkKey_fails,
    checkKey_error, checkRegions_src, checkRegions_error, ccmpDecEffect_eq, decide_eq_true_eq]

end

/-- Settles O42, from the error of each command. -/
theorem ccmpReportsTheFirstFailingCheck : Obligations.CcmpReportsTheFirstFailingCheck := by
  unfold Obligations.CcmpReportsTheFirstFailingCheck
  refine fun legacy nfb s t => ⟨fun ht => ?derive, fun ht => ?enc, fun ht => ?dec⟩
  case derive =>
    obtain rfl : ccmpDerive hw legacy nfb s = t := by simpa using ht
    exact errcode_ccmpDerive hw legacy nfb s
  case enc =>
    obtain rfl : ccmpEnc hw legacy nfb s = t := by simpa using ht
    exact errcode_ccmpEnc legacy nfb s
  case dec =>
    obtain rfl : ccmpDec hw legacy nfb s = t := by simpa using ht
    have herr : (ccmpDec hw legacy nfb s).errcode =
        if s.keysel = 3 then .badKeylen
        else if s.len.toNat < 32 + 8 then .invalidLength
        else if ¬(srcRegion s).Fits hw then .bufRange
        else if s.len.toNat < mpduHeaderLen s + 8 then .invalidLength
        else if 65535 < s.len.toNat - mpduHeaderLen s - 8 then .tooLong
        else if (ccmpDecResult hw legacy nfb s).2 then .none
        else .micFailure := errcode_ccmpDec hw legacy nfb s
    refine ite_of_eq_ite herr fun _ h => ite_of_eq_ite h fun _ h => ite_of_eq_ite h fun _ h =>
      ite_of_eq_ite h fun _ h => ite_of_eq_ite h fun _ h => ?_
    rw [h]
    split
    · exact .inl rfl
    · exact .inr rfl

end Sys2Proof.Machine
end

section
/-! The CCMP commands as the CCM commands over the body (44_ccmp R231): the equivalence and the round trip. -/

namespace Sys2Proof.Machine

theorem bufBytes_hw : hw.bufBytes = 2097152 := rfl

/-- A non-empty region that fits ends inside `BUF`. -/
theorem end_le_of_fits {r : Region} (h : r.Fits hw) (hpos : 0 < r.len) : r.start + r.len ≤ 2097152 :=
  h.resolve_left (by omega)

/-! ### CCM over the body (R231(b)) -/

/-- `s2` is `s` with the operands of a CCM command set to the body of the MPDU, in place, under the derived nonce and
AAD. -/
structure CcmOverBody (legacy : Bool) (nfb : Byte) (s s2 : State) : Prop where
  keysel : s2.keysel = s.keysel
  keyBytes : keyBytes s2 = keyBytes s
  buf : s2.buf = s.buf
  bufEpoch : s2.bufEpoch = s.bufEpoch
  nonce : s2.nonce = (mpduDerived hw legacy nfb s).nonce
  aadBytes : aadBytes s2 = (mpduDerived hw legacy nfb s).aad
  src : s2.src.toNat = bodyAddr s
  dst : s2.dst.toNat = bodyAddr s
  len : s2.len.toNat = s.len.toNat - mpduHeaderLen s

section
variable {legacy : Bool} {nfb : Byte} {s s2 t : State}

/-- The operands that the host sets from what a CCMP command derived. -/
theorem ccmOverBody_of_derived {p : Word} (hmpdu : CcmpDeriveLegal hw s)
    (hnonce : t.dnonce = (mpduDerived hw legacy nfb s).nonce)
    (hdaad : t.daad = ofBytes 30 (mpduDerived hw legacy nfb s).aad)
    (haadLen : t.dAadLen = lengthWord (mpduDerived hw legacy nfb s).aadLen)
    (haad : memRead s p.toNat t.dAadLen.toNat = t.daad.toList.take t.dAadLen.toNat) :
    CcmOverBody legacy nfb s { s with
      nonce := t.dnonce, aadPtr := p, aadLen := t.dAadLen, src := BitVec.ofNat 32 (s.src.toNat + mpduHeaderLen s),
      dst := BitVec.ofNat 32 (s.src.toNat + mpduHeaderLen s),
      len := BitVec.ofNat 32 (s.len.toNat - mpduHeaderLen s) } := by
  obtain ⟨hlen, hfits, hhdr⟩ := hmpdu
  have hend : s.src.toNat + s.len.toNat ≤ 2097152 := end_le_of_fits hfits (by change 0 < s.len.toNat; omega)
  have hbody : (lengthWord (s.src.toNat + mpduHeaderLen s)).toNat = bodyAddr s := toNat_lengthWord (by omega)
  refine { keysel := rfl, keyBytes := rfl, buf := rfl, bufEpoch := rfl, nonce := hnonce, aadBytes := ?_,
           src := hbody, dst := hbody, len := toNat_lengthWord (by omega) }
  rw [hdaad, haadLen, take_daad_mpduDerived, ← haadLen] at haad
  exact (memRead_of_buf rfl rfl _ _).trans haad

theorem CcmOverBody.memRead (ho : CcmOverBody legacy nfb s s2) (a n : Nat) : memRead s2 a n = memRead s a n :=
  memRead_of_buf ho.buf ho.bufEpoch a n

/-- The input of `CCM_ENC` is the body of the MPDU. -/
theorem CcmOverBody.ccmEncResult (ho : CcmOverBody legacy nfb s s2) :
    ccmEncResult hw s2 = ccmpEncResult hw legacy nfb s := by
  rw [Machine.ccmEncResult, srcBytes, ho.keyBytes, ho.nonce, ho.aadBytes, ho.memRead, ho.src, ho.len, ccmpEncResult,
    payloadLen, Nat.sub_zero]

/-- The input of `CCM_DEC` is the body and the tag of the MPDU. -/
theorem CcmOverBody.ccmDecResult (ho : CcmOverBody legacy nfb s s2) (h : CcmpDecLegal hw s) :
    ccmDecResult hw s2 = ccmpDecResult hw legacy nfb s := by
  obtain ⟨-, ⟨-, -, hhdr⟩, -⟩ := h
  have hlen : payloadLen hw.ccmAuthLen s + hw.ccmAuthLen = s.len.toNat - mpduHeaderLen s := by
    rw [payloadLen]
    omega
  rw [Machine.ccmDecResult, srcBytes, ho.keyBytes, ho.nonce, ho.aadBytes, ho.memRead, ho.src, ho.len, ccmpDecResult,
    hlen]

/-- The AAD is as long as the derived one, so CCM allows it. -/
theorem CcmOverBody.aadLen_le (ho : CcmOverBody legacy nfb s s2) : s2.aadLen.toNat ≤ hw.ccmAadMaxLen := by
  have hlen := congrArg List.length ho.aadBytes
  obtain ⟨-, hhi⟩ := mpduDerived_aadLen_bounds hw legacy nfb s
  rw [length_aadBytes, length_mpduDerived_aad] at hlen
  rw [hlen]
  exact hhi.trans (by decide)

/-- The output region starts with the input region, and both are inside the MPDU and its tag. -/
theorem CcmOverBody.ccmEncLegal (ho : CcmOverBody legacy nfb s s2) (h : CcmpEncLegal hw s)
    (hfits : (aadRegion s2).Fits hw) (hapart : (dstRegion s2 (s2.len.toNat + 8)).Apart (aadRegion s2)) :
    CcmEncLegal hw s2 := by
  obtain ⟨hkey, ⟨-, -, hhdr⟩, hend, hmax⟩ := h
  rw [ccmAuthLen_hw, bufBytes_hw] at hend
  have hsrc : (srcRegion s2).Fits hw := by
    simp only [Region.Fits, srcRegion, ho.src, ho.len, bodyAddr, bufBytes_hw]
    omega
  have hdst : (dstRegion s2 (s2.len.toNat + 8)).Fits hw := by
    simp only [Region.Fits, ho.dst, ho.len, bodyAddr, bufBytes_hw]
    omega
  exact ⟨⟨ho.keysel ▸ hkey, ho.aadLen_le, ho.len ▸ hmax, hsrc, hfits⟩, hdst, hapart, .inr (ho.dst.trans ho.src.symm)⟩

theorem CcmOverBody.ccmDecLegal (ho : CcmOverBody legacy nfb s s2) (h : CcmpDecLegal hw s)
    (hfits : (aadRegion s2).Fits hw) (hapart : (dstRegion s2 (s2.len.toNat - 8)).Apart (aadRegion s2)) :
    CcmDecLegal hw s2 := by
  obtain ⟨hkey, ⟨hlen, hsrcFits, hhdr⟩, hmax⟩ := h
  have hend : s.src.toNat + s.len.toNat ≤ 2097152 := end_le_of_fits hsrcFits (by change 0 < s.len.toNat; omega)
  rw [ccmAuthLen_hw] at hhdr
  have hsrc : (srcRegion s2).Fits hw := by
    simp only [Region.Fits, srcRegion, ho.src, ho.len, bodyAddr, bufBytes_hw]
    omega
  have hdst : (dstRegion s2 (s2.len.toNat - 8)).Fits hw := by
    simp only [Region.Fits, ho.dst, ho.len, bodyAddr, bufBytes_hw]
    omega
  have htag : hw.ccmAuthLen ≤ s2.len.toNat := by
    rw [ho.len, ccmAuthLen_hw]
    omega
  exact ⟨htag, ⟨ho.keysel ▸ hkey, ho.aadLen_le, ho.len ▸ hmax, hsrc, hfits⟩, hdst, hapart,
    .inr (ho.dst.trans ho.src.symm)⟩

end

/-- Settles O43: the CCM command over the body computes the same result and writes it at the same place. -/
theorem ccmpIsCcmOverTheBody : Obligations.CcmpIsCcmOverTheBody := by
  unfold Obligations.CcmpIsCcmOverTheBody
  intro legacy nfb s p body s2
  refine ⟨fun h => ⟨ccmpEnc hw legacy nfb s, exec_ccmpEnc _ _ s, fun hfits hapart haad => ?enc⟩,
    fun h => ⟨ccmpDec hw legacy nfb s, exec_ccmpDec _ _ s, fun hfits hapart haad => ?dec⟩⟩
  case enc =>
    have heq := ccmpEnc_eq legacy nfb h
    have ho : CcmOverBody legacy nfb s (s2 (ccmpEnc hw legacy nfb s)) :=
      ccmOverBody_of_derived (ccmpDeriveLegal_of_ccmpEncLegal h) (by rw [heq]) (by rw [heq]) (by rw [heq]) haad
    have hccm := ccmEnc_eq (ho.ccmEncLegal h hfits hapart)
    rw [ho.ccmEncResult] at hccm
    refine ⟨_, exec_ccmEnc _, by rw [hccm], by rw [heq], by rw [hccm, heq], ?_⟩
    rw [hccm, buf_ccmpEnc legacy nfb h]
    dsimp only
    rw [ho.dst, ho.buf]
  case dec =>
    have heq := ccmpDec_eq legacy nfb h
    have ho : CcmOverBody legacy nfb s (s2 (ccmpDec hw legacy nfb s)) :=
      ccmOverBody_of_derived (ccmpDeriveLegal_of_ccmpDecLegal h) (by rw [heq]) (by rw [heq]) (by rw [heq]) haad
    have hccm := ccmDec_eq (ho.ccmDecLegal h hfits hapart)
    rw [ho.ccmDecResult h] at hccm
    refine ⟨_, exec_ccmDec _, by rw [hccm, heq], ?buf, ?errcode⟩
    case buf =>
      rw [hccm, buf_ccmpDec legacy nfb h]
      dsimp only
      rw [ho.dst, ho.buf]
    case errcode =>
      rw [hccm, heq]
      dsimp only
      split
      · exact .inl ⟨rfl, rfl⟩
      · exact .inr ⟨rfl, rfl⟩

/-! ### `CCMP_DEC` after `CCMP_ENC` (R231(a)) -/

section
variable {s t : State}

/-- Two states with the same bytes before the body hold the same header. -/
theorem mpduHeaderLen_congr (hsrc : t.src = s.src) (hbytes : ∀ a, a < bodyAddr s → t.byteAt a = s.byteAt a) :
    mpduHeaderLen t = mpduHeaderLen s := by
  have hhdr : 32 ≤ mpduHeaderLen s := (headerLen_bounds _).1
  have hfc : memRead t t.src.toNat 2 = memRead s s.src.toNat 2 := by
    rw [hsrc]
    exact memRead_congr fun i hi => hbytes _ (by unfold bodyAddr; omega)
  rw [mpduHeaderLen, mpduHeaderLen, hfc]

theorem mpduHeader_congr (hsrc : t.src = s.src) (hbytes : ∀ a, a < bodyAddr s → t.byteAt a = s.byteAt a) :
    mpduHeader t = mpduHeader s := by
  rw [mpduHeader, mpduHeader, mpduHeaderLen_congr hsrc hbytes, hsrc]
  exact memRead_congr fun i hi => hbytes _ (by unfold bodyAddr; omega)

theorem mpduHeaderLen_add_payloadLen (h : mpduHeaderLen s ≤ s.len.toNat) :
    mpduHeaderLen s + payloadLen 0 s = s.len.toNat := by
  rw [payloadLen]
  omega

/-- The MPDU is its header and its body. -/
theorem srcBytes_eq_mpdu (h : mpduHeaderLen s ≤ s.len.toNat) :
    srcBytes s = mpduHeader s ++ memRead s (bodyAddr s) (payloadLen 0 s) := by
  rw [srcBytes, ← mpduHeaderLen_add_payloadLen h, memRead_append]
  rfl

end

/-- `s2` is `s` after `CCMP_ENC`, with `LEN` grown by the tag. -/
structure CcmpReceived (legacy : Bool) (nfb : Byte) (s s2 : State) : Prop where
  keysel : s2.keysel = s.keysel
  keyBytes : keyBytes s2 = keyBytes s
  src : s2.src = s.src
  len : s2.len.toNat = s.len.toNat + 8
  body : memRead s2 (bodyAddr s) (payloadLen 0 s + 8) =
    (ccmpEncResult hw legacy nfb s).1 ++ (ccmpEncResult hw legacy nfb s).2
  header : ∀ a, a < bodyAddr s → s2.byteAt a = s.byteAt a

section
variable {legacy : Bool} {nfb : Byte} {s s2 : State}

theorem ccmpReceived_ccmpEnc (h : CcmpEncLegal hw s) :
    CcmpReceived legacy nfb s { ccmpEnc hw legacy nfb s with len := (ccmpEnc hw legacy nfb s).outLen } where
  keysel := by rw [ccmpEnc_eq legacy nfb h]
  keyBytes := by rw [ccmpEnc_eq legacy nfb h]; rfl
  src := by rw [ccmpEnc_eq legacy nfb h]
  len := toNat_outLen_ccmpEnc legacy nfb h
  body := (memRead_of_buf rfl rfl _ _).trans (memRead_ccmpEnc legacy nfb h)
  header := fun a ha => (byteAt_congr rfl rfl a).trans (byteAt_ccmpEnc_outside legacy nfb h (.inl ha))

theorem CcmpReceived.mpduHeaderLen (hr : CcmpReceived legacy nfb s s2) : mpduHeaderLen s2 = mpduHeaderLen s :=
  mpduHeaderLen_congr hr.src hr.header

theorem CcmpReceived.bodyAddr (hr : CcmpReceived legacy nfb s s2) : bodyAddr s2 = bodyAddr s := by
  rw [Machine.bodyAddr, Machine.bodyAddr, hr.mpduHeaderLen, hr.src]

theorem CcmpReceived.payloadLen (hr : CcmpReceived legacy nfb s s2) :
    payloadLen hw.ccmAuthLen s2 = payloadLen 0 s := by
  rw [Machine.payloadLen, Machine.payloadLen, hr.mpduHeaderLen, hr.len, ccmAuthLen_hw]
  omega

theorem CcmpReceived.mpduDerived (hr : CcmpReceived legacy nfb s s2) :
    mpduDerived hw legacy nfb s2 = mpduDerived hw legacy nfb s := by
  rw [Machine.mpduDerived, Machine.mpduDerived, mpduHeader_congr hr.src hr.header]

theorem CcmpReceived.legal (hr : CcmpReceived legacy nfb s s2) (h : CcmpEncLegal hw s) : CcmpDecLegal hw s2 := by
  obtain ⟨hkey, ⟨hlen, -, hhdr⟩, hend, hmax⟩ := h
  have hsrc : (srcRegion s2).Fits hw := by
    rw [srcRegion, hr.src, hr.len]
    exact .inr hend
  rw [CcmpDecLegal, MpduLegal, hr.mpduHeaderLen, hr.len, ccmAuthLen_hw, hr.keysel]
  exact ⟨hkey, ⟨by omega, hsrc, by omega⟩, by omega⟩

/-- `CCMP_DEC` computes the body that was encrypted, and accepts its tag. -/
theorem CcmpReceived.ccmpDecResult (hr : CcmpReceived legacy nfb s s2) :
    ccmpDecResult hw legacy nfb s2 = (memRead s (Machine.bodyAddr s) (Machine.payloadLen 0 s), true) := by
  have hinput := hr.body
  rw [← ccmAuthLen_hw] at hinput
  rw [Machine.ccmpDecResult, hr.payloadLen, hr.bodyAddr, hr.mpduDerived, hr.keyBytes, hinput, ccmpEncResult,
    ccmDecrypt_ccmEncrypt_append _ _ _ _ _ (length_ccmEncrypt_snd _ _ _ _ _) (by decide), decide_eq_true rfl]

end

/-- Settles O44: `CCMP_ENC` leaves the header, so `CCMP_DEC` derives the same nonce and AAD and undoes the
encryption. -/
theorem ccmpDecUndoesCcmpEnc : Obligations.CcmpDecUndoesCcmpEnc := by
  unfold Obligations.CcmpDecUndoesCcmpEnc
  intro legacy nfb s h
  have hr := ccmpReceived_ccmpEnc (legacy := legacy) (nfb := nfb) h
  generalize hs2 : ({ ccmpEnc hw legacy nfb s with len := (ccmpEnc hw legacy nfb s).outLen } : State) = s2 at hr
  have hdec := hr.legal h
  have heq := ccmpDec_eq legacy nfb hdec
  rw [hr.ccmpDecResult] at heq
  refine ⟨_, ccmpDec hw legacy nfb s2, exec_ccmpEnc _ _ s, hs2 ▸ exec_ccmpDec _ _ _, by rw [heq]; rfl, ?outLen, ?mpdu⟩
  case outLen =>
    rw [heq]
    dsimp only
    rw [if_pos rfl, hr.len, ccmAuthLen_hw, Nat.add_sub_cancel, lengthWord_toNat]
  case mpdu =>
    obtain ⟨-, -, hhdr⟩ := ccmpDeriveLegal_of_ccmpEncLegal h
    have hbody := memRead_ccmpDec legacy nfb hdec
    rw [hr.ccmpDecResult, hr.bodyAddr, length_memRead] at hbody
    have hheader : memRead (ccmpDec hw legacy nfb s2) s.src.toNat (mpduHeaderLen s) = mpduHeader s :=
      memRead_congr fun i hi => by
        have ha : s.src.toNat + i < bodyAddr s := by unfold bodyAddr; omega
        rw [byteAt_ccmpDec_outside legacy nfb hdec (.inl (hr.bodyAddr ▸ ha)), hr.header _ ha]
    rw [srcBytes_eq_mpdu hhdr, ← mpduHeaderLen_add_payloadLen hhdr, memRead_append, hheader]
    exact congrArg _ hbody

end Sys2Proof.Machine
end

section
/-! What the CCMP derivation reads of the header, bit by bit and byte by byte (44_ccmp R211 to R216). -/

namespace Sys2Proof.Machine

/-! ### The bits of Frame Control and of the nonce first byte (R212, R216) -/

theorem isFourAddress_eq (fc : Half) : isFourAddress fc = (fc.getLsbD 8 && fc.getLsbD 9) := by
  rw [isFourAddress, Bool.eq_iff_iff, decide_eq_true_eq, Bool.and_eq_true]
  constructor
  · intro h
    have h8 := congrArg (·.getLsbD 8) h
    have h9 := congrArg (·.getLsbD 9) h
    exact ⟨by simpa using h8, by simpa using h9⟩
  · rintro ⟨h8, h9⟩
    apply BitVec.eq_of_getLsbD_eq
    intro i hi
    interval_cases i <;> simp [h8, h9]

theorem isQosData_eq (fc : Half) : isQosData fc = (!fc.getLsbD 2 && fc.getLsbD 3 && fc.getLsbD 7) := by
  have htype : fc.extractLsb' 2 2 = 2 ↔ fc.getLsbD 2 = false ∧ fc.getLsbD 3 = true := by
    constructor
    · intro h
      have h0 := congrArg (·.getLsbD 0) h
      have h1 := congrArg (·.getLsbD 1) h
      exact ⟨by simpa using h0, by simpa using h1⟩
    · rintro ⟨h2, h3⟩
      apply BitVec.eq_of_getLsbD_eq
      intro i hi
      interval_cases i
      · simpa using h2
      · simpa using h3
  rw [isQosData, Bool.eq_iff_iff, Bool.and_eq_true, Bool.and_eq_true, Bool.and_eq_true, Bool.not_eq_true',
    decide_eq_true_eq, htype]

theorem isMgmt_hw (nfb : Byte) : isMgmt hw nfb = nfb.getLsbD 4 := by
  have hmask : nfb &&& hw.nfMgmt = if nfb.getLsbD 4 then BitVec.twoPow 8 4 else 0 := BitVec.and_twoPow nfb 4
  rw [isMgmt, hmask]
  cases nfb.getLsbD 4
  · rfl
  · rfl

theorem maskedFc_hw (legacy : Bool) (nfb : Byte) (fc : Half) :
    maskedFc hw legacy nfb fc = fc &&& (if legacy then 0xF7FF else if nfb.getLsbD 4 then 0xC7FF else 0xC78F) := by
  rw [maskedFc, isMgmt_hw]
  cases legacy
  · cases nfb.getLsbD 4
    · rfl
    · rfl
  · rfl

theorem maskedSc_hw (legacy : Bool) (sc : Half) :
    maskedSc hw legacy sc = sc &&& (if legacy then 0x0000 else 0x000F) := rfl

theorem maskedQc_hw (legacy : Bool) (qc : Half) :
    maskedQc hw legacy qc = qc &&& (if legacy then 0xFFFF else 0x000F) := rfl

/-! ### The bytes of the header (R211) -/

/-- Byte `i` of the MPDU at `SRC`. -/
def mpduByte (s : State) (i : Nat) : Byte := s.byteAt (s.src.toNat + i)

/-- The `n` bytes from byte `i` of the MPDU at `SRC`. -/
def mpduBytes (s : State) (i n : Nat) : List Byte := (List.range n).map fun j => mpduByte s (i + j)

section
variable (s : State)

/-- The bytes that the optional fields add to the header of the MPDU at `SRC`. -/
def mpduOptionalLen : Nat := optionalLen (frameControl (mpduHeader s))

theorem mpduHeaderLen_eq : mpduHeaderLen s = 32 + mpduOptionalLen s := by
  rw [mpduHeaderLen, ← frameControl_mpduHeader, headerLen, mpduOptionalLen]

theorem frameControl_mpdu : frameControl (mpduHeader s) = mpduByte s 1 ++ mpduByte s 0 := by
  rw [frameControl_mpduHeader, frameControl_memRead _ _ _ le_rfl]
  rfl

variable {s}

theorem slice_mpduHeader {i n : Nat} (h : i + n ≤ mpduHeaderLen s) :
    slice (mpduHeader s) i (i + n) = mpduBytes s i n := by
  apply List.ext_getElem
  · simp [mpduHeader, mpduBytes]
    omega
  · intro k hk hk'
    simp [slice, mpduHeader, mpduBytes, mpduByte, getElem_memRead]

theorem le16_slice_mpduHeader {i : Nat} (h : i + 2 ≤ mpduHeaderLen s) :
    le16 (slice (mpduHeader s) i (i + 2)) = mpduByte s (i + 1) ++ mpduByte s i := by
  rw [slice_mpduHeader h]
  rfl

/-- The CCMP IV field is the last 8 bytes of the header. -/
theorem ccmpIv_mpduHeader : ccmpIv (mpduHeader s) = mpduBytes s (24 + mpduOptionalLen s) 8 := by
  have hlen : 24 + mpduOptionalLen s + 8 ≤ mpduHeaderLen s := by
    rw [mpduHeaderLen_eq]
    omega
  rw [← slice_mpduHeader hlen, ccmpIv, ← mpduOptionalLen]
  congr 1
  omega

/-- The derived nonce is the first byte, Address 2 and the packet number, `PN5` first (R213). -/
theorem toList_derivedNonce_mpduHeader (nfb : Byte) {iv : Nat} (hiv : iv = 24 + mpduOptionalLen s) :
    (derivedNonce nfb (mpduHeader s)).toList =
      nfb :: mpduBytes s 10 6 ++ [mpduByte s (iv + 7), mpduByte s (iv + 6), mpduByte s (iv + 5), mpduByte s (iv + 4),
        mpduByte s (iv + 1), mpduByte s iv] := by
  have hlen := mpduHeaderLen_eq s
  rw [derivedNonce, ccmpIv_mpduHeader, slice_mpduHeader (i := 10) (n := 6) (by omega), ← hiv]
  exact toList_ofBytes_of_length rfl

end

/-- Settles O38: each piece of the derivation is read off the header's bytes. -/
theorem ccmpDeriveLeavesNonceAndAad : Obligations.CcmpDeriveLeavesNonceAndAad := by
  unfold Obligations.CcmpDeriveLeavesNonceAndAad
  intro legacy nfb s h byte str fc sc a4 qos q iv qc fcm scm qcm aad
  have hfc : frameControl (mpduHeader s) = fc := frameControl_mpdu s
  have ha4 : isFourAddress (frameControl (mpduHeader s)) = a4 := hfc ▸ isFourAddress_eq _
  have hqos : isQosData (frameControl (mpduHeader s)) = qos := hfc ▸ isQosData_eq _
  have hopt : mpduOptionalLen s = (if a4 then 6 else 0) + (if qos then 2 else 0) := by
    rw [mpduOptionalLen, optionalLen, ha4, hqos]
  have hhdr := mpduHeaderLen_eq s
  have hq : qosOffset (frameControl (mpduHeader s)) = q := by rw [qosOffset, ha4]
  have hsc : sequenceControl (mpduHeader s) = sc := le16_slice_mpduHeader (by omega)
  have hfcm : halfBytes (maskedFc hw legacy nfb (frameControl (mpduHeader s))) =
      [fcm.extractLsb' 0 8, fcm.extractLsb' 8 8] := by
    rw [hfc, maskedFc_hw, halfBytes]
  have hscm : halfBytes (maskedSc hw legacy (sequenceControl (mpduHeader s))) =
      [scm.extractLsb' 0 8, scm.extractLsb' 8 8] := by
    rw [hsc, maskedSc_hw, halfBytes]
  have haddr4 : (if a4 then slice (mpduHeader s) 24 30 else []) = if a4 then str 24 6 else [] :=
    ite_congr rfl (fun hyes => slice_mpduHeader (i := 24) (n := 6) (by rw [hyes, if_pos rfl] at hopt; omega))
      fun _ => rfl
  have hqcm : (if qos then halfBytes (maskedQc hw legacy (qosControl (mpduHeader s))) else []) =
      if qos then [qcm.extractLsb' 0 8, qcm.extractLsb' 8 8] else [] := by
    refine ite_congr rfl (fun hyes => ?_) fun _ => rfl
    have hqc : qosControl (mpduHeader s) = qc := by
      rw [qosControl, hq]
      exact le16_slice_mpduHeader (by rw [hyes, if_pos rfl] at hopt; omega)
    rw [hqc, maskedQc_hw, halfBytes]
  have haad : (mpduDerived hw legacy nfb s).aad = aad := by
    rw [mpduDerived, ccmpDerivation]
    dsimp only
    rw [derivedAad, ha4, hqos, hfcm, hscm, haddr4, hqcm, slice_mpduHeader (i := 4) (n := 6) (by omega),
      slice_mpduHeader (i := 10) (n := 6) (by omega), slice_mpduHeader (i := 16) (n := 6) (by omega)]
    rfl
  obtain ⟨-, hmax⟩ := mpduDerived_aadLen_bounds hw legacy nfb s
  have haadLen : (mpduDerived hw legacy nfb s).aadLen = 22 + ((if a4 then 6 else 0) + (if qos then 2 else 0)) := by
    rw [← hopt]
    rfl
  have heq := ccmpDerive_eq legacy nfb h
  refine ⟨ccmpDerive hw legacy nfb s, exec_ccmpDerive _ _ s, by rw [heq], ?hdrLen, ?aadLen, ?nonce, ?aadLength, ?daad⟩
  case hdrLen =>
    rw [heq]
    dsimp only
    rw [mpduDerived_headerLen, hhdr, hopt, toNat_lengthWord (by omega), Nat.add_assoc]
  case aadLen =>
    rw [heq]
    dsimp only
    rw [haadLen, toNat_lengthWord (by omega), Nat.add_assoc]
  case nonce =>
    rw [heq]
    exact toList_derivedNonce_mpduHeader nfb (by omega)
  case aadLength =>
    rw [heq]
    dsimp only
    rw [← haad, length_mpduDerived_aad, toNat_lengthWord (by omega)]
  case daad =>
    rw [heq]
    dsimp only
    rw [haad, toList_ofBytes_of_length_le (by rwa [← haad, length_mpduDerived_aad])]

end Sys2Proof.Machine
end
